-- ==== Sys2Proof/Word.lean ====
section
/-! DEFINITION. The word types of the pixel pipeline (00_scope.md R10, R13) and the two index types of its layers. -/

namespace Sys2Proof

/-- One byte of VRAM, palette RAM or OAM. -/
abbrev Byte := BitVec 8

/-- One halfword: a register or a memory halfword (20_memory.md R61). -/
abbrev Half := BitVec 16

/-- One operation word, or the operand word beside it (30_encoding.md R108, R113). -/
abbrev OpWord := BitVec 32

/-- A 15-bit colour: red 4:0, green 9:5, blue 14:10 (00_scope.md R13). -/
abbrev Color15 := BitVec 15

/-- A reference point: a two's-complement 28-bit value with 8 fraction bits (30_encoding.md R99). -/
abbrev S28 := BitVec 28

/-- The four background layers. -/
inductive BgId where
  | bg0
  | bg1
  | bg2
  | bg3
  deriving DecidableEq, Repr, Inhabited

/-- The two affine-capable background layers, b ∈ {2, 3} (10_state.md R26). -/
inductive AffId where
  | bg2
  | bg3
  deriving DecidableEq, Repr, Inhabited

/-- The layer index 0..3. -/
def BgId.toNat : BgId → Nat
  | .bg0 => 0
  | .bg1 => 1
  | .bg2 => 2
  | .bg3 => 3

/-- The four layers "in ascending index" (42_background_sampling.md R202). -/
def BgId.all : List BgId := [.bg0, .bg1, .bg2, .bg3]

/-- One value for each background layer. -/
structure PerBg (α : Type) where
  bg0 : α
  bg1 : α
  bg2 : α
  bg3 : α
  deriving DecidableEq, Repr

/-- The copy of layer `i`. -/
def PerBg.get {α : Type} (p : PerBg α) : BgId → α
  | .bg0 => p.bg0
  | .bg1 => p.bg1
  | .bg2 => p.bg2
  | .bg3 => p.bg3

/-- Replace the copy of layer `i`. -/
def PerBg.set {α : Type} (p : PerBg α) (i : BgId) (v : α) : PerBg α :=
  match i with
  | .bg0 => { p with bg0 := v }
  | .bg1 => { p with bg1 := v }
  | .bg2 => { p with bg2 := v }
  | .bg3 => { p with bg3 := v }

/-- The same value for every layer. -/
def PerBg.const {α : Type} (v : α) : PerBg α := ⟨v, v, v, v⟩

/-- One value for each affine-capable layer. -/
structure PerAff (α : Type) where
  bg2 : α
  bg3 : α
  deriving DecidableEq, Repr

/-- The copy of layer `b`. -/
def PerAff.get {α : Type} (p : PerAff α) : AffId → α
  | .bg2 => p.bg2
  | .bg3 => p.bg3

/-- Replace the copy of layer `b`. -/
def PerAff.set {α : Type} (p : PerAff α) (b : AffId) (v : α) : PerAff α :=
  match b with
  | .bg2 => { p with bg2 := v }
  | .bg3 => { p with bg3 := v }

/-- The same value for both layers. -/
def PerAff.const {α : Type} (v : α) : PerAff α := ⟨v, v⟩

/-- The background layer an affine-capable layer is. -/
def AffId.toBg : AffId → BgId
  | .bg2 => .bg2
  | .bg3 => .bg3

end Sys2Proof
end

