-- ==== Sys2Proof/Syntax.lean ====
section
/-! DEFINITION. The operations of the block, one constructor per row of spec/opcode_table.json. -/

namespace Sys2Proof

/-- One column of a sprite strip (10_state.md R31): `isOpaque` is the rule's `opaque`. -/
structure SpriteEntry where
  isOpaque : Bool
  palIdx : BitVec 8
  prio : BitVec 2
  semi : Bool
  objWin : Bool
  deriving DecidableEq, Repr

/-- The empty entry (false, 0, 3, false, false) of 10_state.md R31. -/
def SpriteEntry.empty : SpriteEntry := ⟨false, 0, 3, false, false⟩

/-- The operations (30_encoding.md R108). The value operands of a halfword write are 16 bits wide, a line operand is
carried in 8 bits, a column or register offset in the 10 bits OW[9:0]. -/
inductive Instr where
  /-- W_DISPCNT: halfword write at offset 0x000 (41_register_access.md R161). -/
  | wDispcnt (value : Half)
  /-- W_GREENSWAP: halfword write at offset 0x002 (41_register_access.md R184). -/
  | wGreenswap (value : Half)
  /-- W_DISPSTAT: halfword write at offset 0x004 (41_register_access.md R162). -/
  | wDispstat (value : Half)
  /-- W_VCOUNT: halfword write at offset 0x006 (41_register_access.md R163). -/
  | wVcount (value : Half)
  /-- W_BG0CNT: halfword write at offset 0x008 (41_register_access.md R164). -/
  | wBg0cnt (value : Half)
  /-- W_BG1CNT: halfword write at offset 0x00A (41_register_access.md R164). -/
  | wBg1cnt (value : Half)
  /-- W_BG2CNT: halfword write at offset 0x00C (41_register_access.md R164). -/
  | wBg2cnt (value : Half)
  /-- W_BG3CNT: halfword write at offset 0x00E (41_register_access.md R164). -/
  | wBg3cnt (value : Half)
  /-- W_BG0HOFS: halfword write at offset 0x010 (41_register_access.md R165). -/
  | wBg0hofs (value : Half)
  /-- W_BG0VOFS: halfword write at offset 0x012 (41_register_access.md R166). -/
  | wBg0vofs (value : Half)
  /-- W_BG1HOFS: halfword write at offset 0x014 (41_register_access.md R165). -/
  | wBg1hofs (value : Half)
  /-- W_BG1VOFS: halfword write at offset 0x016 (41_register_access.md R166). -/
  | wBg1vofs (value : Half)
  /-- W_BG2HOFS: halfword write at offset 0x018 (41_register_access.md R165). -/
  | wBg2hofs (value : Half)
  /-- W_BG2VOFS: halfword write at offset 0x01A (41_register_access.md R166). -/
  | wBg2vofs (value : Half)
  /-- W_BG3HOFS: halfword write at offset 0x01C (41_register_access.md R165). -/
  | wBg3hofs (value : Half)
  /-- W_BG3VOFS: halfword write at offset 0x01E (41_register_access.md R166). -/
  | wBg3vofs (value : Half)
  /-- W_BG2PA: halfword write at offset 0x020 (41_register_access.md R167). -/
  | wBg2pa (value : Half)
  /-- W_BG2PB: halfword write at offset 0x022 (41_register_access.md R168). -/
  | wBg2pb (value : Half)
  /-- W_BG2PC: halfword write at offset 0x024 (41_register_access.md R169). -/
  | wBg2pc (value : Half)
  /-- W_BG2PD: halfword write at offset 0x026 (41_register_access.md R170). -/
  | wBg2pd (value : Half)
  /-- W_BG2X_L: halfword write at offset 0x028 (41_register_access.md R171). -/
  | wBg2xL (value : Half)
  /-- W_BG2X_H: halfword write at offset 0x02A (41_register_access.md R171). -/
  | wBg2xH (value : Half)
  /-- W_BG2Y_L: halfword write at offset 0x02C (41_register_access.md R171). -/
  | wBg2yL (value : Half)
  /-- W_BG2Y_H: halfword write at offset 0x02E (41_register_access.md R171). -/
  | wBg2yH (value : Half)
  /-- W_BG3PA: halfword write at offset 0x030 (41_register_access.md R167). -/
  | wBg3pa (value : Half)
  /-- W_BG3PB: halfword write at offset 0x032 (41_register_access.md R168). -/
  | wBg3pb (value : Half)
  /-- W_BG3PC: halfword write at offset 0x034 (41_register_access.md R169). -/
  | wBg3pc (value : Half)
  /-- W_BG3PD: halfword write at offset 0x036 (41_register_access.md R170). -/
  | wBg3pd (value : Half)
  /-- W_BG3X_L: halfword write at offset 0x038 (41_register_access.md R171). -/
  | wBg3xL (value : Half)
  /-- W_BG3X_H: halfword write at offset 0x03A (41_register_access.md R171). -/
  | wBg3xH (value : Half)
  /-- W_BG3Y_L: halfword write at offset 0x03C (41_register_access.md R171). -/
  | wBg3yL (value : Half)
  /-- W_BG3Y_H: halfword write at offset 0x03E (41_register_access.md R171). -/
  | wBg3yH (value : Half)
  /-- W_WIN0H: halfword write at offset 0x040 (41_register_access.md R173). -/
  | wWin0h (value : Half)
  /-- W_WIN1H: halfword write at offset 0x042 (41_register_access.md R173). -/
  | wWin1h (value : Half)
  /-- W_WIN0V: halfword write at offset 0x044 (41_register_access.md R174). -/
  | wWin0v (value : Half)
  /-- W_WIN1V: halfword write at offset 0x046 (41_register_access.md R174). -/
  | wWin1v (value : Half)
  /-- W_WININ: halfword write at offset 0x048 (41_register_access.md R175). -/
  | wWinin (value : Half)
  /-- W_WINOUT: halfword write at offset 0x04A (41_register_access.md R176). -/
  | wWinout (value : Half)
  /-- W_MOSAIC: halfword write at offset 0x04C (41_register_access.md R177). -/
  | wMosaic (value : Half)
  /-- W_UNUSED_04E: halfword write at offset 0x04E (41_register_access.md R181). -/
  | wUnused04E (value : Half)
  /-- W_BLDCNT: halfword write at offset 0x050 (41_register_access.md R178). -/
  | wBldcnt (value : Half)
  /-- W_BLDALPHA: halfword write at offset 0x052 (41_register_access.md R179). -/
  | wBldalpha (value : Half)
  /-- W_BLDY: halfword write at offset 0x054 (41_register_access.md R180). -/
  | wBldy (value : Half)
  /-- W_UNUSED_056: halfword write at offset 0x056 (41_register_access.md R181). -/
  | wUnused056 (value : Half)
  /-- W16_ODD: halfword write at an odd offset, performed at offset - 1 (30_encoding.md R109). -/
  | w16Odd (offset : BitVec 10) (value : Half)
  /-- W8: byte write, merged with the stored halfword (30_encoding.md R109). -/
  | w8 (offset : BitVec 10) (value : Byte)
  /-- W32: two halfword writes, low then high (30_encoding.md R109). -/
  | w32 (offset : BitVec 10) (value : OpWord)
  /-- R8: register byte read (41_register_access.md R185). -/
  | r8 (offset : BitVec 10)
  /-- R16: register halfword read (41_register_access.md R185). -/
  | r16 (offset : BitVec 10)
  /-- R32: register word read (41_register_access.md R185). -/
  | r32 (offset : BitVec 10)
  /-- TICK: one cycle (40_scanline_events.md R130). -/
  | tick
  /-- HBLANK_COMMIT of a line (40_scanline_events.md R150). -/
  | hblankCommit (line : Byte)
  /-- LYC_COMMIT of a line (40_scanline_events.md R151). -/
  | lycCommit (line : Byte)
  /-- STRIP_WRITE of an entry at a column (60_exceptions.md R320). -/
  | stripWrite (column : BitVec 10) (entry : SpriteEntry)
  /-- HARD_RESET (70_reset_and_hazards.md R330). -/
  | hardReset
  deriving DecidableEq, Repr

end Sys2Proof
end

