-- ==== Sys2Proof/WellFormed.lean ====
section
/-! DEFINITION. Which operation terms stand for an operation of the block (30_encoding.md R108, R109, R112). -/

namespace Sys2Proof

/-- The block's registers lie at offsets below 0x058 (30_encoding.md R90, R108). -/
def offsetInBlock (offset : BitVec 10) : Bool := decide (offset.toNat < 0x058)

/-- A 32-bit access is at a multiple of 4 (30_encoding.md R109; opcode_table.json rows W32, R32). -/
def offsetWordAligned (offset : BitVec 10) : Bool := decide (offset.toNat % 4 = 0)

/-- The operand ranges of every operation. The halfword writes carry their offset in the constructor and any 16-bit
value is legal, so they have no check. -/
def Instr.wellFormed : Instr → Bool
  | .w16Odd offset _ => offsetInBlock offset && decide (offset.toNat % 2 = 1)
  | .w8 offset _ => offsetInBlock offset
  | .w32 offset _ => offsetInBlock offset && offsetWordAligned offset
  | .r8 offset => offsetInBlock offset
  | .r16 offset => offsetInBlock offset
  | .r32 offset => offsetInBlock offset && offsetWordAligned offset
  | .hblankCommit line => decide (line.toNat < 228)
  | .lycCommit line => decide (line.toNat < 228)
  | .stripWrite column _ => decide (column.toNat < 240)
  | .wDispcnt _ => true
  | .wGreenswap _ => true
  | .wDispstat _ => true
  | .wVcount _ => true
  | .wBg0cnt _ => true
  | .wBg1cnt _ => true
  | .wBg2cnt _ => true
  | .wBg3cnt _ => true
  | .wBg0hofs _ => true
  | .wBg0vofs _ => true
  | .wBg1hofs _ => true
  | .wBg1vofs _ => true
  | .wBg2hofs _ => true
  | .wBg2vofs _ => true
  | .wBg3hofs _ => true
  | .wBg3vofs _ => true
  | .wBg2pa _ => true
  | .wBg2pb _ => true
  | .wBg2pc _ => true
  | .wBg2pd _ => true
  | .wBg2xL _ => true
  | .wBg2xH _ => true
  | .wBg2yL _ => true
  | .wBg2yH _ => true
  | .wBg3pa _ => true
  | .wBg3pb _ => true
  | .wBg3pc _ => true
  | .wBg3pd _ => true
  | .wBg3xL _ => true
  | .wBg3xH _ => true
  | .wBg3yL _ => true
  | .wBg3yH _ => true
  | .wWin0h _ => true
  | .wWin1h _ => true
  | .wWin0v _ => true
  | .wWin1v _ => true
  | .wWinin _ => true
  | .wWinout _ => true
  | .wMosaic _ => true
  | .wUnused04E _ => true
  | .wBldcnt _ => true
  | .wBldalpha _ => true
  | .wBldy _ => true
  | .wUnused056 _ => true
  | .tick => true
  | .hardReset => true

end Sys2Proof
end

