-- ==== Sys2Proof/Decode.lean ====
section
/-! DEFINITION. Decoding of an operation word and its operand word, and the encoder (30_encoding.md section 3).

The operation word is the spec's (R108). The spec gives the operands no bits: the second word, which carries them, is
the model's own (notes/assumptions/1.md): a value in its low bits, a line in bits 7:0, a sprite entry as
opaque 0, palIdx 8:1, prio 10:9, semi 11, objWin 12. Bits of the operand word that the operation does not use are ignored. -/

namespace Sys2Proof

/-- Why a word selects no operation of the block (30_encoding.md R108, R112). -/
inductive Reject where
  /-- OW[27:10] is not zero. -/
  | middleBits
  /-- Width code 11 of a register write or read. -/
  | widthCode
  /-- A register offset of 0x058 or above. -/
  | offsetRange
  /-- A 32-bit access at an offset that is no multiple of 4 (R109; DEDUCED, notes/assumptions/8.md). -/
  | misalignedWord
  /-- A tick or commit whose OW[9:0] is not zero. -/
  | controlBits
  /-- A strip column above 239. -/
  | columnRange
  /-- Kind 11 with any other code than that of the hard reset. -/
  | unusedKind
  deriving DecidableEq, Repr

/-- OW[31:30]. -/
def owKind (w : OpWord) : Nat := (w.extractLsb' 30 2).toNat

/-- OW[29:28]: the width of a register access, or the sub-code of a control operation. -/
def owCode (w : OpWord) : Nat := (w.extractLsb' 28 2).toNat

/-- OW[27:10], zero in every operation. -/
def owMiddle (w : OpWord) : Nat := (w.extractLsb' 10 18).toNat

/-- OW[9:0]: a register offset or a strip column. -/
def owLow (w : OpWord) : BitVec 10 := w.extractLsb' 0 10

/-- The halfword write at an even offset (opcode_table.json rows W_*). -/
def halfWriteAt (offset : Nat) (value : Half) : Option Instr :=
  match offset with
  | 0x000 => some (.wDispcnt value)
  | 0x002 => some (.wGreenswap value)
  | 0x004 => some (.wDispstat value)
  | 0x006 => some (.wVcount value)
  | 0x008 => some (.wBg0cnt value)
  | 0x00A => some (.wBg1cnt value)
  | 0x00C => some (.wBg2cnt value)
  | 0x00E => some (.wBg3cnt value)
  | 0x010 => some (.wBg0hofs value)
  | 0x012 => some (.wBg0vofs value)
  | 0x014 => some (.wBg1hofs value)
  | 0x016 => some (.wBg1vofs value)
  | 0x018 => some (.wBg2hofs value)
  | 0x01A => some (.wBg2vofs value)
  | 0x01C => some (.wBg3hofs value)
  | 0x01E => some (.wBg3vofs value)
  | 0x020 => some (.wBg2pa value)
  | 0x022 => some (.wBg2pb value)
  | 0x024 => some (.wBg2pc value)
  | 0x026 => some (.wBg2pd value)
  | 0x028 => some (.wBg2xL value)
  | 0x02A => some (.wBg2xH value)
  | 0x02C => some (.wBg2yL value)
  | 0x02E => some (.wBg2yH value)
  | 0x030 => some (.wBg3pa value)
  | 0x032 => some (.wBg3pb value)
  | 0x034 => some (.wBg3pc value)
  | 0x036 => some (.wBg3pd value)
  | 0x038 => some (.wBg3xL value)
  | 0x03A => some (.wBg3xH value)
  | 0x03C => some (.wBg3yL value)
  | 0x03E => some (.wBg3yH value)
  | 0x040 => some (.wWin0h value)
  | 0x042 => some (.wWin1h value)
  | 0x044 => some (.wWin0v value)
  | 0x046 => some (.wWin1v value)
  | 0x048 => some (.wWinin value)
  | 0x04A => some (.wWinout value)
  | 0x04C => some (.wMosaic value)
  | 0x04E => some (.wUnused04E value)
  | 0x050 => some (.wBldcnt value)
  | 0x052 => some (.wBldalpha value)
  | 0x054 => some (.wBldy value)
  | 0x056 => some (.wUnused056 value)
  | _ => none

/-- The sprite entry an operand word carries. -/
def entryOfOperand (o : OpWord) : SpriteEntry where
  isOpaque := o.getLsbD 0
  palIdx := o.extractLsb' 1 8
  prio := o.extractLsb' 9 2
  semi := o.getLsbD 11
  objWin := o.getLsbD 12

/-- The operand word that carries a sprite entry. -/
def operandOfEntry (e : SpriteEntry) : OpWord :=
  (BitVec.ofBool e.objWin ++ BitVec.ofBool e.semi ++ e.prio ++ e.palIdx ++ BitVec.ofBool e.isOpaque).setWidth 32

/-- Register writes, kind 00 (30_encoding.md R108, R109). -/
def decodeWrite (code : Nat) (offset : BitVec 10) (o : OpWord) : Except Reject Instr :=
  if offsetInBlock offset then
    match code with
    | 0 => .ok (.w8 offset (o.setWidth 8))
    | 1 =>
      match halfWriteAt offset.toNat (o.setWidth 16) with
      | some i => .ok i
      | none => .ok (.w16Odd offset (o.setWidth 16))
    | 2 => if offsetWordAligned offset then .ok (.w32 offset o) else .error .misalignedWord
    | _ => .error .widthCode
  else .error .offsetRange

/-- Register reads, kind 01 (30_encoding.md R108). -/
def decodeRead (code : Nat) (offset : BitVec 10) : Except Reject Instr :=
  if offsetInBlock offset then
    match code with
    | 0 => .ok (.r8 offset)
    | 1 => .ok (.r16 offset)
    | 2 => if offsetWordAligned offset then .ok (.r32 offset) else .error .misalignedWord
    | _ => .error .widthCode
  else .error .offsetRange

/-- Tick, commits and strip writes, kind 10 (30_encoding.md R108). -/
def decodeControl (code : Nat) (low : BitVec 10) (o : OpWord) : Except Reject Instr :=
  match code with
  | 0 => if low.toNat = 0 then .ok .tick else .error .controlBits
  | 1 => if low.toNat = 0 then .ok (.hblankCommit (o.setWidth 8)) else .error .controlBits
  | 2 => if low.toNat = 0 then .ok (.lycCommit (o.setWidth 8)) else .error .controlBits
  | _ => if low.toNat < 240 then .ok (.stripWrite low (entryOfOperand o)) else .error .columnRange

/-- The operation an operation word and its operand word select, or why they select none (30_encoding.md R108). -/
def decode (w o : OpWord) : Except Reject Instr :=
  if owMiddle w = 0 then
    match owKind w with
    | 0 => decodeWrite (owCode w) (owLow w) o
    | 1 => decodeRead (owCode w) (owLow w)
    | 2 => decodeControl (owCode w) (owLow w) o
    | _ => if owCode w = 0 ∧ (owLow w).toNat = 0 then .ok .hardReset else .error .unusedKind
  else .error .middleBits

/-- An operation word from its fields (30_encoding.md R108). -/
def opWord (kind code : BitVec 2) (low : BitVec 10) : OpWord := kind ++ code ++ (0 : BitVec 18) ++ low

/-- The word of a register write. -/
def regWriteWord (code : BitVec 2) (offset : BitVec 10) : OpWord := opWord 0 code offset

/-- The word of a register read. -/
def regReadWord (code : BitVec 2) (offset : BitVec 10) : OpWord := opWord 1 code offset

/-- The operation word and operand word of an operation. -/
def encode : Instr → OpWord × OpWord
  | .wDispcnt value => (regWriteWord 1 0x000, value.setWidth 32)
  | .wGreenswap value => (regWriteWord 1 0x002, value.setWidth 32)
  | .wDispstat value => (regWriteWord 1 0x004, value.setWidth 32)
  | .wVcount value => (regWriteWord 1 0x006, value.setWidth 32)
  | .wBg0cnt value => (regWriteWord 1 0x008, value.setWidth 32)
  | .wBg1cnt value => (regWriteWord 1 0x00A, value.setWidth 32)
  | .wBg2cnt value => (regWriteWord 1 0x00C, value.setWidth 32)
  | .wBg3cnt value => (regWriteWord 1 0x00E, value.setWidth 32)
  | .wBg0hofs value => (regWriteWord 1 0x010, value.setWidth 32)
  | .wBg0vofs value => (regWriteWord 1 0x012, value.setWidth 32)
  | .wBg1hofs value => (regWriteWord 1 0x014, value.setWidth 32)
  | .wBg1vofs value => (regWriteWord 1 0x016, value.setWidth 32)
  | .wBg2hofs value => (regWriteWord 1 0x018, value.setWidth 32)
  | .wBg2vofs value => (regWriteWord 1 0x01A, value.setWidth 32)
  | .wBg3hofs value => (regWriteWord 1 0x01C, value.setWidth 32)
  | .wBg3vofs value => (regWriteWord 1 0x01E, value.setWidth 32)
  | .wBg2pa value => (regWriteWord 1 0x020, value.setWidth 32)
  | .wBg2pb value => (regWriteWord 1 0x022, value.setWidth 32)
  | .wBg2pc value => (regWriteWord 1 0x024, value.setWidth 32)
  | .wBg2pd value => (regWriteWord 1 0x026, value.setWidth 32)
  | .wBg2xL value => (regWriteWord 1 0x028, value.setWidth 32)
  | .wBg2xH value => (regWriteWord 1 0x02A, value.setWidth 32)
  | .wBg2yL value => (regWriteWord 1 0x02C, value.setWidth 32)
  | .wBg2yH value => (regWriteWord 1 0x02E, value.setWidth 32)
  | .wBg3pa value => (regWriteWord 1 0x030, value.setWidth 32)
  | .wBg3pb value => (regWriteWord 1 0x032, value.setWidth 32)
  | .wBg3pc value => (regWriteWord 1 0x034, value.setWidth 32)
  | .wBg3pd value => (regWriteWord 1 0x036, value.setWidth 32)
  | .wBg3xL value => (regWriteWord 1 0x038, value.setWidth 32)
  | .wBg3xH value => (regWriteWord 1 0x03A, value.setWidth 32)
  | .wBg3yL value => (regWriteWord 1 0x03C, value.setWidth 32)
  | .wBg3yH value => (regWriteWord 1 0x03E, value.setWidth 32)
  | .wWin0h value => (regWriteWord 1 0x040, value.setWidth 32)
  | .wWin1h value => (regWriteWord 1 0x042, value.setWidth 32)
  | .wWin0v value => (regWriteWord 1 0x044, value.setWidth 32)
  | .wWin1v value => (regWriteWord 1 0x046, value.setWidth 32)
  | .wWinin value => (regWriteWord 1 0x048, value.setWidth 32)
  | .wWinout value => (regWriteWord 1 0x04A, value.setWidth 32)
  | .wMosaic value => (regWriteWord 1 0x04C, value.setWidth 32)
  | .wUnused04E value => (regWriteWord 1 0x04E, value.setWidth 32)
  | .wBldcnt value => (regWriteWord 1 0x050, value.setWidth 32)
  | .wBldalpha value => (regWriteWord 1 0x052, value.setWidth 32)
  | .wBldy value => (regWriteWord 1 0x054, value.setWidth 32)
  | .wUnused056 value => (regWriteWord 1 0x056, value.setWidth 32)
  | .w16Odd offset value => (regWriteWord 1 offset, value.setWidth 32)
  | .w8 offset value => (regWriteWord 0 offset, value.setWidth 32)
  | .w32 offset value => (regWriteWord 2 offset, value)
  | .r8 offset => (regReadWord 0 offset, 0)
  | .r16 offset => (regReadWord 1 offset, 0)
  | .r32 offset => (regReadWord 2 offset, 0)
  | .tick => (opWord 2 0 0, 0)
  | .hblankCommit line => (opWord 2 1 0, line.setWidth 32)
  | .lycCommit line => (opWord 2 2 0, line.setWidth 32)
  | .stripWrite column entry => (opWord 2 3 column, operandOfEntry entry)
  | .hardReset => (opWord 3 0 0, 0)

/-- The operation word among the bits of a table word. -/
def tableOpWord (nbits w : Nat) : OpWord := BitVec.ofNat 32 (w % 2 ^ nbits)

/-- The operand word among the bits of a table word: the bits the table does not give are zero. -/
def tableOperand (nbits w : Nat) : OpWord := BitVec.ofNat 32 (w % 2 ^ nbits / 2 ^ 32)

/-- The operation the decoder reads from a table word (bit 0 the least significant bit of the operation word). -/
def decodeTableWord (nbits w : Nat) : Option Instr :=
  match decode (tableOpWord nbits w) (tableOperand nbits w) with
  | .ok i => some i
  | .error _ => none

end Sys2Proof
end

