-- ==== Sys2Proof/Machine/Regs.lean ====
section
/-! DEFINITION. The display register file (10_state.md R23) and the names of its halfwords (30_encoding.md R90), as plain data. -/

namespace Sys2Proof.Machine

/-- The stored registers of 10_state.md R23. -/
structure Regs where
  dispcnt : Half
  /-- The enable and LYC part only: bits 2:0 and 7:6 are zero. -/
  dispstat : Half
  bgcnt : PerBg Half
  bghofs : PerBg (BitVec 9)
  bgvofs : PerBg (BitVec 9)
  bgpa : PerAff Half
  bgpb : PerAff Half
  bgpc : PerAff Half
  bgpd : PerAff Half
  bgx : PerAff S28
  bgy : PerAff S28
  win0h : Half
  win1h : Half
  win0v : Half
  win1v : Half
  winin : Half
  winout : Half
  mosaic : Half
  bldcnt : Half
  bldalpha : Half
  bldy : BitVec 5
  deriving DecidableEq, Repr

/-- Every register 0 (70_reset_and_hazards.md R330). -/
def Regs.reset : Regs where
  dispcnt := 0
  dispstat := 0
  bgcnt := .const 0
  bghofs := .const 0
  bgvofs := .const 0
  bgpa := .const 0
  bgpb := .const 0
  bgpc := .const 0
  bgpd := .const 0
  bgx := .const 0
  bgy := .const 0
  win0h := 0
  win1h := 0
  win0v := 0
  win1v := 0
  winin := 0
  winout := 0
  mosaic := 0
  bldcnt := 0
  bldalpha := 0
  bldy := 0

/-- Every halfword of the block (30_encoding.md R90). -/
inductive HalfReg where
  | dispcnt
  | greenswap
  | dispstat
  | vcount
  | bgcnt (i : BgId)
  | bghofs (i : BgId)
  | bgvofs (i : BgId)
  | bgpa (b : AffId)
  | bgpb (b : AffId)
  | bgpc (b : AffId)
  | bgpd (b : AffId)
  | bgxL (b : AffId)
  | bgxH (b : AffId)
  | bgyL (b : AffId)
  | bgyH (b : AffId)
  | win0h
  | win1h
  | win0v
  | win1v
  | winin
  | winout
  | mosaic
  | unused04E
  | bldcnt
  | bldalpha
  | bldy
  | unused056
  deriving DecidableEq, Repr

end Sys2Proof.Machine
end

