-- ==== Sys2Proof/Config.lean ====
section
/-! DEFINITION. What the source leaves open (00_scope.md R8) and the draws (00_scope.md R17).

The operations take the parameters as one argument `Params`. The machine runs at `Config.params`, made of constants
without a body, so that nothing can be proved of them beyond the constraints the spec states (notes/assumptions/6.md, 7.md). -/

namespace Sys2Proof

/-- How the alpha blend rounds (92_eei_decisions.md D5). -/
inductive BlendRounding where
  | perTermFloor
  | sumThenFloor
  deriving DecidableEq, Repr, Inhabited

/-- When a BGX or BGY write reaches the internal reference (92_eei_decisions.md D14). -/
inductive AffineWritePolicy where
  | nextLineReload
  | immediateReload
  deriving DecidableEq, Repr, Inhabited

/-- A host pixel (92_eei_decisions.md D30; the source fixes no format, notes/assumptions/16.md). -/
structure Rgb where
  red : Nat
  green : Nat
  blue : Nat
  deriving DecidableEq, Repr, Inhabited

/-- Which register access consumes an OPEN_BUS draw: a 32-bit read may need two. -/
inductive BusSlot where
  | low
  | high
  deriving DecidableEq, Repr

/-- Which VRAM read of a background sample consumes a BG_OBJVRAM_READ draw. -/
inductive SampleSlot where
  | mapRead
  | charRead
  deriving DecidableEq, Repr

/-- The open parameters of 00_scope.md R8 and the draws of 00_scope.md R17. The first argument of a draw is the serial
number of the operation that draws. -/
structure Params where
  /-- RENDER_CYCLE (D4). -/
  renderCycle : Nat → Nat
  /-- BG_ENABLE_DELAY_LINES (D13). -/
  bgEnableDelayLines : Nat
  /-- HBLANK_FLAG_DELAY (D21). -/
  hblankFlagDelay : Nat
  /-- LYC_DELAY (D22). -/
  lycDelay : Nat
  /-- VIDEO_CAPTURE_LINES (D24). -/
  videoCaptureLine : Nat → Bool
  /-- RENDERER_BUSY of (line, cycle, regs) (D29). -/
  rendererBusy : Nat → Nat → Machine.Regs → Bool
  /-- BLEND_ROUNDING (D5). -/
  blendRounding : BlendRounding
  /-- SEMI_REQUIRES_SECOND_TARGET (D9). -/
  semiRequiresSecondTarget : Bool
  /-- SEMI_IGNORES_WINDOW_EFFECT (D9). -/
  semiIgnoresWindowEffect : Bool
  /-- AFFINE_WRITE_POLICY (D14). -/
  affineWritePolicy : AffineWritePolicy
  /-- COLOR_EXPAND (D30). -/
  colorExpand : Color15 → Rgb
  /-- IO_BASE (D1). -/
  ioBase : Nat
  /-- OPEN_BUS, one halfword draw (D27). -/
  openBus : Nat → BusSlot → Half
  /-- BG_OBJVRAM_READ of a layer (D33). -/
  bgObjVramRead : Nat → BgId → SampleSlot → Half
  /-- A pixel in the reserved modes 6 and 7 (D12). -/
  reservedModePixel : Nat → Color15
  /-- A pixel composited while the refusal mark is set (10_state.md R34, notes/assumptions/19.md). -/
  refusedPixel : Nat → Color15
  /-- Whether two commits due in one cycle are delivered latest scheduled first (D42). -/
  commitsReversed : Nat → Bool

/-- The constraints the spec puts on the parameters: D4 (RENDER_CYCLE strictly increasing with values in [4, 1006]),
D21 (1 ≤ HBLANK_FLAG_DELAY ≤ 224), D22 (1 ≤ LYC_DELAY ≤ 1232). -/
structure Params.Admissible (P : Params) : Prop where
  render_lower : ∀ x, x < 240 → 4 ≤ P.renderCycle x
  render_upper : ∀ x, x < 240 → P.renderCycle x ≤ 1006
  render_increasing : ∀ x y, x < y → y < 240 → P.renderCycle x < P.renderCycle y
  hblank_lower : 1 ≤ P.hblankFlagDelay
  hblank_upper : P.hblankFlagDelay ≤ 224
  lyc_lower : 1 ≤ P.lycDelay
  lyc_upper : P.lycDelay ≤ 1232

namespace Config

/-! Fixed parameters (00_scope.md R7). -/

/-- LINES. -/
abbrev lines : Nat := 228
/-- VISIBLE_LINES. -/
abbrev visibleLines : Nat := 160
/-- CYCLES_PER_LINE. -/
abbrev cyclesPerLine : Nat := 1232
/-- WIDTH. -/
abbrev width : Nat := 240
/-- HEIGHT. -/
abbrev height : Nat := 160
/-- BG_COUNT: the number of background layers, which `BgId` names. -/
abbrev bgCount : Nat := 4
/-- SPRITE_SLOTS: the number of attribute records in OAM (20_memory.md R60), read by the sprite evaluator alone. -/
abbrev spriteSlots : Nat := 128
/-- DMA_CHANNELS: the channels of the DMA block that receives this block's triggers (60_exceptions.md R300). -/
abbrev dmaChannels : Nat := 4
/-- RENDER_FIRST. -/
abbrev renderFirst : Nat := 4
/-- RENDER_LAST. -/
abbrev renderLast : Nat := 1006
/-- HBLANK_CYCLE. -/
abbrev hblankCycle : Nat := 1007
/-- VBLANK_SET_LINE. -/
abbrev vblankSetLine : Nat := 160
/-- VBLANK_CLEAR_LINE. -/
abbrev vblankClearLine : Nat := 227
/-- COEF_MAX. -/
abbrev coefMax : Nat := 16
/-- CHANNEL_MAX. -/
abbrev channelMax : Nat := 31

/-! Open parameters: constants without a body. -/

/-- The extra cycles before a column is composited, beyond the one every column takes. -/
opaque renderGap : Nat → Nat
/-- BG_ENABLE_DELAY_LINES (D13). -/
opaque bgEnableDelayLines : Nat
/-- The open part of HBLANK_FLAG_DELAY (D21). -/
opaque hblankDelaySeed : Nat
/-- The open part of LYC_DELAY (D22). -/
opaque lycDelaySeed : Nat
/-- VIDEO_CAPTURE_LINES (D24). -/
opaque videoCaptureLine : Nat → Bool
/-- RENDERER_BUSY (D29). -/
opaque rendererBusy : Nat → Nat → Machine.Regs → Bool
/-- BLEND_ROUNDING (D5). -/
opaque blendRounding : BlendRounding
/-- SEMI_REQUIRES_SECOND_TARGET (D9). -/
opaque semiRequiresSecondTarget : Bool
/-- SEMI_IGNORES_WINDOW_EFFECT (D9). -/
opaque semiIgnoresWindowEffect : Bool
/-- AFFINE_WRITE_POLICY (D14). -/
opaque affineWritePolicy : AffineWritePolicy
/-- COLOR_EXPAND (D30). -/
opaque colorExpand : Color15 → Rgb
/-- IO_BASE (D1). -/
opaque ioBase : Nat
/-- OPEN_BUS (D27). -/
opaque openBus : Nat → BusSlot → Half
/-- BG_OBJVRAM_READ (D33). -/
opaque bgObjVramRead : Nat → BgId → SampleSlot → Half
/-- A pixel in modes 6 and 7 (D12). -/
opaque reservedModePixel : Nat → Color15
/-- A pixel composited while the refusal mark is set (10_state.md R34). -/
opaque refusedPixel : Nat → Color15
/-- The delivery order of two commits due in one cycle (D42). -/
opaque commitsReversed : Nat → Bool

/-- The sum of the gaps before column `x`, its own included. -/
def renderSlack : Nat → Nat
  | 0 => renderGap 0
  | x + 1 => renderSlack x + renderGap (x + 1)

/-- RENDER_CYCLE. Every strictly increasing function from the columns into [4, 1006] is of this form, since 763 is the
number of cycles of [4, 1006] that 240 columns leave over. -/
def renderCycle (x : Nat) : Nat := min 763 (renderSlack x) + x + 4

/-- HBLANK_FLAG_DELAY, 1..224: every value of the range is of this form. -/
def hblankFlagDelay : Nat := hblankDelaySeed % 224 + 1

/-- LYC_DELAY, 1..1232: every value of the range is of this form. -/
def lycDelay : Nat := lycDelaySeed % 1232 + 1

/-- The parameters the machine runs at. -/
def params : Params where
  renderCycle := renderCycle
  bgEnableDelayLines := bgEnableDelayLines
  hblankFlagDelay := hblankFlagDelay
  lycDelay := lycDelay
  videoCaptureLine := videoCaptureLine
  rendererBusy := rendererBusy
  blendRounding := blendRounding
  semiRequiresSecondTarget := semiRequiresSecondTarget
  semiIgnoresWindowEffect := semiIgnoresWindowEffect
  affineWritePolicy := affineWritePolicy
  colorExpand := colorExpand
  ioBase := ioBase
  openBus := openBus
  bgObjVramRead := bgObjVramRead
  reservedModePixel := reservedModePixel
  refusedPixel := refusedPixel
  commitsReversed := commitsReversed

end Config

end Sys2Proof
end

