-- ==== Sys2Proof/Machine/State.lean ====
section
/-! DEFINITION. The state of the machine, its stops and its state after reset, as plain data.

`Ppu` is the block's own state, 10_state.md R21-R34. `State` adds the agents whose contract the spec states (memory,
delay pipeline, host) and the model's own fields (notes/assumptions/2.md, 4.md, 5.md, 6.md). -/

namespace Sys2Proof.Machine

/-- Why the machine stops. The block itself never faults (60_exceptions.md R306). -/
inductive Fault where
  /-- The memory system's input names an address outside its region (20_memory.md R60). Raised by the inputs
  `writeHalf` and `writeWord`, never by an operation of the block. Safe: the machine stops. -/
  | memoryOutsideRegion
  deriving DecidableEq, Repr

/-- What the model gives no meaning. -/
inductive Refusal where
  /-- An instruction without a meaning in exec, by its mnemonic. Safe: the machine stops. -/
  | notModelled (mnemonic : String)
  /-- The memory system's input is a misaligned write, which 91_not_in_source.md N12 leaves unspecified. Raised by the
  inputs `writeHalf` and `writeWord`, never by an operation of the block. Safe: the machine stops. -/
  | misalignedMemoryWrite
  deriving DecidableEq, Repr

/-- The sources of interrupt requests (60_exceptions.md R300). -/
inductive IrqSource where
  | vblank
  | hblank
  | vcount
  deriving DecidableEq, Repr

/-- The phases of DMA triggers (60_exceptions.md R300). -/
inductive DmaPhase where
  | hblank
  | vblank
  | videoCapture
  deriving DecidableEq, Repr

/-- The events the block emits (60_exceptions.md R300). -/
inductive PpuEvent where
  | irqRequest (source : IrqSource)
  | dmaTrigger (phase : DmaPhase)
  | scheduleHBlankCommit (line : Nat)
  | scheduleLycCompare (line : Nat)
  | spriteEvalReset (line : Nat)
  deriving DecidableEq, Repr

/-- The affine line latch LL[b] (10_state.md R29): x0, y0 are s28 and pa, pc s16 in two's complement. -/
structure LineLatch where
  x0 : S28
  y0 : S28
  pa : Half
  pc : Half
  mh : Nat
  deriving DecidableEq, Repr

/-- The latch after reset (70_reset_and_hazards.md R330). -/
def LineLatch.reset : LineLatch := ⟨0, 0, 0, 0, 1⟩

/-- A sprite strip: the entries that are not EMPTY, by rising column (10_state.md R30). -/
abbrev Strip := List (Nat × SpriteEntry)

/-- The framebuffer: the entries that are not 0x0000, by rising index 240·y + x (10_state.md R32). -/
abbrev Framebuffer := List (Nat × Color15)

/-- The block's own state (10_state.md R21-R34). -/
structure Ppu where
  /-- R21. -/
  line : Nat
  /-- R21. -/
  cycle : Nat
  /-- R23. -/
  regs : Regs
  /-- R24. -/
  vblankFlag : Bool
  /-- R24. -/
  hblankFlag : Bool
  /-- R24. -/
  vcountFlag : Bool
  /-- R25. -/
  bgActive : PerBg Bool
  /-- R25. -/
  bgCountdown : PerBg Nat
  /-- R26. -/
  ix : PerAff S28
  /-- R26. -/
  iy : PerAff S28
  /-- R27. -/
  pendX : PerAff Bool
  /-- R27. -/
  pendY : PerAff Bool
  /-- R28. -/
  mix : PerAff S28
  /-- R28. -/
  miy : PerAff S28
  /-- R29. -/
  latch : PerAff LineLatch
  /-- SB[0] of R30. -/
  strip0 : Strip
  /-- SB[1] of R30. -/
  strip1 : Strip
  /-- R30: false is 0, true is 1. -/
  drawSel : Bool
  /-- R32. -/
  fb : Framebuffer
  /-- R33. -/
  q : List PpuEvent
  /-- R34. -/
  refused : Bool
  deriving DecidableEq, Repr

/-- The block after a hard reset (70_reset_and_hazards.md R330). -/
def Ppu.reset : Ppu where
  line := 0
  cycle := 0
  regs := Regs.reset
  vblankFlag := false
  hblankFlag := false
  vcountFlag := false
  bgActive := .const false
  bgCountdown := .const 0
  ix := .const 0
  iy := .const 0
  pendX := .const false
  pendY := .const false
  mix := .const 0
  miy := .const 0
  latch := .const LineLatch.reset
  strip0 := []
  strip1 := []
  drawSel := false
  fb := []
  q := []
  refused := false

/-- The regions of 20_memory.md R60. -/
inductive Space where
  | vram
  | pal
  | oam
  deriving DecidableEq, Repr

/-- The three regions: the bytes that differ from what an unlisted address reads as, by rising offset. -/
structure Memory where
  vram : List Host.Cell
  pal : List Host.Cell
  oam : List Host.Cell
  deriving DecidableEq, Repr

/-- The two commits of the delay pipeline (60_exceptions.md R302). -/
inductive CommitKind where
  | hblank
  | lyc
  deriving DecidableEq, Repr

/-- A commit as the delay pipeline delivers it: its kind and its line (40_scanline_events.md R150, R151). -/
structure Commit where
  kind : CommitKind
  line : Nat
  deriving DecidableEq, Repr

/-- A scheduled commit: its kind, its line and the cycles until it is delivered (60_exceptions.md R302). -/
structure PendingCommit where
  kind : CommitKind
  line : Nat
  left : Nat
  deriving DecidableEq, Repr

/-- One half of a split 32-bit memory write that has not landed (20_memory.md R77). -/
structure HalfWrite where
  space : Space
  offset : Nat
  value : Half
  deriving DecidableEq, Repr

/-- What an agent outside the block does next (30_encoding.md R111, 60_exceptions.md R313). -/
inductive Input where
  /-- An operation of the block: operation word and operand word. -/
  | op (word operand : OpWord)
  /-- One cycle of the scheduler: commits due, the block's tick. -/
  | cycle
  /-- The memory system writes a halfword (`mem` of R111). -/
  | writeHalf (space : Space) (offset : Nat) (value : Half)
  /-- A 32-bit memory write, split into two halves (20_memory.md R77). -/
  | writeWord (space : Space) (offset : Nat) (value : OpWord)
  /-- The host asks for a hard reset (70_reset_and_hazards.md R331); the request stands until a tick at the frame boundary
  begins with it. -/
  | requestReset
  deriving DecidableEq, Repr

/-- The whole machine. -/
structure State where
  /-- The block, 10_state.md R21-R34. -/
  ppu : Ppu
  /-- VRAM, palette RAM and OAM, 20_memory.md R60. -/
  mem : Memory
  /-- The delay pipeline's scheduled commits, 60_exceptions.md R302. -/
  pending : List PendingCommit
  /-- Commits the delay pipeline has handed over by an operation, in that order; they are delivered at the start of the next
  tick, 30_encoding.md R111 (notes/assumptions/4.md). -/
  handed : List Commit
  /-- The delay pipeline's split memory writes, 20_memory.md R77. -/
  splitWrites : List HalfWrite
  /-- A host reset request not yet applied, 70_reset_and_hazards.md R331. -/
  resetRequested : Bool
  /-- The model's own: what the agents do next (notes/assumptions/2.md). -/
  inbox : List Input
  /-- The model's own: what the last register read returned (notes/assumptions/5.md). -/
  lastRead : Option OpWord
  /-- The model's own: how many operations have drawn (notes/assumptions/6.md). -/
  draws : Nat
  deriving DecidableEq, Repr

/-- The machine right after reset: the block as 70_reset_and_hazards.md R330 says, memory with nothing listed
(notes/assumptions/3.md), no agent with anything to do. -/
def State.reset : State where
  ppu := Ppu.reset
  mem := ⟨[], [], []⟩
  pending := []
  handed := []
  splitWrites := []
  resetRequested := false
  inbox := []
  lastRead := none
  draws := 0

end Sys2Proof.Machine
end

