-- ==== Sys2Proof/Machine/Ops.lean ====
section
/-! DEFINITION. The named operations over memory, the framebuffer, the strips and the event queue.

The block takes no exception and returns from none (60_exceptions.md R306, R307): there is no saved register, no vector and
no mode to write. What stands in that place is `Ppu.emit`, by which it hands a request to the delay pipeline. -/

namespace Sys2Proof.Machine

/-! ## Bit fields (00_scope.md R9) -/

/-- v[hi:lo], as a natural number. -/
def field {n : Nat} (v : BitVec n) (hi lo : Nat) : Nat := (v.extractLsb hi lo).toNat

/-- v[i]. -/
def bit {n : Nat} (v : BitVec n) (i : Nat) : Bool := v.getLsbD i

/-- wrap_28 of an integer (00_scope.md R10). -/
def wrap28 (i : Int) : S28 := BitVec.ofInt 28 i

/-! ## Sparse tables: keys strictly rising, no entry equal to the default -/

/-- What the table holds at `a`; `d` where nothing is listed. -/
def Sparse.read {α : Type} (d : α) : List (Nat × α) → Nat → α
  | [], _ => d
  | (k, v) :: t, a => if k = a then v else Sparse.read d t a

/-- Write `v` at `a`, keeping the keys rising; writing the default removes the entry. -/
def Sparse.write {α : Type} [DecidableEq α] (d : α) : List (Nat × α) → Nat → α → List (Nat × α)
  | [], a, v => if v = d then [] else [(a, v)]
  | (k, w) :: t, a, v =>
    if a < k then (if v = d then (k, w) :: t else (a, v) :: (k, w) :: t)
    else if a = k then (if v = d then t else (a, v) :: t)
    else (k, w) :: Sparse.write d t a v

/-- The canonical form: keys at least `lo`, strictly rising and below `bound`, no entry equal to `d`. -/
def Sparse.wf {α : Type} [DecidableEq α] (d : α) (bound : Nat) : Nat → List (Nat × α) → Bool
  | _, [] => true
  | lo, (k, v) :: t => decide (lo ≤ k) && decide (k < bound) && decide (v ≠ d) && Sparse.wf d bound (k + 1) t

/-! ## Memory (20_memory.md R60, R61) -/

/-- The size of a region (20_memory.md R60). -/
def Space.size : Space → Nat
  | .vram => 0x18000
  | .pal => 0x400
  | .oam => 0x400

/-- The bus address of a region's first byte (20_memory.md R60). -/
def Space.busBase : Space → Nat
  | .vram => 0x06000000
  | .pal => 0x05000000
  | .oam => 0x07000000

/-- The bus address of byte `offset` of a region (20_memory.md R60). -/
def Space.busAddress (s : Space) (offset : Nat) : Nat := s.busBase + offset

/-- What a byte that nothing has written reads as (DESIGN CHOICE, notes/assumptions/3.md). -/
def Memory.unlisted : Byte := 0

/-- The listed bytes of a region. -/
def Memory.cells (m : Memory) : Space → List Host.Cell
  | .vram => m.vram
  | .pal => m.pal
  | .oam => m.oam

/-- Replace the listed bytes of a region. -/
def Memory.setCells (m : Memory) (s : Space) (c : List Host.Cell) : Memory :=
  match s with
  | .vram => { m with vram := c }
  | .pal => { m with pal := c }
  | .oam => { m with oam := c }

/-- MemRead(space, a, 1). -/
def Memory.readByte (m : Memory) (s : Space) (a : Nat) : Byte := Sparse.read Memory.unlisted (m.cells s) a

/-- MemRead(space, a, 2), little-endian (20_memory.md R61). -/
def Memory.readHalf (m : Memory) (s : Space) (a : Nat) : Half := m.readByte s (a + 1) ++ m.readByte s a

/-- Store one byte. -/
def Memory.writeByte (m : Memory) (s : Space) (a : Nat) (v : Byte) : Memory :=
  m.setCells s (Sparse.write Memory.unlisted (m.cells s) a v)

/-- Store a halfword, little-endian (20_memory.md R61). -/
def Memory.writeHalf (m : Memory) (s : Space) (a : Nat) (v : Half) : Memory :=
  (m.writeByte s a (v.extractLsb' 0 8)).writeByte s (a + 1) (v.extractLsb' 8 8)

/-- The canonical form of all three regions. -/
def Memory.wf (m : Memory) : Bool :=
  Sparse.wf Memory.unlisted (Space.size .vram) 0 m.vram &&
  Sparse.wf Memory.unlisted (Space.size .pal) 0 m.pal &&
  Sparse.wf Memory.unlisted (Space.size .oam) 0 m.oam

/-! ## Colours (00_scope.md R13) -/

/-- The red channel. -/
def red (c : Color15) : Nat := field c 4 0

/-- The green channel. -/
def green (c : Color15) : Nat := field c 9 5

/-- The blue channel. -/
def blue (c : Color15) : Nat := field c 14 10

/-- rgb(r, g, b). -/
def rgb (r g b : Nat) : Color15 := BitVec.ofNat 5 b ++ BitVec.ofNat 5 g ++ BitVec.ofNat 5 r

/-- BgColor(k), palette entries 0..255 (20_memory.md R65). -/
def Memory.bgColor (m : Memory) (k : Nat) : Color15 := (m.readHalf .pal (2 * k)).setWidth 15

/-- ObjColor(k), palette entries 256..511 (20_memory.md R66). -/
def Memory.objColor (m : Memory) (k : Nat) : Color15 := (m.readHalf .pal (0x200 + 2 * k)).setWidth 15

/-! ## The framebuffer (10_state.md R32) -/

/-- The index of entry (x, y). -/
def fbIndex (x y : Nat) : Nat := 240 * y + x

/-- FB[y][x]. -/
def Ppu.fbAt (p : Ppu) (x y : Nat) : Color15 := Sparse.read 0 p.fb (fbIndex x y)

/-- FB[y][x] ← c. -/
def Ppu.setFb (p : Ppu) (x y : Nat) (c : Color15) : Ppu := { p with fb := Sparse.write 0 p.fb (fbIndex x y) c }

/-! ## The sprite strips (10_state.md R30) -/

/-- The entry of a strip at column x. -/
def stripAt (t : Strip) (x : Nat) : SpriteEntry := Sparse.read SpriteEntry.empty t x

/-- SB[drawSel], the draw buffer. -/
def Ppu.drawStrip (p : Ppu) : Strip := if p.drawSel then p.strip1 else p.strip0

/-- SB[1 - drawSel], the evaluation buffer. -/
def Ppu.evalStrip (p : Ppu) : Strip := if p.drawSel then p.strip0 else p.strip1

/-- Replace the evaluation buffer. -/
def Ppu.setEvalStrip (p : Ppu) (t : Strip) : Ppu :=
  { p with strip0 := if p.drawSel then t else p.strip0, strip1 := if p.drawSel then p.strip1 else t }

/-! ## The event queue (10_state.md R33, 60_exceptions.md R300) -/

/-- emit E: append an event to this cycle's queue. -/
def Ppu.emit (p : Ppu) (e : PpuEvent) : Ppu := { p with q := p.q ++ [e] }

/-- emit E under a condition. -/
def Ppu.emitIf (p : Ppu) (c : Bool) (e : PpuEvent) : Ppu := { p with q := p.q ++ if c then [e] else [] }

/-- The queue is emptied at the start of a cycle, before any commit of that cycle (10_state.md R33). -/
def Ppu.beginCycle (p : Ppu) : Ppu := { p with q := [] }

/-! ## The whole state -/

/-- Apply an operation of the block, leaving the agents and the model's own fields as they are. -/
def State.onPpu (s : State) (f : Ppu → Ppu) : State := { s with ppu := f s.ppu }

/-- Answer a register read (30_encoding.md R108): the value is kept, and the draw it may have used is consumed
(notes/assumptions/5.md, 6.md). -/
def State.answerRead (s : State) (v : OpWord) : State := { s with lastRead := some v, draws := s.draws + 1 }

end Sys2Proof.Machine
end

