-- ==== Sys2Proof/Machine/Operands.lean ====
section
/-! DEFINITION. The register map (30_encoding.md R90), the register fields (30_encoding.md R91-R106) and the assembly of
8-bit, odd and 32-bit register accesses (30_encoding.md R109). -/

namespace Sys2Proof.Machine

/-! ## The register map -/

/-- The halfword of the block at an even offset (30_encoding.md R90). -/
def HalfReg.ofOffset (o : Nat) : Option HalfReg :=
  match o with
  | 0x000 => some .dispcnt
  | 0x002 => some .greenswap
  | 0x004 => some .dispstat
  | 0x006 => some .vcount
  | 0x008 => some (.bgcnt .bg0)
  | 0x00A => some (.bgcnt .bg1)
  | 0x00C => some (.bgcnt .bg2)
  | 0x00E => some (.bgcnt .bg3)
  | 0x010 => some (.bghofs .bg0)
  | 0x012 => some (.bgvofs .bg0)
  | 0x014 => some (.bghofs .bg1)
  | 0x016 => some (.bgvofs .bg1)
  | 0x018 => some (.bghofs .bg2)
  | 0x01A => some (.bgvofs .bg2)
  | 0x01C => some (.bghofs .bg3)
  | 0x01E => some (.bgvofs .bg3)
  | 0x020 => some (.bgpa .bg2)
  | 0x022 => some (.bgpb .bg2)
  | 0x024 => some (.bgpc .bg2)
  | 0x026 => some (.bgpd .bg2)
  | 0x028 => some (.bgxL .bg2)
  | 0x02A => some (.bgxH .bg2)
  | 0x02C => some (.bgyL .bg2)
  | 0x02E => some (.bgyH .bg2)
  | 0x030 => some (.bgpa .bg3)
  | 0x032 => some (.bgpb .bg3)
  | 0x034 => some (.bgpc .bg3)
  | 0x036 => some (.bgpd .bg3)
  | 0x038 => some (.bgxL .bg3)
  | 0x03A => some (.bgxH .bg3)
  | 0x03C => some (.bgyL .bg3)
  | 0x03E => some (.bgyH .bg3)
  | 0x040 => some .win0h
  | 0x042 => some .win1h
  | 0x044 => some .win0v
  | 0x046 => some .win1v
  | 0x048 => some .winin
  | 0x04A => some .winout
  | 0x04C => some .mosaic
  | 0x04E => some .unused04E
  | 0x050 => some .bldcnt
  | 0x052 => some .bldalpha
  | 0x054 => some .bldy
  | 0x056 => some .unused056
  | _ => none

/-- The bus address of register offset `o` (20_memory.md R79). -/
def busAddress (P : Params) (o : Nat) : Nat := P.ioBase + o

/-! ## DISPCNT (30_encoding.md R91) -/

/-- DISPCNT.MODE. -/
def Regs.mode (r : Regs) : Nat := field r.dispcnt 2 0
/-- DISPCNT.FRAME. -/
def Regs.frame (r : Regs) : Bool := bit r.dispcnt 4
/-- DISPCNT.FBLANK. -/
def Regs.forcedBlank (r : Regs) : Bool := bit r.dispcnt 7
/-- DISPCNT.BGi_EN of a DISPCNT value. -/
def bgEnableBit (dispcnt : Half) (i : BgId) : Bool := bit dispcnt (8 + i.toNat)
/-- DISPCNT.OBJ_EN. -/
def Regs.objEnable (r : Regs) : Bool := bit r.dispcnt 12
/-- DISPCNT.WIN0_EN. -/
def Regs.win0Enable (r : Regs) : Bool := bit r.dispcnt 13
/-- DISPCNT.WIN1_EN. -/
def Regs.win1Enable (r : Regs) : Bool := bit r.dispcnt 14
/-- DISPCNT.OBJWIN_EN. -/
def Regs.objWinEnable (r : Regs) : Bool := bit r.dispcnt 15

/-! ## DISPSTAT (30_encoding.md R93) -/

/-- DISPSTAT.VBLANK_IRQ. -/
def Regs.vblankIrq (r : Regs) : Bool := bit r.dispstat 3
/-- DISPSTAT.HBLANK_IRQ. -/
def Regs.hblankIrq (r : Regs) : Bool := bit r.dispstat 4
/-- DISPSTAT.VCOUNT_IRQ. -/
def Regs.vcountIrq (r : Regs) : Bool := bit r.dispstat 5
/-- DISPSTAT.LYC. -/
def Regs.lyc (r : Regs) : Nat := field r.dispstat 15 8

/-! ## BGCNT (30_encoding.md R95, R96; 42_background_sampling.md R200) -/

/-- BGCNT[i].PRIO. -/
def Regs.bgPrio (r : Regs) (i : BgId) : Nat := field (r.bgcnt.get i) 1 0
/-- charBase(i) (20_memory.md R68). -/
def Regs.charBase (r : Regs) (i : BgId) : Nat := 0x4000 * field (r.bgcnt.get i) 3 2
/-- BGCNT[i].MOSAIC. -/
def Regs.bgMosaic (r : Regs) (i : BgId) : Bool := bit (r.bgcnt.get i) 6
/-- BGCNT[i].PAL8. -/
def Regs.pal8 (r : Regs) (i : BgId) : Bool := bit (r.bgcnt.get i) 7
/-- mapBase(i) (20_memory.md R68). -/
def Regs.mapBase (r : Regs) (i : BgId) : Nat := 0x800 * field (r.bgcnt.get i) 12 8
/-- BGCNT[i].WRAP. -/
def Regs.wrap (r : Regs) (i : BgId) : Bool := bit (r.bgcnt.get i) 13
/-- textW(i). -/
def Regs.textW (r : Regs) (i : BgId) : Nat := if bit (r.bgcnt.get i) 14 then 512 else 256
/-- textH(i). -/
def Regs.textH (r : Regs) (i : BgId) : Nat := if bit (r.bgcnt.get i) 15 then 512 else 256
/-- affS(i). -/
def Regs.affS (r : Regs) (i : BgId) : Nat := 128 * 2 ^ field (r.bgcnt.get i) 15 14

/-! ## MOSAIC (30_encoding.md R103) -/

/-- The BG horizontal cell size, 1..16. -/
def Regs.mosaicH (r : Regs) : Nat := field r.mosaic 3 0 + 1
/-- The BG vertical cell size, 1..16. -/
def Regs.mosaicV (r : Regs) : Nat := field r.mosaic 7 4 + 1

/-! ## Blending (30_encoding.md R104-R106; 44_compositing_blending.md R270) -/

/-- T1, the first-target set. -/
def Regs.target1 (r : Regs) (k : Nat) : Bool := bit (r.bldcnt.extractLsb 5 0) k
/-- T2, the second-target set. -/
def Regs.target2 (r : Regs) (k : Nat) : Bool := bit (r.bldcnt.extractLsb 13 8) k
/-- BLDCNT.EFFECT. -/
def Regs.effect (r : Regs) : Nat := field r.bldcnt 7 6
/-- EVA: stored values above 16 are used as 16. -/
def Regs.eva (r : Regs) : Nat := min (field r.bldalpha 4 0) Config.coefMax
/-- EVB: stored values above 16 are used as 16. -/
def Regs.evb (r : Regs) : Nat := min (field r.bldalpha 12 8) Config.coefMax
/-- EVY: stored values above 16 are used as 16. -/
def Regs.evy (r : Regs) : Nat := min (field r.bldy 4 0) Config.coefMax

/-! ## Operand assembly (30_encoding.md R109) -/

/-- The stored halfword a byte write merges with, write-only registers included (R109). Bits that are not stored are 0, and
a halfword that stores nothing is 0 (DEDUCED from 10_state.md R23, notes/assumptions/10.md). -/
def Regs.stored (r : Regs) : HalfReg → Half
  | .dispcnt => r.dispcnt
  | .greenswap => 0
  | .dispstat => r.dispstat
  | .vcount => 0
  | .bgcnt i => r.bgcnt.get i
  | .bghofs i => (r.bghofs.get i).setWidth 16
  | .bgvofs i => (r.bgvofs.get i).setWidth 16
  | .bgpa b => r.bgpa.get b
  | .bgpb b => r.bgpb.get b
  | .bgpc b => r.bgpc.get b
  | .bgpd b => r.bgpd.get b
  | .bgxL b => (r.bgx.get b).extractLsb' 0 16
  | .bgxH b => ((r.bgx.get b).extractLsb' 16 12).setWidth 16
  | .bgyL b => (r.bgy.get b).extractLsb' 0 16
  | .bgyH b => ((r.bgy.get b).extractLsb' 16 12).setWidth 16
  | .win0h => r.win0h
  | .win1h => r.win1h
  | .win0v => r.win0v
  | .win1v => r.win1v
  | .winin => r.winin
  | .winout => r.winout
  | .mosaic => r.mosaic
  | .unused04E => 0
  | .bldcnt => r.bldcnt
  | .bldalpha => r.bldalpha
  | .bldy => r.bldy.setWidth 16
  | .unused056 => 0

/-- A halfword with byte `o mod 2` replaced (R109). -/
def mergeByte (old : Half) (o : Nat) (v : Byte) : Half :=
  if o % 2 = 0 then old.extractLsb' 8 8 ++ v else v ++ old.extractLsb' 0 8

/-- The addressed byte of a halfword (41_register_access.md R185). -/
def selectByte (h : Half) (o : Nat) : Byte := if o % 2 = 0 then h.extractLsb' 0 8 else h.extractLsb' 8 8

/-- The even offset an access at `o` is performed at (R109). -/
def evenOffset (o : Nat) : Nat := o - o % 2

end Sys2Proof.Machine
end

