-- ==== Sys2Proof/Machine/Flags.lean ====
section
/-! DEFINITION. The three status flags (10_state.md R24): what sets and clears them and how they are read. -/

namespace Sys2Proof.Machine

/-- The events of VBlankEdges(ℓ) (40_scanline_events.md R146). -/
def vblankEvents (irqEnabled : Bool) (newLine : Nat) : List PpuEvent :=
  if newLine = Config.vblankSetLine then
    (if irqEnabled then [.irqRequest .vblank] else []) ++ [.dmaTrigger .vblank]
  else []

/-- The VBlank flag after VBlankEdges(ℓ) (40_scanline_events.md R146). -/
def vblankAfter (newLine : Nat) (old : Bool) : Bool :=
  if newLine = Config.vblankSetLine then true else if newLine = Config.vblankClearLine then false else old

/-- VBlankEdges(ℓ) (40_scanline_events.md R146). -/
def Ppu.vblankEdges (p : Ppu) (newLine : Nat) : Ppu :=
  { p with vblankFlag := vblankAfter newLine p.vblankFlag, q := p.q ++ vblankEvents p.regs.vblankIrq newLine }

/-- HBLANK_COMMIT(ℓ) inside its cycle (40_scanline_events.md R150). -/
def Ppu.hblankCommit (p : Ppu) (line : Nat) : Ppu :=
  if line = p.line then ({ p with hblankFlag := true }).emitIf p.regs.hblankIrq (.irqRequest .hblank) else p

/-- Whether the LYC compare of line ℓ matches (40_scanline_events.md R151): LYC values of 228 and above never match
(the guard is DEDUCED from that corner case, notes/assumptions/11.md). -/
def Ppu.lycMatches (p : Ppu) (line : Nat) : Bool := decide (line < Config.lines) && decide (line = p.regs.lyc)

/-- LYC_COMMIT(ℓ) inside its cycle (40_scanline_events.md R151). -/
def Ppu.lycCommit (p : Ppu) (line : Nat) : Ppu :=
  ({ p with vcountFlag := p.lycMatches line }).emitIf (p.lycMatches line && p.regs.vcountIrq) (.irqRequest .vcount)

/-- Apply a commit to the block (40_scanline_events.md R150, R151). -/
def Ppu.applyCommit (p : Ppu) (c : Commit) : Ppu :=
  match c.kind with
  | .hblank => p.hblankCommit c.line
  | .lyc => p.lycCommit c.line

/-- The DISPSTAT read value (41_register_access.md R186). -/
def Ppu.dispstatRead (p : Ppu) : Half :=
  p.regs.dispstat.extractLsb' 8 8 ++ (0 : BitVec 2) ++ p.regs.dispstat.extractLsb' 3 3 ++
    BitVec.ofBool p.vcountFlag ++ BitVec.ofBool p.hblankFlag ++ BitVec.ofBool p.vblankFlag

end Sys2Proof.Machine
end

