-- ==== Sys2Proof/Machine/RegRead.lean ====
section
/-! DEFINITION. Register reads (41_register_access.md section 2) and their meanings. -/

namespace Sys2Proof.Machine

/-- What a readable halfword reads as; none where a read returns OPEN_BUS (41_register_access.md R185). -/
def Ppu.readReg (p : Ppu) : HalfReg → Option Half
  | .dispcnt => some p.regs.dispcnt
  | .greenswap => none
  | .dispstat => some p.dispstatRead
  | .vcount => some (BitVec.ofNat 16 p.line)
  | .bgcnt i => some (p.regs.bgcnt.get i)
  | .bghofs _ => none
  | .bgvofs _ => none
  | .bgpa _ => none
  | .bgpb _ => none
  | .bgpc _ => none
  | .bgpd _ => none
  | .bgxL _ => none
  | .bgxH _ => none
  | .bgyL _ => none
  | .bgyH _ => none
  | .win0h => none
  | .win1h => none
  | .win0v => none
  | .win1v => none
  | .winin => some p.regs.winin
  | .winout => some p.regs.winout
  | .mosaic => none
  | .unused04E => none
  | .bldcnt => some p.regs.bldcnt
  | .bldalpha => some p.regs.bldalpha
  | .bldy => none
  | .unused056 => none

/-- READ16(o) (41_register_access.md R185). An odd or unmapped offset gives a free value (DESIGN CHOICE for the odd ones,
notes/assumptions/9.md). -/
def Ppu.read16 (P : Params) (serial : Nat) (slot : BusSlot) (p : Ppu) (o : Nat) : Half :=
  match HalfReg.ofOffset o with
  | some r => (p.readReg r).getD (P.openBus serial slot)
  | none => P.openBus serial slot

/-- An 8-bit read returns the addressed byte of the halfword (41_register_access.md R185). -/
def Ppu.read8 (P : Params) (serial : Nat) (p : Ppu) (o : Nat) : Byte :=
  selectByte (p.read16 P serial .low (evenOffset o)) o

/-- A whole OPEN_BUS word. -/
def openBusWord (P : Params) (serial : Nat) : OpWord := P.openBus serial .high ++ P.openBus serial .low

/-- A 32-bit read at a multiple of 4 returns READ16(o) + 65536·READ16(o+2) (41_register_access.md R185); at any other offset
it selects no operation and returns OPEN_BUS (30_encoding.md R112, notes/assumptions/8.md). -/
def Ppu.read32 (P : Params) (serial : Nat) (p : Ppu) (o : Nat) : OpWord :=
  if o % 4 = 0 then p.read16 P serial .high (o + 2) ++ p.read16 P serial .low o else openBusWord P serial

/-- R8 (41_register_access.md R185). -/
def execR8 (offset : BitVec 10) (s : State) : Host.Outcome State Fault Refusal :=
  .next (s.answerRead ((s.ppu.read8 Config.params s.draws offset.toNat).setWidth 32))

/-- R16 (41_register_access.md R185). -/
def execR16 (offset : BitVec 10) (s : State) : Host.Outcome State Fault Refusal :=
  .next (s.answerRead ((s.ppu.read16 Config.params s.draws .low offset.toNat).setWidth 32))

/-- R32 (41_register_access.md R185). -/
def execR32 (offset : BitVec 10) (s : State) : Host.Outcome State Fault Refusal :=
  .next (s.answerRead (s.ppu.read32 Config.params s.draws offset.toNat))

/-- An operation word that selects nothing has no effect, and returns OPEN_BUS if it is a read (30_encoding.md R112), in
the width its code names; width code 11 names none and gets the whole word. -/
def selectsNothing (w : OpWord) (s : State) : State :=
  if owKind w = 1 then
    match owCode w with
    | 0 => s.answerRead ((selectByte (Config.params.openBus s.draws .low) 0).setWidth 32)
    | 1 => s.answerRead ((Config.params.openBus s.draws .low).setWidth 32)
    | _ => s.answerRead (openBusWord Config.params s.draws)
  else s

end Sys2Proof.Machine
end

