-- ==== Sys2Proof/Machine/RegWrite.lean ====
section
/-! DEFINITION. Register writes (41_register_access.md section 1) and their meanings. -/

namespace Sys2Proof.Machine

/-! ## The register rules -/

/-- The enable delay of layer `i` when DISPCNT goes from `old` to `v` (41_register_access.md R161): disabling is immediate, a
rising edge starts the countdown. -/
def Ppu.enableEdge (P : Params) (old v : Half) (p : Ppu) (i : BgId) : Ppu :=
  if bgEnableBit v i = false then
    { p with bgActive := p.bgActive.set i false, bgCountdown := p.bgCountdown.set i 0 }
  else if bgEnableBit old i = false then
    if P.bgEnableDelayLines = 0 then { p with bgActive := p.bgActive.set i true }
    else { p with bgCountdown := p.bgCountdown.set i P.bgEnableDelayLines }
  else p

/-- W_DISPCNT (R161). -/
def Ppu.writeDispcnt (P : Params) (v : Half) (p : Ppu) : Ppu :=
  BgId.all.foldl (Ppu.enableEdge P p.regs.dispcnt v) { p with regs := { p.regs with dispcnt := v } }

/-- W_GREENSWAP (R184): enabling the feature sets the refusal mark. -/
def Ppu.writeGreenswap (v : Half) (p : Ppu) : Ppu := if bit v 0 then { p with refused := true } else p

/-- W_DISPSTAT (R162). -/
def Ppu.writeDispstat (v : Half) (p : Ppu) : Ppu := { p with regs := { p.regs with dispstat := v &&& 0xFF38 } }

/-- W_BGCNT[i] (R164): bit 13 is not stored for BG0 and BG1. -/
def Ppu.writeBgcnt (i : BgId) (v : Half) (p : Ppu) : Ppu :=
  { p with regs := { p.regs with bgcnt := p.regs.bgcnt.set i (if i.toNat ≤ 1 then v &&& 0xDFFF else v) } }

/-- W_BGHOFS[i] (R165). -/
def Ppu.writeBghofs (i : BgId) (v : Half) (p : Ppu) : Ppu :=
  { p with regs := { p.regs with bghofs := p.regs.bghofs.set i (v.setWidth 9) } }

/-- W_BGVOFS[i] (R166). -/
def Ppu.writeBgvofs (i : BgId) (v : Half) (p : Ppu) : Ppu :=
  { p with regs := { p.regs with bgvofs := p.regs.bgvofs.set i (v.setWidth 9) } }

/-- W_BGPA[b] (R167). -/
def Ppu.writeBgpa (b : AffId) (v : Half) (p : Ppu) : Ppu :=
  { p with regs := { p.regs with bgpa := p.regs.bgpa.set b v } }

/-- W_BGPB[b] (R168). -/
def Ppu.writeBgpb (b : AffId) (v : Half) (p : Ppu) : Ppu :=
  { p with regs := { p.regs with bgpb := p.regs.bgpb.set b v } }

/-- W_BGPC[b] (R169). -/
def Ppu.writeBgpc (b : AffId) (v : Half) (p : Ppu) : Ppu :=
  { p with regs := { p.regs with bgpc := p.regs.bgpc.set b v } }

/-- W_BGPD[b] (R170). -/
def Ppu.writeBgpd (b : AffId) (v : Half) (p : Ppu) : Ppu :=
  { p with regs := { p.regs with bgpd := p.regs.bgpd.set b v } }

/-- A reference register with its low half replaced (R171). -/
def refLow (old : S28) (v : Half) : S28 := old.extractLsb' 16 12 ++ v

/-- A reference register with its high half replaced: v[15:12] is dropped (R171). -/
def refHigh (old : S28) (v : Half) : S28 := v.extractLsb' 0 12 ++ old.extractLsb' 0 16

/-- Store BGX[b] and apply the reload effect for its axis (R171, R172). -/
def Ppu.storeBgx (P : Params) (b : AffId) (v : S28) (p : Ppu) : Ppu :=
  match P.affineWritePolicy with
  | .nextLineReload => { p with regs := { p.regs with bgx := p.regs.bgx.set b v }, pendX := p.pendX.set b true }
  | .immediateReload => { p with regs := { p.regs with bgx := p.regs.bgx.set b v }, ix := p.ix.set b v }

/-- Store BGY[b] and apply the reload effect for its axis (R171, R172). -/
def Ppu.storeBgy (P : Params) (b : AffId) (v : S28) (p : Ppu) : Ppu :=
  match P.affineWritePolicy with
  | .nextLineReload => { p with regs := { p.regs with bgy := p.regs.bgy.set b v }, pendY := p.pendY.set b true }
  | .immediateReload => { p with regs := { p.regs with bgy := p.regs.bgy.set b v }, iy := p.iy.set b v }

/-- W_BGX_L[b] (R171). -/
def Ppu.writeBgxL (P : Params) (b : AffId) (v : Half) (p : Ppu) : Ppu :=
  p.storeBgx P b (refLow (p.regs.bgx.get b) v)

/-- W_BGX_H[b] (R171). -/
def Ppu.writeBgxH (P : Params) (b : AffId) (v : Half) (p : Ppu) : Ppu :=
  p.storeBgx P b (refHigh (p.regs.bgx.get b) v)

/-- W_BGY_L[b] (R171). -/
def Ppu.writeBgyL (P : Params) (b : AffId) (v : Half) (p : Ppu) : Ppu :=
  p.storeBgy P b (refLow (p.regs.bgy.get b) v)

/-- W_BGY_H[b] (R171). -/
def Ppu.writeBgyH (P : Params) (b : AffId) (v : Half) (p : Ppu) : Ppu :=
  p.storeBgy P b (refHigh (p.regs.bgy.get b) v)

/-- W_WIN0H (R173). -/
def Ppu.writeWin0h (v : Half) (p : Ppu) : Ppu := { p with regs := { p.regs with win0h := v } }

/-- W_WIN1H (R173). -/
def Ppu.writeWin1h (v : Half) (p : Ppu) : Ppu := { p with regs := { p.regs with win1h := v } }

/-- W_WIN0V (R174). -/
def Ppu.writeWin0v (v : Half) (p : Ppu) : Ppu := { p with regs := { p.regs with win0v := v } }

/-- W_WIN1V (R174). -/
def Ppu.writeWin1v (v : Half) (p : Ppu) : Ppu := { p with regs := { p.regs with win1v := v } }

/-- W_WININ (R175). -/
def Ppu.writeWinin (v : Half) (p : Ppu) : Ppu := { p with regs := { p.regs with winin := v &&& 0x3F3F } }

/-- W_WINOUT (R176). -/
def Ppu.writeWinout (v : Half) (p : Ppu) : Ppu := { p with regs := { p.regs with winout := v &&& 0x3F3F } }

/-- W_MOSAIC (R177). -/
def Ppu.writeMosaic (v : Half) (p : Ppu) : Ppu := { p with regs := { p.regs with mosaic := v } }

/-- W_BLDCNT (R178). -/
def Ppu.writeBldcnt (v : Half) (p : Ppu) : Ppu := { p with regs := { p.regs with bldcnt := v &&& 0x3FFF } }

/-- W_BLDALPHA (R179). -/
def Ppu.writeBldalpha (v : Half) (p : Ppu) : Ppu := { p with regs := { p.regs with bldalpha := v &&& 0x1F1F } }

/-- W_BLDY (R180). -/
def Ppu.writeBldy (v : Half) (p : Ppu) : Ppu := { p with regs := { p.regs with bldy := v.setWidth 5 } }

/-- A write that is ignored: VCOUNT (R163), unused offsets (R181). -/
def Ppu.ignoreWrite (_ : Half) (p : Ppu) : Ppu := p

/-! ## WRITE16 and the assembled writes -/

/-- The write rule of a halfword (R160). -/
def Ppu.writeReg (P : Params) : HalfReg → Half → Ppu → Ppu
  | .dispcnt => Ppu.writeDispcnt P
  | .greenswap => Ppu.writeGreenswap
  | .dispstat => Ppu.writeDispstat
  | .vcount => Ppu.ignoreWrite
  | .bgcnt i => Ppu.writeBgcnt i
  | .bghofs i => Ppu.writeBghofs i
  | .bgvofs i => Ppu.writeBgvofs i
  | .bgpa b => Ppu.writeBgpa b
  | .bgpb b => Ppu.writeBgpb b
  | .bgpc b => Ppu.writeBgpc b
  | .bgpd b => Ppu.writeBgpd b
  | .bgxL b => Ppu.writeBgxL P b
  | .bgxH b => Ppu.writeBgxH P b
  | .bgyL b => Ppu.writeBgyL P b
  | .bgyH b => Ppu.writeBgyH P b
  | .win0h => Ppu.writeWin0h
  | .win1h => Ppu.writeWin1h
  | .win0v => Ppu.writeWin0v
  | .win1v => Ppu.writeWin1v
  | .winin => Ppu.writeWinin
  | .winout => Ppu.writeWinout
  | .mosaic => Ppu.writeMosaic
  | .unused04E => Ppu.ignoreWrite
  | .bldcnt => Ppu.writeBldcnt
  | .bldalpha => Ppu.writeBldalpha
  | .bldy => Ppu.writeBldy
  | .unused056 => Ppu.ignoreWrite

/-- WRITE16(o, v) at an even offset (R160); an offset outside the map is ignored (30_encoding.md R112). -/
def Ppu.write16 (P : Params) (o : Nat) (v : Half) (p : Ppu) : Ppu :=
  match HalfReg.ofOffset o with
  | some r => p.writeReg P r v
  | none => p

/-- An 8-bit write merges with the stored halfword (30_encoding.md R109). -/
def Ppu.write8 (P : Params) (o : Nat) (v : Byte) (p : Ppu) : Ppu :=
  match HalfReg.ofOffset (evenOffset o) with
  | some r => p.writeReg P r (mergeByte (p.regs.stored r) o v)
  | none => p

/-- A 32-bit write at a multiple of 4 is two 16-bit writes, low then high (30_encoding.md R109). At any other offset it
selects no operation and has no effect (30_encoding.md R112, notes/assumptions/8.md). -/
def Ppu.write32 (P : Params) (o : Nat) (v : OpWord) (p : Ppu) : Ppu :=
  if o % 4 = 0 then Ppu.write16 P (o + 2) (v.extractLsb' 16 16) (Ppu.write16 P o (v.extractLsb' 0 16) p) else p

/-! ## The meanings -/

/-- W_DISPCNT (41_register_access.md R161). -/
def execWDispcnt (value : Half) (s : State) : Host.Outcome State Fault Refusal :=
  .next (s.onPpu (Ppu.writeDispcnt Config.params value))

/-- W_GREENSWAP (41_register_access.md R184). -/
def execWGreenswap (value : Half) (s : State) : Host.Outcome State Fault Refusal :=
  .next (s.onPpu (Ppu.writeGreenswap value))

/-- W_DISPSTAT (41_register_access.md R162). -/
def execWDispstat (value : Half) (s : State) : Host.Outcome State Fault Refusal :=
  .next (s.onPpu (Ppu.writeDispstat value))

/-- W_VCOUNT (41_register_access.md R163). -/
def execWVcount (value : Half) (s : State) : Host.Outcome State Fault Refusal :=
  .next (s.onPpu (Ppu.ignoreWrite value))

/-- W_BG0CNT (41_register_access.md R164). -/
def execWBg0cnt (value : Half) (s : State) : Host.Outcome State Fault Refusal :=
  .next (s.onPpu (Ppu.writeBgcnt .bg0 value))

/-- W_BG1CNT (41_register_access.md R164). -/
def execWBg1cnt (value : Half) (s : State) : Host.Outcome State Fault Refusal :=
  .next (s.onPpu (Ppu.writeBgcnt .bg1 value))

/-- W_BG2CNT (41_register_access.md R164). -/
def execWBg2cnt (value : Half) (s : State) : Host.Outcome State Fault Refusal :=
  .next (s.onPpu (Ppu.writeBgcnt .bg2 value))

/-- W_BG3CNT (41_register_access.md R164). -/
def execWBg3cnt (value : Half) (s : State) : Host.Outcome State Fault Refusal :=
  .next (s.onPpu (Ppu.writeBgcnt .bg3 value))

/-- W_BG0HOFS (41_register_access.md R165). -/
def execWBg0hofs (value : Half) (s : State) : Host.Outcome State Fault Refusal :=
  .next (s.onPpu (Ppu.writeBghofs .bg0 value))

/-- W_BG0VOFS (41_register_access.md R166). -/
def execWBg0vofs (value : Half) (s : State) : Host.Outcome State Fault Refusal :=
  .next (s.onPpu (Ppu.writeBgvofs .bg0 value))

/-- W_BG1HOFS (41_register_access.md R165). -/
def execWBg1hofs (value : Half) (s : State) : Host.Outcome State Fault Refusal :=
  .next (s.onPpu (Ppu.writeBghofs .bg1 value))

/-- W_BG1VOFS (41_register_access.md R166). -/
def execWBg1vofs (value : Half) (s : State) : Host.Outcome State Fault Refusal :=
  .next (s.onPpu (Ppu.writeBgvofs .bg1 value))

/-- W_BG2HOFS (41_register_access.md R165). -/
def execWBg2hofs (value : Half) (s : State) : Host.Outcome State Fault Refusal :=
  .next (s.onPpu (Ppu.writeBghofs .bg2 value))

/-- W_BG2VOFS (41_register_access.md R166). -/
def execWBg2vofs (value : Half) (s : State) : Host.Outcome State Fault Refusal :=
  .next (s.onPpu (Ppu.writeBgvofs .bg2 value))

/-- W_BG3HOFS (41_register_access.md R165). -/
def execWBg3hofs (value : Half) (s : State) : Host.Outcome State Fault Refusal :=
  .next (s.onPpu (Ppu.writeBghofs .bg3 value))

/-- W_BG3VOFS (41_register_access.md R166). -/
def execWBg3vofs (value : Half) (s : State) : Host.Outcome State Fault Refusal :=
  .next (s.onPpu (Ppu.writeBgvofs .bg3 value))

/-- W_BG2PA (41_register_access.md R167). -/
def execWBg2pa (value : Half) (s : State) : Host.Outcome State Fault Refusal :=
  .next (s.onPpu (Ppu.writeBgpa .bg2 value))

/-- W_BG2PB (41_register_access.md R168). -/
def execWBg2pb (value : Half) (s : State) : Host.Outcome State Fault Refusal :=
  .next (s.onPpu (Ppu.writeBgpb .bg2 value))

/-- W_BG2PC (41_register_access.md R169). -/
def execWBg2pc (value : Half) (s : State) : Host.Outcome State Fault Refusal :=
  .next (s.onPpu (Ppu.writeBgpc .bg2 value))

/-- W_BG2PD (41_register_access.md R170). -/
def execWBg2pd (value : Half) (s : State) : Host.Outcome State Fault Refusal :=
  .next (s.onPpu (Ppu.writeBgpd .bg2 value))

/-- W_BG2X_L (41_register_access.md R171, R172). -/
def execWBg2xL (value : Half) (s : State) : Host.Outcome State Fault Refusal :=
  .next (s.onPpu (Ppu.writeBgxL Config.params .bg2 value))

/-- W_BG2X_H (41_register_access.md R171, R172). -/
def execWBg2xH (value : Half) (s : State) : Host.Outcome State Fault Refusal :=
  .next (s.onPpu (Ppu.writeBgxH Config.params .bg2 value))

/-- W_BG2Y_L (41_register_access.md R171, R172). -/
def execWBg2yL (value : Half) (s : State) : Host.Outcome State Fault Refusal :=
  .next (s.onPpu (Ppu.writeBgyL Config.params .bg2 value))

/-- W_BG2Y_H (41_register_access.md R171, R172). -/
def execWBg2yH (value : Half) (s : State) : Host.Outcome State Fault Refusal :=
  .next (s.onPpu (Ppu.writeBgyH Config.params .bg2 value))

/-- W_BG3PA (41_register_access.md R167). -/
def execWBg3pa (value : Half) (s : State) : Host.Outcome State Fault Refusal :=
  .next (s.onPpu (Ppu.writeBgpa .bg3 value))

/-- W_BG3PB (41_register_access.md R168). -/
def execWBg3pb (value : Half) (s : State) : Host.Outcome State Fault Refusal :=
  .next (s.onPpu (Ppu.writeBgpb .bg3 value))

/-- W_BG3PC (41_register_access.md R169). -/
def execWBg3pc (value : Half) (s : State) : Host.Outcome State Fault Refusal :=
  .next (s.onPpu (Ppu.writeBgpc .bg3 value))

/-- W_BG3PD (41_register_access.md R170). -/
def execWBg3pd (value : Half) (s : State) : Host.Outcome State Fault Refusal :=
  .next (s.onPpu (Ppu.writeBgpd .bg3 value))

/-- W_BG3X_L (41_register_access.md R171, R172). -/
def execWBg3xL (value : Half) (s : State) : Host.Outcome State Fault Refusal :=
  .next (s.onPpu (Ppu.writeBgxL Config.params .bg3 value))

/-- W_BG3X_H (41_register_access.md R171, R172). -/
def execWBg3xH (value : Half) (s : State) : Host.Outcome State Fault Refusal :=
  .next (s.onPpu (Ppu.writeBgxH Config.params .bg3 value))

/-- W_BG3Y_L (41_register_access.md R171, R172). -/
def execWBg3yL (value : Half) (s : State) : Host.Outcome State Fault Refusal :=
  .next (s.onPpu (Ppu.writeBgyL Config.params .bg3 value))

/-- W_BG3Y_H (41_register_access.md R171, R172). -/
def execWBg3yH (value : Half) (s : State) : Host.Outcome State Fault Refusal :=
  .next (s.onPpu (Ppu.writeBgyH Config.params .bg3 value))

/-- W_WIN0H (41_register_access.md R173). -/
def execWWin0h (value : Half) (s : State) : Host.Outcome State Fault Refusal :=
  .next (s.onPpu (Ppu.writeWin0h value))

/-- W_WIN1H (41_register_access.md R173). -/
def execWWin1h (value : Half) (s : State) : Host.Outcome State Fault Refusal :=
  .next (s.onPpu (Ppu.writeWin1h value))

/-- W_WIN0V (41_register_access.md R174). -/
def execWWin0v (value : Half) (s : State) : Host.Outcome State Fault Refusal :=
  .next (s.onPpu (Ppu.writeWin0v value))

/-- W_WIN1V (41_register_access.md R174). -/
def execWWin1v (value : Half) (s : State) : Host.Outcome State Fault Refusal :=
  .next (s.onPpu (Ppu.writeWin1v value))

/-- W_WININ (41_register_access.md R175). -/
def execWWinin (value : Half) (s : State) : Host.Outcome State Fault Refusal :=
  .next (s.onPpu (Ppu.writeWinin value))

/-- W_WINOUT (41_register_access.md R176). -/
def execWWinout (value : Half) (s : State) : Host.Outcome State Fault Refusal :=
  .next (s.onPpu (Ppu.writeWinout value))

/-- W_MOSAIC (41_register_access.md R177). -/
def execWMosaic (value : Half) (s : State) : Host.Outcome State Fault Refusal :=
  .next (s.onPpu (Ppu.writeMosaic value))

/-- W_UNUSED_04E (41_register_access.md R181). -/
def execWUnused04E (value : Half) (s : State) : Host.Outcome State Fault Refusal :=
  .next (s.onPpu (Ppu.ignoreWrite value))

/-- W_BLDCNT (41_register_access.md R178). -/
def execWBldcnt (value : Half) (s : State) : Host.Outcome State Fault Refusal :=
  .next (s.onPpu (Ppu.writeBldcnt value))

/-- W_BLDALPHA (41_register_access.md R179). -/
def execWBldalpha (value : Half) (s : State) : Host.Outcome State Fault Refusal :=
  .next (s.onPpu (Ppu.writeBldalpha value))

/-- W_BLDY (41_register_access.md R180). -/
def execWBldy (value : Half) (s : State) : Host.Outcome State Fault Refusal :=
  .next (s.onPpu (Ppu.writeBldy value))

/-- W_UNUSED_056 (41_register_access.md R181). -/
def execWUnused056 (value : Half) (s : State) : Host.Outcome State Fault Refusal :=
  .next (s.onPpu (Ppu.ignoreWrite value))

/-- W16_ODD: performed at offset - 1 (30_encoding.md R109). -/
def execW16Odd (offset : BitVec 10) (value : Half) (s : State) : Host.Outcome State Fault Refusal :=
  .next (s.onPpu (Ppu.write16 Config.params (evenOffset offset.toNat) value))

/-- W8 (30_encoding.md R109). -/
def execW8 (offset : BitVec 10) (value : Byte) (s : State) : Host.Outcome State Fault Refusal :=
  .next (s.onPpu (Ppu.write8 Config.params offset.toNat value))

/-- W32 (30_encoding.md R109). -/
def execW32 (offset : BitVec 10) (value : OpWord) (s : State) : Host.Outcome State Fault Refusal :=
  .next (s.onPpu (Ppu.write32 Config.params offset.toNat value))

end Sys2Proof.Machine
end

