-- ==== Sys2Proof/Machine/Background.lean ====
section
/-! DEFINITION. Background sampling (42_background_sampling.md). -/

namespace Sys2Proof.Machine

/-- The kinds of background layer (30_encoding.md R92). -/
inductive LayerKind where
  | absent
  | text
  | affine
  | bitmap3
  | bitmap4
  | bitmap5
  deriving DecidableEq, Repr

/-- kind(mode, i) (30_encoding.md R92). -/
def layerKind (mode : Nat) (i : BgId) : LayerKind :=
  match mode, i with
  | 0, _ => .text
  | 1, .bg0 => .text
  | 1, .bg1 => .text
  | 1, .bg2 => .affine
  | 2, .bg2 => .affine
  | 2, .bg3 => .affine
  | 3, .bg2 => .bitmap3
  | 4, .bg2 => .bitmap4
  | 5, .bg2 => .bitmap5
  | _, _ => .absent

/-- A sample: transparent, or opaque with a colour (42_background_sampling.md R201). -/
inductive Sample where
  | transparent
  | solid (c : Color15)
  deriving DecidableEq, Repr

/-- The sample of a palette index: index 0 is transparent (42_background_sampling.md R221). -/
def Memory.paletteSample (m : Memory) (k index : Nat) : Sample :=
  if k = 0 then .transparent else .solid (m.bgColor index)

/-- BgVram(a, 2) of a tiled or affine layer (42_background_sampling.md R201, 20_memory.md R63). -/
def bgVramHalf (P : Params) (serial : Nat) (m : Memory) (i : BgId) (slot : SampleSlot) (a : Nat) : Half :=
  if 0x10000 ≤ a then P.bgObjVramRead serial i slot else m.readHalf .vram a

/-- BgVram(a, 1) of a tiled or affine layer (42_background_sampling.md R201, 20_memory.md R63). -/
def bgVramByte (P : Params) (serial : Nat) (m : Memory) (i : BgId) (slot : SampleSlot) (a : Nat) : Byte :=
  if 0x10000 ≤ a then (P.bgObjVramRead serial i slot).setWidth 8 else m.readByte .vram a

/-- A coordinate snapped to the start of its mosaic cell (42_background_sampling.md R203). -/
def snap (cell v : Nat) : Nat := v - v % cell

/-- The column a text layer samples (42_background_sampling.md R203). -/
def Regs.mosaicX (r : Regs) (i : BgId) (x : Nat) : Nat := if r.bgMosaic i then snap r.mosaicH x else x

/-- The line a text layer samples (42_background_sampling.md R203). -/
def Regs.mosaicY (r : Regs) (i : BgId) (y : Nat) : Nat := if r.bgMosaic i then snap r.mosaicV y else y

/-- The VRAM offset of the text map entry of texel (tx, ty) (42_background_sampling.md R205, R206). -/
def Regs.textEntryOffset (r : Regs) (i : BgId) (tx ty : Nat) : Nat :=
  r.mapBase i + 0x800 * (tx / 256 + ty / 256 * (r.textW i / 256)) + 2 * (32 * (ty % 256 / 8) + tx % 256 / 8)

/-- A pixel coordinate inside a tile, flipped if the entry says so (42_background_sampling.md R205). -/
def flip (f : Bool) (v : Nat) : Nat := if f then 7 - v else v

/-- The sample of a text map entry `e` at pixel (px, py) of its tile, flips applied (42_background_sampling.md R205). -/
def textTexel (P : Params) (serial : Nat) (m : Memory) (r : Regs) (i : BgId) (e : Half) (px py : Nat) : Sample :=
  if r.pal8 i then
    let k := (bgVramByte P serial m i .charRead (r.charBase i + 64 * field e 9 0 + 8 * py + px)).toNat
    m.paletteSample k k
  else
    let byte := bgVramByte P serial m i .charRead (r.charBase i + 32 * field e 9 0 + 4 * py + px / 2)
    let k := if px % 2 = 0 then field byte 3 0 else field byte 7 4
    m.paletteSample k (16 * field e 15 12 + k)

/-- SampleText(i, x, ℓ) (42_background_sampling.md R205). -/
def sampleText (P : Params) (serial : Nat) (m : Memory) (r : Regs) (i : BgId) (x y : Nat) : Sample :=
  let tx := (r.mosaicX i x + (r.bghofs.get i).toNat) % r.textW i
  let ty := (r.mosaicY i y + (r.bgvofs.get i).toNat) % r.textH i
  let e := bgVramHalf P serial m i .mapRead (r.textEntryOffset i tx ty)
  textTexel P serial m r i e (flip (bit e 10) (tx % 8)) (flip (bit e 11) (ty % 8))

/-- AffineCoord(b, x) from the line latch: exact integers, floor to the texel (42_background_sampling.md R211). -/
def LineLatch.coord (l : LineLatch) (x : Nat) : Int × Int :=
  ((l.x0.toInt + l.pa.toInt * (snap l.mh x : Nat)) / 256, (l.y0.toInt + l.pc.toInt * (snap l.mh x : Nat)) / 256)

/-- The texel of an affine layer of side `S`: wrapped, or none outside the layer (42_background_sampling.md R212). -/
def affineTexel (wrap : Bool) (S : Nat) (t : Int × Int) : Option (Nat × Nat) :=
  if wrap then some ((t.1 % S).toNat, (t.2 % S).toNat)
  else if t.1 < 0 ∨ S ≤ t.1 ∨ t.2 < 0 ∨ S ≤ t.2 then none
  else some (t.1.toNat, t.2.toNat)

/-- SampleAffine(b, x) (42_background_sampling.md R212). -/
def sampleAffine (P : Params) (serial : Nat) (m : Memory) (r : Regs) (l : LineLatch) (i : BgId) (x : Nat) : Sample :=
  match affineTexel (r.wrap i) (r.affS i) (l.coord x) with
  | none => .transparent
  | some (tx, ty) =>
    let t := (bgVramByte P serial m i .mapRead (r.mapBase i + ty / 8 * (r.affS i / 8) + tx / 8)).toNat
    let k := (bgVramByte P serial m i .charRead (r.charBase i + 64 * t + 8 * (ty % 8) + tx % 8)).toNat
    m.paletteSample k k

/-- The pixel of a w x h bitmap, none outside it (42_background_sampling.md R215-R217). -/
def bitmapPixel (w h : Nat) (t : Int × Int) : Option (Nat × Nat) :=
  if t.1 < 0 ∨ w ≤ t.1 ∨ t.2 < 0 ∨ h ≤ t.2 then none else some (t.1.toNat, t.2.toNat)

/-- The base of the displayed frame in modes 4 and 5 (20_memory.md R73). -/
def Regs.frameBase (r : Regs) : Nat := if r.frame then 0xA000 else 0

/-- SampleBitmap3(x) (42_background_sampling.md R215). -/
def sampleBitmap3 (m : Memory) (l : LineLatch) (x : Nat) : Sample :=
  match bitmapPixel 240 160 (l.coord x) with
  | none => .transparent
  | some (u, v) => .solid ((m.readHalf .vram (2 * (240 * v + u))).setWidth 15)

/-- SampleBitmap4(x) (42_background_sampling.md R216). -/
def sampleBitmap4 (m : Memory) (r : Regs) (l : LineLatch) (x : Nat) : Sample :=
  match bitmapPixel 240 160 (l.coord x) with
  | none => .transparent
  | some (u, v) =>
    let k := (m.readByte .vram (r.frameBase + 240 * v + u)).toNat
    m.paletteSample k k

/-- SampleBitmap5(x) (42_background_sampling.md R217). -/
def sampleBitmap5 (m : Memory) (r : Regs) (l : LineLatch) (x : Nat) : Sample :=
  match bitmapPixel 160 128 (l.coord x) with
  | none => .transparent
  | some (u, v) => .solid ((m.readHalf .vram (r.frameBase + 2 * (160 * v + u))).setWidth 15)

/-- The line latch a layer samples with: only layers 2 and 3 are affine-capable (10_state.md R26). -/
def Ppu.latchOf (p : Ppu) (i : BgId) : LineLatch :=
  match i with
  | .bg3 => p.latch.bg3
  | _ => p.latch.bg2

/-- kind(i) (42_background_sampling.md R200). -/
def Ppu.kindOf (p : Ppu) (i : BgId) : LayerKind := layerKind p.regs.mode i

/-- SampleBG(i, x, ℓ) (42_background_sampling.md R220). -/
def Ppu.sampleBg (P : Params) (serial : Nat) (m : Memory) (p : Ppu) (i : BgId) (x y : Nat) : Sample :=
  match p.kindOf i with
  | .absent => .transparent
  | .text => sampleText P serial m p.regs i x y
  | .affine => sampleAffine P serial m p.regs (p.latchOf i) i x
  | .bitmap3 => sampleBitmap3 m (p.latchOf i) x
  | .bitmap4 => sampleBitmap4 m p.regs (p.latchOf i) x
  | .bitmap5 => sampleBitmap5 m p.regs (p.latchOf i) x

end Sys2Proof.Machine
end

