-- ==== Sys2Proof/Machine/Window.lean ====
section
/-! DEFINITION. Windowing (43_windowing.md). -/

namespace Sys2Proof.Machine

/-- The class of a pixel (43_windowing.md R240). -/
inductive WindowClass where
  | none
  | win0
  | win1
  | objWin
  | outside
  deriving DecidableEq, Repr

/-- Whether `v` lies in the extent from bits 15:8 up to, not including, bits 7:0; an extent whose start is greater than its
end wraps around (43_windowing.md R241, R242). -/
def inExtent (w : Half) (v : Nat) : Bool :=
  if field w 15 8 ≤ field w 7 0 then decide (field w 15 8 ≤ v) && decide (v < field w 7 0)
  else decide (field w 15 8 ≤ v) || decide (v < field w 7 0)

/-- Pixel (x, ℓ) lies in rectangular window 0 (43_windowing.md R241, R242). -/
def Regs.inWin0 (r : Regs) (x y : Nat) : Bool := inExtent r.win0h x && inExtent r.win0v y

/-- Pixel (x, ℓ) lies in rectangular window 1 (43_windowing.md R241, R242). -/
def Regs.inWin1 (r : Regs) (x y : Nat) : Bool := inExtent r.win1h x && inExtent r.win1v y

/-- inObj(x) (43_windowing.md R243). -/
def Ppu.inObjWindow (p : Ppu) (x : Nat) : Bool :=
  p.regs.objWinEnable && p.regs.objEnable && (stripAt p.drawStrip x).objWin

/-- WindowClass(x, ℓ) (43_windowing.md R244). -/
def Ppu.windowClass (p : Ppu) (x y : Nat) : WindowClass :=
  if !(p.regs.win0Enable || p.regs.win1Enable || p.regs.objWinEnable) then .none
  else if p.regs.win0Enable && p.regs.inWin0 x y then .win0
  else if p.regs.win1Enable && p.regs.inWin1 x y then .win1
  else if p.inObjWindow x then .objWin
  else .outside

/-- The enable set of a class (43_windowing.md R245). -/
def Regs.enableSet (r : Regs) : WindowClass → BitVec 6
  | .none => 0b111111
  | .win0 => r.winin.extractLsb' 0 6
  | .win1 => r.winin.extractLsb' 8 6
  | .objWin => r.winout.extractLsb' 8 6
  | .outside => r.winout.extractLsb' 0 6

/-- The enable set of pixel (x, ℓ). -/
def Ppu.enableSetAt (p : Ppu) (x y : Nat) : BitVec 6 := p.regs.enableSet (p.windowClass x y)

end Sys2Proof.Machine
end

