-- ==== Sys2Proof/Machine/Compose.lean ====
section
/-! DEFINITION. Priority, sprite merge, colour special effects and the framebuffer write (44_compositing_blending.md). -/

namespace Sys2Proof.Machine

/-- The layers (44_compositing_blending.md R260). -/
inductive LayerId where
  | bg (i : BgId)
  | obj
  | bd
  deriving DecidableEq, Repr

/-- bit(id), the target-bit index (44_compositing_blending.md R260). -/
def LayerId.targetBit : LayerId → Nat
  | .bg i => i.toNat
  | .obj => 4
  | .bd => 5

/-- A layer record (44_compositing_blending.md R260). -/
structure Layer where
  id : LayerId
  prio : Nat
  col : Color15
  semi : Bool
  deriving DecidableEq, Repr

/-- The first and second place at a pixel. -/
structure TopTwo where
  first : Layer
  second : Layer
  deriving DecidableEq, Repr

/-- The backdrop (44_compositing_blending.md R262, 20_memory.md R67). -/
def backdrop (m : Memory) : Layer := ⟨.bd, 4, m.bgColor 0, false⟩

/-- A background takes a place it is strictly in front of (44_compositing_blending.md R263). -/
def TopTwo.addBg (t : TopTwo) (l : Layer) : TopTwo :=
  if l.prio < t.first.prio then ⟨l, t.first⟩
  else if l.prio < t.second.prio then ⟨t.first, l⟩
  else t

/-- The sprite takes a place of equal or greater priority value (44_compositing_blending.md R264, 90_conflicts.md C1). -/
def TopTwo.addSprite (t : TopTwo) (l : Layer) : TopTwo :=
  if l.prio ≤ t.first.prio then ⟨l, t.first⟩
  else if l.prio ≤ t.second.prio then ⟨t.first, l⟩
  else t

/-- Whether layer `i` is sampled (42_background_sampling.md R202). -/
def Ppu.bgSelected (p : Ppu) (e : BitVec 6) (i : BgId) : Bool :=
  decide (p.kindOf i ≠ .absent) && p.bgActive.get i && bit e i.toNat

/-- One turn of the loop over the backgrounds (44_compositing_blending.md R263). -/
def Ppu.mergeBg (P : Params) (serial : Nat) (m : Memory) (p : Ppu) (e : BitVec 6) (x y : Nat) (t : TopTwo) (i : BgId) :
    TopTwo :=
  if p.bgSelected e i then
    match p.sampleBg P serial m i x y with
    | .transparent => t
    | .solid c => t.addBg ⟨.bg i, p.regs.bgPrio i, c, false⟩
  else t

/-- First and second place among the backgrounds (44_compositing_blending.md R263). -/
def Ppu.topBgs (P : Params) (serial : Nat) (m : Memory) (p : Ppu) (e : BitVec 6) (x y : Nat) : TopTwo :=
  BgId.all.foldl (p.mergeBg P serial m e x y) ⟨backdrop m, backdrop m⟩

/-- The sprite layer record of a strip entry (44_compositing_blending.md R264). -/
def spriteLayer (m : Memory) (o : SpriteEntry) : Layer := ⟨.obj, o.prio.toNat, m.objColor o.palIdx.toNat, o.semi⟩

/-- The sprite merge (44_compositing_blending.md R264). -/
def Ppu.mergeSprite (m : Memory) (p : Ppu) (e : BitVec 6) (x : Nat) (t : TopTwo) : TopTwo :=
  let o := stripAt p.drawStrip x
  if p.regs.objEnable && bit e 4 && o.isOpaque then t.addSprite (spriteLayer m o) else t

/-- TopTwo(x, ℓ, E) (44_compositing_blending.md R265). -/
def Ppu.topTwo (P : Params) (serial : Nat) (m : Memory) (p : Ppu) (e : BitVec 6) (x y : Nat) : TopTwo :=
  p.mergeSprite m e x (p.topBgs P serial m e x y)

/-- Apply a channel operation to the three channels independently (00_scope.md R13). -/
def mapChannels (f : Nat → Nat) (c : Color15) : Color15 := rgb (f (red c)) (f (green c)) (f (blue c))

/-- Apply a channel operation to the three channels of two colours (00_scope.md R13). -/
def zipChannels (f : Nat → Nat → Nat) (c1 c2 : Color15) : Color15 :=
  rgb (f (red c1) (red c2)) (f (green c1) (green c2)) (f (blue c1) (blue c2))

/-- Alpha on one channel (44_compositing_blending.md R272). -/
def alphaChannel (r : BlendRounding) (a b c1 c2 : Nat) : Nat :=
  match r with
  | .perTermFloor => min Config.channelMax (c1 * a / 16 + c2 * b / 16)
  | .sumThenFloor => min Config.channelMax ((c1 * a + c2 * b) / 16)

/-- Alpha(c1, c2, a, b) (44_compositing_blending.md R272). -/
def alpha (r : BlendRounding) (a b : Nat) (c1 c2 : Color15) : Color15 := zipChannels (alphaChannel r a b) c1 c2

/-- Brighten on one channel (44_compositing_blending.md R273). -/
def brightenChannel (y c : Nat) : Nat := c + (31 - c) * y / 16

/-- Brighten(c, y) (44_compositing_blending.md R273). -/
def brighten (y : Nat) (c : Color15) : Color15 := mapChannels (brightenChannel y) c

/-- Darken on one channel (44_compositing_blending.md R274). -/
def darkenChannel (y c : Nat) : Nat := c - c * y / 16

/-- Darken(c, y) (44_compositing_blending.md R274). -/
def darken (y : Nat) (c : Color15) : Color15 := mapChannels (darkenChannel y) c

/-- Whether a semi-transparent sprite forces the blend (44_compositing_blending.md R271, R275). -/
def forcedBlend (P : Params) (r : Regs) (t : TopTwo) (e : Bool) : Bool :=
  decide (t.first.id = .obj) && t.first.semi && (e || P.semiIgnoresWindowEffect) &&
    (r.target2 t.second.id.targetBit || !P.semiRequiresSecondTarget)

/-- Effect(first, second, e) (44_compositing_blending.md R271). -/
def effectColor (P : Params) (r : Regs) (t : TopTwo) (e : Bool) : Color15 :=
  if forcedBlend P r t e then alpha P.blendRounding r.eva r.evb t.first.col t.second.col
  else if !e then t.first.col
  else match r.effect with
    | 1 =>
      if r.target1 t.first.id.targetBit && r.target2 t.second.id.targetBit then
        alpha P.blendRounding r.eva r.evb t.first.col t.second.col
      else t.first.col
    | 2 => if r.target1 t.first.id.targetBit then brighten r.evy t.first.col else t.first.col
    | 3 => if r.target1 t.first.id.targetBit then darken r.evy t.first.col else t.first.col
    | _ => t.first.col

/-- The colour of pixel (x, ℓ): forced blank (R281), reserved modes (R282), else the composed pixel (R280). -/
def Ppu.pixelColor (P : Params) (serial : Nat) (m : Memory) (p : Ppu) (x y : Nat) : Color15 :=
  if p.regs.forcedBlank then 0x7FFF
  else if 6 ≤ p.regs.mode then P.reservedModePixel serial
  else effectColor P p.regs (p.topTwo P serial m (p.enableSetAt x y) x y) (bit (p.enableSetAt x y) 5)

/-- RenderPixel(x, ℓ) (44_compositing_blending.md R280). With the refusal mark set the pixel is a free value, so that nothing
can be proved of it (10_state.md R34, 41_register_access.md R184; notes/assumptions/19.md). -/
def Ppu.renderPixel (P : Params) (serial : Nat) (m : Memory) (x y : Nat) (p : Ppu) : Ppu :=
  p.setFb x y (if p.refused then P.refusedPixel serial else p.pixelColor P serial m x y)

/-- COLOR_EXPAND(FB[y][x]), what the host sees (44_compositing_blending.md R283). -/
def Ppu.hostPixel (P : Params) (p : Ppu) (x y : Nat) : Rgb := P.colorExpand (p.fbAt x y)

end Sys2Proof.Machine
end

