-- ==== Sys2Proof/Machine/Tick.lean ====
section
/-! DEFINITION. The tick and its classes, the commits and the line transition (40_scanline_events.md), the strip write
(60_exceptions.md R320) and the hard reset (70_reset_and_hazards.md R330), with their meanings. -/

namespace Sys2Proof.Machine

/-! ## Cycle 0 -/

/-- The background-enable commit of one layer (40_scanline_events.md R131): a positive countdown goes down by one, and the
layer takes its enable bit when that reaches 0. -/
def Ppu.commitBgEnable (p : Ppu) (i : BgId) : Ppu :=
  { p with
    bgCountdown := p.bgCountdown.set i (p.bgCountdown.get i - 1)
    bgActive := p.bgActive.set i
      (if p.bgCountdown.get i = 1 then bgEnableBit p.regs.dispcnt i else p.bgActive.get i) }

/-- TICK_COMMIT, part 1 (40_scanline_events.md R131). -/
def Ppu.commitBgEnables (p : Ppu) : Ppu := BgId.all.foldl Ppu.commitBgEnable p

/-- TICK_COMMIT, part 2: swap the strips and clear the just-drawn one (40_scanline_events.md R132). -/
def Ppu.swapStrips (p : Ppu) : Ppu := ({ p with drawSel := !p.drawSel } : Ppu).setEvalStrip []

/-! ## The render window -/

/-- The column x with RENDER_CYCLE(x) = c, if there is one. -/
def renderColumn (f : Nat → Nat) (c : Nat) : Option Nat := (List.range 240).find? (fun x => decide (f x = c))

/-- dispCycle, the display-cycle counter: derived, not stored, and none outside the render window (10_state.md R22). -/
def Ppu.dispCycle (p : Ppu) : Option Nat :=
  if p.line < Config.visibleLines ∧ Config.renderFirst ≤ p.cycle ∧ p.cycle ≤ Config.renderLast then
    some (p.cycle - Config.renderFirst)
  else none

/-- The column composited at (line, cycle) (30_encoding.md R110): RENDER_CYCLE is the one reader of dispCycle (10_state.md
R22). -/
def Ppu.columnNow (P : Params) (p : Ppu) : Option Nat :=
  match p.dispCycle with
  | some d => renderColumn P.renderCycle (d + Config.renderFirst)
  | none => none

/-- TICK_RENDER, or nothing (40_scanline_events.md R135, R136). -/
def Ppu.renderNow (P : Params) (serial : Nat) (m : Memory) (p : Ppu) : Ppu :=
  match p.columnNow P with
  | some x => p.renderPixel P serial m x p.line
  | none => p

/-! ## Cycle 1007 -/

/-- TICK_HBLANK (40_scanline_events.md R140). -/
def Ppu.hblankStart (P : Params) (p : Ppu) : Ppu :=
  ((p.emitIf (decide (p.line < Config.visibleLines)) (.dmaTrigger .hblank)).emitIf (P.videoCaptureLine p.line)
    (.dmaTrigger .videoCapture)).emit (.scheduleHBlankCommit p.line)

/-! ## The line transition -/

/-- The internal reference of one axis at the transition (40_scanline_events.md R147): reload at line 160 or after a write,
else one step after a visible line. -/
def nextReference (old newLine : Nat) (pend : Bool) (written internal : S28) (step : Half) : S28 :=
  if newLine = Config.vblankSetLine then written
  else if pend then written
  else if old < Config.visibleLines then wrap28 (internal.toInt + step.toInt)
  else internal

/-- AffineReferenceUpdate(old, ℓ) for layer b (40_scanline_events.md R147). -/
def Ppu.affineReference (old newLine : Nat) (p : Ppu) (b : AffId) : Ppu :=
  { p with
    ix := p.ix.set b
      (nextReference old newLine (p.pendX.get b) (p.regs.bgx.get b) (p.ix.get b) (p.regs.bgpb.get b))
    iy := p.iy.set b
      (nextReference old newLine (p.pendY.get b) (p.regs.bgy.get b) (p.iy.get b) (p.regs.bgpd.get b))
    pendX := p.pendX.set b false
    pendY := p.pendY.set b false }

/-- Whether the mosaic references are captured at the transition into ℓ: ℓ is the first line of a vertical cell of the
visible area (40_scanline_events.md R148). -/
def Regs.capturesMosaic (r : Regs) (newLine : Nat) : Bool :=
  decide (newLine < Config.visibleLines) && decide (newLine % r.mosaicV = 0)

/-- MIX[b] after the capture (40_scanline_events.md R148). -/
def Ppu.nextMix (p : Ppu) (newLine : Nat) (b : AffId) : S28 :=
  if p.regs.capturesMosaic newLine then p.ix.get b else p.mix.get b

/-- MIY[b] after the capture (40_scanline_events.md R148). -/
def Ppu.nextMiy (p : Ppu) (newLine : Nat) (b : AffId) : S28 :=
  if p.regs.capturesMosaic newLine then p.iy.get b else p.miy.get b

/-- LL[b] of line ℓ (40_scanline_events.md R148): unchanged for ℓ ≥ 160. -/
def Ppu.nextLatch (p : Ppu) (newLine : Nat) (b : AffId) : LineLatch :=
  if newLine < Config.visibleLines then
    { x0 := if p.regs.bgMosaic b.toBg then p.nextMix newLine b else p.ix.get b
      y0 := if p.regs.bgMosaic b.toBg then p.nextMiy newLine b else p.iy.get b
      pa := p.regs.bgpa.get b
      pc := p.regs.bgpc.get b
      mh := if p.regs.bgMosaic b.toBg then p.regs.mosaicH else 1 }
  else p.latch.get b

/-- AffineLineLatch(ℓ) for layer b (40_scanline_events.md R148). -/
def Ppu.affineLatch (newLine : Nat) (p : Ppu) (b : AffId) : Ppu :=
  { p with
    mix := p.mix.set b (p.nextMix newLine b)
    miy := p.miy.set b (p.nextMiy newLine b)
    latch := p.latch.set b (p.nextLatch newLine b) }

/-- TICK_LINE_END (40_scanline_events.md R145), its sub-steps in the order of 92_eei_decisions.md D36. -/
def Ppu.lineEnd (p : Ppu) : Ppu :=
  let old := p.line
  let new := (old + 1) % Config.lines
  let p := { p with line := new, cycle := 0, hblankFlag := false }
  let p := (p.affineReference old new .bg2).affineReference old new .bg3
  let p := (p.affineLatch new .bg2).affineLatch new .bg3
  let p := p.vblankEdges new
  (p.emit (.scheduleLycCompare new)).emit (.spriteEvalReset new)

/-! ## The tick -/

/-- TICK_COMMIT at cycle 0 (40_scanline_events.md R131, R132). -/
def Ppu.commitNow (p : Ppu) : Ppu := if p.cycle = 0 then p.commitBgEnables.swapStrips else p

/-- TICK_HBLANK at cycle 1007 (40_scanline_events.md R140). -/
def Ppu.hblankNow (P : Params) (p : Ppu) : Ppu := if p.cycle = Config.hblankCycle then p.hblankStart P else p

/-- The counter step, with TICK_LINE_END when it reaches 1232 (40_scanline_events.md R130, 90_conflicts.md C3). -/
def Ppu.countNow (p : Ppu) : Ppu :=
  if p.cycle + 1 = Config.cyclesPerLine then ({ p with cycle := p.cycle + 1 } : Ppu).lineEnd
  else { p with cycle := p.cycle + 1 }

/-- tick() (40_scanline_events.md R130), after the start of its cycle. -/
def Ppu.tick (P : Params) (serial : Nat) (m : Memory) (p : Ppu) : Ppu :=
  ((p.commitNow.renderNow P serial m).hblankNow P).countNow

/-! ## Strip write and reset -/

/-- STRIP_WRITE(x, e) (60_exceptions.md R320); a column above 239 is no operation (60_exceptions.md R306). -/
def Ppu.stripWrite (x : Nat) (e : SpriteEntry) (p : Ppu) : Ppu :=
  if x < Config.width then p.setEvalStrip (Sparse.write SpriteEntry.empty p.evalStrip x e) else p

/-- A hard reset: every row of 70_reset_and_hazards.md R330, and no commit scheduled or handed over before it is delivered
after it (R331: the delay pipeline is reset with the core). Memory is not reset (R330), nor are the model's own inbox, read
value and draw counter (notes/assumptions/12.md). -/
def State.hardReset (s : State) : State :=
  { s with ppu := Ppu.reset, pending := [], handed := [], splitWrites := [] }

/-! ## The start of a cycle (40_scanline_events.md R130, 70_reset_and_hazards.md R331) -/

/-- The frame boundary: after the transition into line 160 and before the next tick (40_scanline_events.md R153). -/
def State.atFrameBoundary (s : State) : Bool := decide (s.ppu.line = Config.vblankSetLine) && decide (s.ppu.cycle = 0)

/-- The host has asked for a hard reset and the block stands at the frame boundary (70_reset_and_hazards.md R331). -/
def State.resetDue (s : State) : Bool := s.resetRequested && s.atFrameBoundary

/-- A requested hard reset is applied at a frame boundary and nowhere else (70_reset_and_hazards.md R331); a request made with
the block already there is served there, and does not wait for the next boundary (DESIGN CHOICE, notes/assumptions/12.md). -/
def State.applyResetRequest (s : State) : State :=
  if s.resetDue then { s.hardReset with resetRequested := false } else s

/-- Hand a commit over: it is delivered at the start of the next tick (30_encoding.md R111, notes/assumptions/4.md). -/
def State.hand (c : Commit) (s : State) : State := { s with handed := s.handed ++ [c] }

/-- Deliver commits to the block, in the order given. -/
def State.deliver (commits : List Commit) (s : State) : State := s.onPpu (fun p => commits.foldl Ppu.applyCommit p)

/-- The queue is emptied and the commits handed over are delivered (40_scanline_events.md R130, 30_encoding.md R111). -/
def State.openCycle (s : State) : State := ({ s with handed := [] }.onPpu Ppu.beginCycle).deliver s.handed

/-- What comes between one tick and the next tick's own work, whoever calls the tick: the check for a requested reset, and the
start of the cycle. R331 puts the reset after the tick into line 160 and before the next tick; the model applies it last in
that window, after the accesses made in it, the host being the last agent of 60_exceptions.md R313, and a request made in the
window is served in it and does not wait a frame (both DESIGN CHOICE, notes/assumptions/12.md). -/
def State.beginTick (s : State) : State := s.applyResetRequest.openCycle

/-- The block's tick in the state of its cycle (40_scanline_events.md R130). -/
def State.runTick (P : Params) (s : State) : State := { s with ppu := s.ppu.tick P s.draws s.mem, draws := s.draws + 1 }

/-! ## The meanings -/

/-- TICK (40_scanline_events.md R130). -/
def execTick (s : State) : Host.Outcome State Fault Refusal := .next (s.beginTick.runTick Config.params)

/-- HBLANK_COMMIT(ℓ) (40_scanline_events.md R150): handed over, and delivered at the start of the next tick (30_encoding.md
R111). -/
def execHblankCommit (line : Byte) (s : State) : Host.Outcome State Fault Refusal :=
  .next (s.hand ⟨.hblank, line.toNat⟩)

/-- LYC_COMMIT(ℓ) (40_scanline_events.md R151): handed over, and delivered at the start of the next tick (30_encoding.md
R111). -/
def execLycCommit (line : Byte) (s : State) : Host.Outcome State Fault Refusal := .next (s.hand ⟨.lyc, line.toNat⟩)

/-- STRIP_WRITE(x, e) (60_exceptions.md R320). -/
def execStripWrite (column : BitVec 10) (entry : SpriteEntry) (s : State) : Host.Outcome State Fault Refusal :=
  .next (s.onPpu (Ppu.stripWrite column.toNat entry))

/-- HARD_RESET (70_reset_and_hazards.md R330). -/
def execHardReset (s : State) : Host.Outcome State Fault Refusal := .next s.hardReset

end Sys2Proof.Machine
end

