-- ==== Sys2Proof/Machine/Dispatch.lean ====
section
/-! DEFINITION. The meaning of every operation: one arm per constructor of Instr. -/

namespace Sys2Proof.Machine

/-- What an operation does. -/
def exec (i : Instr) (s : State) : Host.Outcome State Fault Refusal :=
  match i with
  | .wDispcnt value => Sys2Proof.Machine.execWDispcnt value s
  | .wGreenswap value => Sys2Proof.Machine.execWGreenswap value s
  | .wDispstat value => Sys2Proof.Machine.execWDispstat value s
  | .wVcount value => Sys2Proof.Machine.execWVcount value s
  | .wBg0cnt value => Sys2Proof.Machine.execWBg0cnt value s
  | .wBg1cnt value => Sys2Proof.Machine.execWBg1cnt value s
  | .wBg2cnt value => Sys2Proof.Machine.execWBg2cnt value s
  | .wBg3cnt value => Sys2Proof.Machine.execWBg3cnt value s
  | .wBg0hofs value => Sys2Proof.Machine.execWBg0hofs value s
  | .wBg0vofs value => Sys2Proof.Machine.execWBg0vofs value s
  | .wBg1hofs value => Sys2Proof.Machine.execWBg1hofs value s
  | .wBg1vofs value => Sys2Proof.Machine.execWBg1vofs value s
  | .wBg2hofs value => Sys2Proof.Machine.execWBg2hofs value s
  | .wBg2vofs value => Sys2Proof.Machine.execWBg2vofs value s
  | .wBg3hofs value => Sys2Proof.Machine.execWBg3hofs value s
  | .wBg3vofs value => Sys2Proof.Machine.execWBg3vofs value s
  | .wBg2pa value => Sys2Proof.Machine.execWBg2pa value s
  | .wBg2pb value => Sys2Proof.Machine.execWBg2pb value s
  | .wBg2pc value => Sys2Proof.Machine.execWBg2pc value s
  | .wBg2pd value => Sys2Proof.Machine.execWBg2pd value s
  | .wBg2xL value => Sys2Proof.Machine.execWBg2xL value s
  | .wBg2xH value => Sys2Proof.Machine.execWBg2xH value s
  | .wBg2yL value => Sys2Proof.Machine.execWBg2yL value s
  | .wBg2yH value => Sys2Proof.Machine.execWBg2yH value s
  | .wBg3pa value => Sys2Proof.Machine.execWBg3pa value s
  | .wBg3pb value => Sys2Proof.Machine.execWBg3pb value s
  | .wBg3pc value => Sys2Proof.Machine.execWBg3pc value s
  | .wBg3pd value => Sys2Proof.Machine.execWBg3pd value s
  | .wBg3xL value => Sys2Proof.Machine.execWBg3xL value s
  | .wBg3xH value => Sys2Proof.Machine.execWBg3xH value s
  | .wBg3yL value => Sys2Proof.Machine.execWBg3yL value s
  | .wBg3yH value => Sys2Proof.Machine.execWBg3yH value s
  | .wWin0h value => Sys2Proof.Machine.execWWin0h value s
  | .wWin1h value => Sys2Proof.Machine.execWWin1h value s
  | .wWin0v value => Sys2Proof.Machine.execWWin0v value s
  | .wWin1v value => Sys2Proof.Machine.execWWin1v value s
  | .wWinin value => Sys2Proof.Machine.execWWinin value s
  | .wWinout value => Sys2Proof.Machine.execWWinout value s
  | .wMosaic value => Sys2Proof.Machine.execWMosaic value s
  | .wUnused04E value => Sys2Proof.Machine.execWUnused04E value s
  | .wBldcnt value => Sys2Proof.Machine.execWBldcnt value s
  | .wBldalpha value => Sys2Proof.Machine.execWBldalpha value s
  | .wBldy value => Sys2Proof.Machine.execWBldy value s
  | .wUnused056 value => Sys2Proof.Machine.execWUnused056 value s
  | .w16Odd offset value => Sys2Proof.Machine.execW16Odd offset value s
  | .w8 offset value => Sys2Proof.Machine.execW8 offset value s
  | .w32 offset value => Sys2Proof.Machine.execW32 offset value s
  | .r8 offset => Sys2Proof.Machine.execR8 offset s
  | .r16 offset => Sys2Proof.Machine.execR16 offset s
  | .r32 offset => Sys2Proof.Machine.execR32 offset s
  | .tick => Sys2Proof.Machine.execTick s
  | .hblankCommit line => Sys2Proof.Machine.execHblankCommit line s
  | .lycCommit line => Sys2Proof.Machine.execLycCommit line s
  | .stripWrite column entry => Sys2Proof.Machine.execStripWrite column entry s
  | .hardReset => Sys2Proof.Machine.execHardReset s

end Sys2Proof.Machine
end

