-- ==== Sys2Proof/Machine/Scheduler.lean ====
section
/-! DEFINITION. The agents around the block as far as the spec states their contract: the scheduler's cycle with the delay
pipeline's commits (60_exceptions.md R302, 20_memory.md R75), split memory writes (20_memory.md R77), the memory system's
writes (30_encoding.md R111), the host (60_exceptions.md R323, 70_reset_and_hazards.md R331, 10_state.md R37). -/

namespace Sys2Proof.Machine

/-! ## The delay pipeline's commits (60_exceptions.md R302) -/

/-- One cycle passes for every scheduled commit. -/
def PendingCommit.countDown (c : PendingCommit) : PendingCommit := { c with left := c.left - 1 }

/-- The commit an event schedules. -/
def PendingCommit.ofEvent (P : Params) : PpuEvent → Option PendingCommit
  | .scheduleHBlankCommit line => some ⟨.hblank, line, P.hblankFlagDelay⟩
  | .scheduleLycCompare line => some ⟨.lyc, line, P.lycDelay⟩
  | .irqRequest _ => none
  | .dmaTrigger _ => none
  | .spriteEvalReset _ => none

/-- The commit that a scheduled commit becomes when its delay has run out. -/
def PendingCommit.commit (c : PendingCommit) : Commit := ⟨c.kind, c.line⟩

/-- Deliver the commits that fall due: each exactly once, in an order that is left open (60_exceptions.md R305,
notes/assumptions/13.md). -/
def State.deliverDue (P : Params) (s : State) : State :=
  let now := s.pending.map PendingCommit.countDown
  let due := (now.filter (fun c => c.left = 0)).map PendingCommit.commit
  { s with pending := now.filter (fun c => c.left ≠ 0) }.deliver (if P.commitsReversed s.draws then due.reverse else due)

/-- Take the commits that this cycle's events schedule. -/
def State.takeSchedules (P : Params) (s : State) : State :=
  { s with pending := s.pending ++ s.ppu.q.filterMap (PendingCommit.ofEvent P) }

/-! ## Memory writes -/

/-- Store a halfword into a region. -/
def State.storeHalf (s : State) (w : HalfWrite) : State := { s with mem := s.mem.writeHalf w.space w.offset w.value }

/-- One half of a split write lands in a cycle in which the renderer is not busy (20_memory.md R77, R343;
notes/assumptions/14.md). -/
def State.landSplitWrite (P : Params) (s : State) : State :=
  match s.splitWrites with
  | [] => s
  | w :: rest =>
    if P.rendererBusy s.ppu.line s.ppu.cycle s.ppu.regs then s else { s with splitWrites := rest }.storeHalf w

/-- The memory system writes `n` bytes at an offset: outside the region it faults (20_memory.md R60), misaligned it is
refused (91_not_in_source.md N12, notes/assumptions/15.md). -/
def guardWrite (space : Space) (offset n : Nat) (t : State) : Host.Outcome State Fault Refusal :=
  if space.size < offset + n then .fault .memoryOutsideRegion
  else if offset % n ≠ 0 then .refused .misalignedMemoryWrite
  else .next t

/-- `mem` of 30_encoding.md R111. -/
def State.writeHalfInput (s : State) (space : Space) (offset : Nat) (v : Half) : Host.Outcome State Fault Refusal :=
  guardWrite space offset 2 (s.storeHalf ⟨space, offset, v⟩)

/-- The two halves of a 32-bit write, low first (70_reset_and_hazards.md R343). -/
def wordHalves (space : Space) (offset : Nat) (v : OpWord) : List HalfWrite :=
  [⟨space, offset, v.extractLsb' 0 16⟩, ⟨space, offset + 2, v.extractLsb' 16 16⟩]

/-- A 32-bit write: split for VRAM and palette RAM (20_memory.md R77); OAM, which no rule splits and the block does not
read, takes both halves at once (notes/assumptions/14.md). -/
def State.writeWordInput (s : State) (space : Space) (offset : Nat) (v : OpWord) : Host.Outcome State Fault Refusal :=
  guardWrite space offset 4 (match space with
    | .oam => (wordHalves space offset v).foldl State.storeHalf s
    | .vram => { s with splitWrites := s.splitWrites ++ wordHalves space offset v }
    | .pal => { s with splitWrites := s.splitWrites ++ wordHalves space offset v })

/-! ## The scheduler's cycle (20_memory.md R75, 70_reset_and_hazards.md R352) -/

/-- One cycle of the scheduler: what every tick begins with, the commits that fall due, one split half that may land, the
block's tick, and the commits its events schedule (20_memory.md R75, notes/assumptions/12.md, 13.md). -/
def State.schedulerCycle (P : Params) (s : State) : State :=
  (((s.beginTick.deliverDue P).landSplitWrite P).runTick P).takeSchedules P

/-! ## Inputs -/

/-- Perform an operation word with its operand word: the operation it selects, or no effect (30_encoding.md R108, R112). -/
def performOp (w o : OpWord) (s : State) : Host.Outcome State Fault Refusal :=
  match decode w o with
  | .ok i => exec i s
  | .error _ => .next (selectsNothing w s)

/-- Perform one input. -/
def performInput (i : Input) (s : State) : Host.Outcome State Fault Refusal :=
  match i with
  | .op w o => performOp w o s
  | .cycle => .next (s.schedulerCycle Config.params)
  | .writeHalf space offset v => s.writeHalfInput space offset v
  | .writeWord space offset v => s.writeWordInput space offset v
  | .requestReset => .next { s with resetRequested := true }

/-- What happens next: the first input of the inbox, or, when no agent has anything to do, the scheduler's next cycle
(60_exceptions.md R324: the block is ticked every cycle; notes/assumptions/2.md). -/
def performNext (s : State) : Host.Outcome State Fault Refusal :=
  match s.inbox with
  | [] => .next (s.schedulerCycle Config.params)
  | i :: rest => performInput i { s with inbox := rest }

/-! ## The host (60_exceptions.md R322, R323; 10_state.md R37) -/

/-- From `s` to `t` a vertical-blank rising edge is observed: the transition into line 160 (40_scanline_events.md R153). -/
def frameEdge (s t : State) : Bool := !s.atFrameBoundary && t.atFrameBoundary

/-- advanceFrame (R323): steps, the inputs standing in the inbox among them, until a vertical-blank rising edge has been
observed, at most `fuel`: the framebuffer as it stands after that tick, and the state then. A requested reset is still to be
applied there, by the next tick (R331, notes/assumptions/12.md). None where no edge is seen or an input stops. -/
def State.advanceFrame : Nat → State → Option (Framebuffer × State)
  | 0, _ => none
  | fuel + 1, s =>
    match performNext s with
    | .next t => if frameEdge s t then some (t.ppu.fb, t) else State.advanceFrame fuel t
    | .fault _ => none
    | .refused _ => none

/-- The scanline callback fires with the line when it is the configured one, and changes nothing (60_exceptions.md R322). -/
def State.scanlineCallback (s : State) (configured : Nat) : Option Nat :=
  if s.ppu.line = configured then some s.ppu.line else none

/-- Save: every field of 10_state.md R21-R34 (R37). -/
def State.save (s : State) : Ppu := s.ppu

/-- Restore (10_state.md R37). -/
def State.restore (s : State) (saved : Ppu) : State := { s with ppu := saved }

end Sys2Proof.Machine
end

