-- ==== Sys2Proof/Machine/Step.lean ====
section
/-! DEFINITION. One step of the machine, and how an operation is placed where the next step takes it. -/

namespace Sys2Proof.Machine

/-- One step (notes/assumptions/2.md): the next input, or the scheduler's next cycle. -/
def step (s : State) : Host.Outcome State Fault Refusal := performNext s

/-- `s` with an operation first in the inbox, the bits the table does not give being zero. -/
def State.withFetchWord (s : State) (nbits w : Nat) : State :=
  { s with inbox := .op (tableOpWord nbits w) (tableOperand nbits w) :: s.inbox }

end Sys2Proof.Machine
end

