-- ==== Sys2Proof/Safety.lean ====
section
/-! DEFINITION. What counts as a legal state of the machine and as a run that claims may speak of. -/

namespace Sys2Proof.Machine

/-- Only the stored bits of a register are ever set (10_state.md R23). -/
structure Regs.Stored (r : Regs) : Prop where
  dispstat : r.dispstat &&& 0x00C7 = 0
  bg0cnt : r.bgcnt.bg0 &&& 0x2000 = 0
  bg1cnt : r.bgcnt.bg1 &&& 0x2000 = 0
  winin : r.winin &&& 0xC0C0 = 0
  winout : r.winout &&& 0xC0C0 = 0
  bldcnt : r.bldcnt &&& 0xC000 = 0
  bldalpha : r.bldalpha &&& 0xE0E0 = 0

/-- The background-enable delay of layer `i` (10_state.md R25, 41_register_access.md R161): the countdown is at most
BG_ENABLE_DELAY_LINES, and a layer that is drawn or counting has its enable bit set. -/
structure Ppu.EnableOk (P : Params) (p : Ppu) (i : BgId) : Prop where
  bounded : p.bgCountdown.get i ≤ P.bgEnableDelayLines
  counting : p.bgCountdown.get i ≠ 0 → bgEnableBit p.regs.dispcnt i = true
  active : p.bgActive.get i = true → bgEnableBit p.regs.dispcnt i = true

/-- An event that names a line names one of the frame (60_exceptions.md R300, 10_state.md R21). -/
def PpuEvent.OfFrame : PpuEvent → Prop
  | .irqRequest _ => True
  | .dmaTrigger _ => True
  | .scheduleHBlankCommit line => line < 228
  | .scheduleLycCompare line => line < 228
  | .spriteEvalReset line => line < 228

/-- The block's invariant: the position is a position (10_state.md R21), only stored bits are set (R23), vblankFlag is true
exactly on lines 160-226 (40_scanline_events.md R146), the enable delays are legal (R25), the latched mosaic cell is 1..16
(R29), the strips (R30) and the framebuffer (R32) are in canonical form, and the events of the queue (R33) are of lines of the
frame. -/
structure Ppu.Inv (P : Params) (p : Ppu) : Prop where
  line : p.line < 228
  cycle : p.cycle < 1232
  stored : p.regs.Stored
  vblank : p.vblankFlag = (decide (160 ≤ p.line) && decide (p.line ≤ 226))
  enable : ∀ i, p.EnableOk P i
  cell : ∀ b, 1 ≤ (p.latch.get b).mh ∧ (p.latch.get b).mh ≤ 16
  strip0 : Sparse.wf SpriteEntry.empty 240 0 p.strip0 = true
  strip1 : Sparse.wf SpriteEntry.empty 240 0 p.strip1 = true
  fb : Sparse.wf (0 : Color15) 38400 0 p.fb = true
  queue : ∀ e ∈ p.q, e.OfFrame

/-- A half that has not landed lies inside its region. -/
def HalfWrite.InRegion (w : HalfWrite) : Prop := w.offset + 2 ≤ w.space.size

/-- A scheduled commit is of a line and still has a cycle to wait (60_exceptions.md R302). -/
def PendingCommit.Ok (c : PendingCommit) : Prop := c.line < 228 ∧ 1 ≤ c.left ∧ c.left ≤ 1232

/-- The machine's invariant. -/
structure State.Inv (P : Params) (s : State) : Prop where
  ppu : s.ppu.Inv P
  mem : s.mem.wf = true
  pending : ∀ c ∈ s.pending, c.Ok
  split : ∀ w ∈ s.splitWrites, w.InRegion

/-- A run that has not met the refusal mark: the premise of every claim about the framebuffer (60_exceptions.md R325). -/
def State.Trusted (s : State) : Prop := s.ppu.refused = false

/-- What no register write changes (41_register_access.md R160-R184): the position, the status flags, the mosaic references,
the line latches, the strips, the framebuffer and the event queue. -/
structure Ppu.RegWritten (p q : Ppu) : Prop where
  line : q.line = p.line
  cycle : q.cycle = p.cycle
  vblankFlag : q.vblankFlag = p.vblankFlag
  hblankFlag : q.hblankFlag = p.hblankFlag
  vcountFlag : q.vcountFlag = p.vcountFlag
  mix : q.mix = p.mix
  miy : q.miy = p.miy
  latch : q.latch = p.latch
  strip0 : q.strip0 = p.strip0
  strip1 : q.strip1 = p.strip1
  drawSel : q.drawSel = p.drawSel
  fb : q.fb = p.fb
  queue : q.q = p.q

/-- Everything but the block is as it was. -/
structure State.SameAround (s t : State) : Prop where
  mem : t.mem = s.mem
  pending : t.pending = s.pending
  handed : t.handed = s.handed
  splitWrites : t.splitWrites = s.splitWrites
  resetRequested : t.resetRequested = s.resetRequested
  inbox : t.inbox = s.inbox
  lastRead : t.lastRead = s.lastRead
  draws : t.draws = s.draws

/-- The operations that are neither reads nor control operations: the register writes (30_encoding.md R108, kind 00). -/
def IsRegisterWrite (i : Instr) : Prop := owKind (encode i).1 = 0

/-- The state with only the registers changed. -/
def State.setRegs (s : State) (f : Regs → Regs) : State := { s with ppu := { s.ppu with regs := f s.ppu.regs } }

/-- `t` is `s` after BGX[b] has been written with `v`, with the reload effect of the policy (41_register_access.md R171,
R172), and nothing else changed. -/
structure State.ReloadedX (s t : State) (b : AffId) (v : S28) : Prop where
  written : t = { s with ppu := { s.ppu with
    regs := { s.ppu.regs with bgx := s.ppu.regs.bgx.set b v }, pendX := t.ppu.pendX, ix := t.ppu.ix } }
  pend : t.ppu.pendX =
    if Config.params.affineWritePolicy = .nextLineReload then s.ppu.pendX.set b true else s.ppu.pendX
  reload : t.ppu.ix =
    if Config.params.affineWritePolicy = .immediateReload then s.ppu.ix.set b v else s.ppu.ix

/-- `t` is `s` after BGY[b] has been written with `v`, with the reload effect of the policy (41_register_access.md R171,
R172), and nothing else changed. -/
structure State.ReloadedY (s t : State) (b : AffId) (v : S28) : Prop where
  written : t = { s with ppu := { s.ppu with
    regs := { s.ppu.regs with bgy := s.ppu.regs.bgy.set b v }, pendY := t.ppu.pendY, iy := t.ppu.iy } }
  pend : t.ppu.pendY =
    if Config.params.affineWritePolicy = .nextLineReload then s.ppu.pendY.set b true else s.ppu.pendY
  reload : t.ppu.iy =
    if Config.params.affineWritePolicy = .immediateReload then s.ppu.iy.set b v else s.ppu.iy

/-- The stored halfword at an even offset, register by register, write-only registers included (10_state.md R23, 30_encoding.md
R109); the halfwords that store nothing are 0 (notes/assumptions/10.md). -/
def Regs.storedTable (r : Regs) (o : Nat) : Half :=
  if o = 0x000 then r.dispcnt
  else if o = 0x004 then r.dispstat
  else if o = 0x008 then r.bgcnt.bg0
  else if o = 0x00A then r.bgcnt.bg1
  else if o = 0x00C then r.bgcnt.bg2
  else if o = 0x00E then r.bgcnt.bg3
  else if o = 0x010 then r.bghofs.bg0.setWidth 16
  else if o = 0x012 then r.bgvofs.bg0.setWidth 16
  else if o = 0x014 then r.bghofs.bg1.setWidth 16
  else if o = 0x016 then r.bgvofs.bg1.setWidth 16
  else if o = 0x018 then r.bghofs.bg2.setWidth 16
  else if o = 0x01A then r.bgvofs.bg2.setWidth 16
  else if o = 0x01C then r.bghofs.bg3.setWidth 16
  else if o = 0x01E then r.bgvofs.bg3.setWidth 16
  else if o = 0x020 then r.bgpa.bg2
  else if o = 0x022 then r.bgpb.bg2
  else if o = 0x024 then r.bgpc.bg2
  else if o = 0x026 then r.bgpd.bg2
  else if o = 0x028 then r.bgx.bg2.extractLsb' 0 16
  else if o = 0x02A then (r.bgx.bg2.extractLsb' 16 12).setWidth 16
  else if o = 0x02C then r.bgy.bg2.extractLsb' 0 16
  else if o = 0x02E then (r.bgy.bg2.extractLsb' 16 12).setWidth 16
  else if o = 0x030 then r.bgpa.bg3
  else if o = 0x032 then r.bgpb.bg3
  else if o = 0x034 then r.bgpc.bg3
  else if o = 0x036 then r.bgpd.bg3
  else if o = 0x038 then r.bgx.bg3.extractLsb' 0 16
  else if o = 0x03A then (r.bgx.bg3.extractLsb' 16 12).setWidth 16
  else if o = 0x03C then r.bgy.bg3.extractLsb' 0 16
  else if o = 0x03E then (r.bgy.bg3.extractLsb' 16 12).setWidth 16
  else if o = 0x040 then r.win0h
  else if o = 0x042 then r.win1h
  else if o = 0x044 then r.win0v
  else if o = 0x046 then r.win1v
  else if o = 0x048 then r.winin
  else if o = 0x04A then r.winout
  else if o = 0x04C then r.mosaic
  else if o = 0x050 then r.bldcnt
  else if o = 0x052 then r.bldalpha
  else if o = 0x054 then r.bldy.setWidth 16
  else 0

/-- The read table of 41_register_access.md R185 by offset; none is OPEN_BUS. -/
def Ppu.readTable (p : Ppu) (o : Nat) : Option Half :=
  if o = 0x000 then some p.regs.dispcnt
  else if o = 0x004 then some p.dispstatRead
  else if o = 0x006 then some (BitVec.ofNat 16 p.line)
  else if o = 0x008 then some p.regs.bgcnt.bg0
  else if o = 0x00A then some p.regs.bgcnt.bg1
  else if o = 0x00C then some p.regs.bgcnt.bg2
  else if o = 0x00E then some p.regs.bgcnt.bg3
  else if o = 0x048 then some p.regs.winin
  else if o = 0x04A then some p.regs.winout
  else if o = 0x050 then some p.regs.bldcnt
  else if o = 0x052 then some p.regs.bldalpha
  else none

/-- READ16 of the table with the OPEN_BUS draw of the operation in state `s`. -/
def State.tableRead (s : State) (slot : BusSlot) (o : Nat) : Half :=
  (s.ppu.readTable o).getD (Config.params.openBus s.draws slot)

/-- `n` TICK operations. -/
def State.ticks : Nat → State → State
  | 0, s => s
  | n + 1, s => State.ticks n (s.beginTick.runTick Config.params)

/-- `n` cycles of the scheduler. -/
def State.cycles : Nat → State → State
  | 0, s => s
  | n + 1, s => State.cycles n (s.schedulerCycle Config.params)

end Sys2Proof.Machine
end

