-- ==== Sys2Proof/Certificates/Slice0/Obligations.lean ====
section
/-! DEFINITION. The statements for the provers, from the numbered rules of spec/. A value the source leaves open is a
constant of Config without a body: a statement that mentions one holds for every value of it. -/

open Sys2Proof Sys2Proof.Machine

/-! ## Encoding and step -/

/-- Decoding the words of a well-formed operation gives the operation back, every operand included (30_encoding.md R108,
R109; the operand word is the model's own, notes/assumptions/1.md). -/
def Obligations.DecodeOfEncodeIsTheOperation : Prop :=
  ∀ i : Instr, i.wellFormed = true → decode (encode i).1 (encode i).2 = .ok i

/-- Each operation word selects at most one operation (30_encoding.md R108): what a word decodes to has that word as its
operation word, and two decodings of one word, whatever their operands, are of one constructor. -/
def Obligations.DecodedWordIsTheEncodedWord : Prop :=
  (∀ (w o : OpWord) (i : Instr), decode w o = .ok i → (encode i).1 = w) ∧
  ∀ (w o o' : OpWord) (i j : Instr), decode w o = .ok i → decode w o' = .ok j → i.ctorIdx = j.ctorIdx

/-- The last paragraph of 30_encoding.md R108: width code 11 of a register access, nonzero OW[27:10], register offsets of
0x058 and above and strip columns above 239 select no operation. -/
def Obligations.IllegalSelectorsSelectNothing : Prop :=
  ∀ (w o : OpWord),
    (w.extractLsb' 10 18 ≠ 0 ∨
      (w.extractLsb' 30 2 = 0 ∨ w.extractLsb' 30 2 = 1) ∧ w.extractLsb' 28 2 = 3 ∨
      (w.extractLsb' 30 2 = 0 ∨ w.extractLsb' 30 2 = 1) ∧ 0x058 ≤ (w.extractLsb' 0 10).toNat ∨
      w.extractLsb' 30 2 = 2 ∧ w.extractLsb' 28 2 = 3 ∧ 240 ≤ (w.extractLsb' 0 10).toNat) →
    ∃ reason, decode w o = .error reason

/-- 30_encoding.md R112: a word that selects nothing has no effect, and returns OPEN_BUS if it is a read. -/
def Obligations.SelectingNothingHasNoEffect : Prop :=
  ∀ (w o : OpWord) (s : State) (reason : Reject), decode w o = .error reason →
    performOp w o s = .next (if owKind w = 1 then
      s.answerRead (if owCode w = 0 then ((Config.params.openBus s.draws .low).extractLsb' 0 8).setWidth 32
        else if owCode w = 1 then (Config.params.openBus s.draws .low).setWidth 32
        else Config.params.openBus s.draws .high ++ Config.params.openBus s.draws .low)
      else s)

/-- An operation at the head of the inbox whose words decode is taken off it and run (30_encoding.md R111;
notes/assumptions/2.md); with nothing in the inbox, or with a cycle at its head, a step is one cycle of the scheduler
(60_exceptions.md R324). -/
def Obligations.StepRunsTheDecodedOperation : Prop :=
  ∀ (s : State) (rest : List Input),
    (∀ (w o : OpWord) (i : Instr), s.inbox = .op w o :: rest → decode w o = .ok i →
      step s = exec i { s with inbox := rest }) ∧
    (s.inbox = [] → step s = .next (s.schedulerCycle Config.params)) ∧
    (s.inbox = .cycle :: rest → step s = .next (State.schedulerCycle Config.params { s with inbox := rest }))

/-- Words written out from the spec's encoding, one of each kind and width (30_encoding.md R108, R111, 95_test_vectors.md),
decode to their operations. The places of a line and of a strip entry in the operand word are the model's choice
(notes/assumptions/1.md). -/
def Obligations.WrittenOutWordsDecode : Prop :=
  decode 0x10000000 0x0403 = .ok (.wDispcnt 0x0403) ∧
  decode 0x00000001 0x04 = .ok (.w8 1 0x04) ∧
  decode 0x20000028 0x0FFFFF00 = .ok (.w32 0x028 0x0FFFFF00) ∧
  decode 0x10000029 0x1234 = .ok (.w16Odd 0x029 0x1234) ∧
  decode 0x40000005 0 = .ok (.r8 5) ∧
  decode 0x50000004 0 = .ok (.r16 4) ∧
  decode 0x60000050 0 = .ok (.r32 0x050) ∧
  decode 0x80000000 0 = .ok .tick ∧
  decode 0x90000000 100 = .ok (.hblankCommit 100) ∧
  decode 0xA0000000 100 = .ok (.lycCommit 100) ∧
  decode 0xB0000007 0x00B = .ok (.stripWrite 7 ⟨true, 5, 0, false, false⟩) ∧
  decode 0xC0000000 0 = .ok .hardReset

/-! ## Register writes -/

/-- 41_register_access.md R161: DISPCNT is stored, and each layer's enable delay follows its enable bit: clearing it
deactivates at once, a rising edge starts the countdown (or activates at once where the delay is 0), and re-writing a set
bit changes nothing. -/
def Obligations.WriteDispcnt : Prop :=
  ∀ (v : Half) (s : State), ∃ t, exec (.wDispcnt v) s = .next t ∧
    t = { s with ppu := { s.ppu with
      regs := { s.ppu.regs with dispcnt := v }
      bgActive := t.ppu.bgActive
      bgCountdown := t.ppu.bgCountdown } } ∧
    ∀ i : BgId,
      t.ppu.bgActive.get i = (if v.getLsbD (8 + i.toNat) = false then false
        else if s.ppu.regs.dispcnt.getLsbD (8 + i.toNat) = false ∧ Config.params.bgEnableDelayLines = 0 then true
        else s.ppu.bgActive.get i) ∧
      t.ppu.bgCountdown.get i = (if v.getLsbD (8 + i.toNat) = false then 0
        else if s.ppu.regs.dispcnt.getLsbD (8 + i.toNat) = false ∧ Config.params.bgEnableDelayLines ≠ 0 then
          Config.params.bgEnableDelayLines
        else s.ppu.bgCountdown.get i)

/-- 41_register_access.md R162: bits 5:3 and 15:8 are stored, and the flags are not written. -/
def Obligations.WriteDispstat : Prop :=
  ∀ (v : Half) (s : State), exec (.wDispstat v) s = .next (s.setRegs fun r => { r with dispstat := v &&& 0xFF38 })

/-- 41_register_access.md R164: BGCNT[i] is stored, without bit 13 for BG0 and BG1. -/
def Obligations.WriteBgcnt : Prop :=
  ∀ (v : Half) (s : State),
    exec (.wBg0cnt v) s = .next (s.setRegs fun r => { r with bgcnt := r.bgcnt.set .bg0 (v &&& 0xDFFF) }) ∧
    exec (.wBg1cnt v) s = .next (s.setRegs fun r => { r with bgcnt := r.bgcnt.set .bg1 (v &&& 0xDFFF) }) ∧
    exec (.wBg2cnt v) s = .next (s.setRegs fun r => { r with bgcnt := r.bgcnt.set .bg2 v }) ∧
    exec (.wBg3cnt v) s = .next (s.setRegs fun r => { r with bgcnt := r.bgcnt.set .bg3 v })

/-- 41_register_access.md R165, R166: bits 8:0 are stored, and nothing else changes. -/
def Obligations.WriteScroll : Prop :=
  ∀ (v : Half) (s : State),
    exec (.wBg0hofs v) s = .next (s.setRegs fun r => { r with bghofs := r.bghofs.set .bg0 (v.extractLsb' 0 9) }) ∧
    exec (.wBg1hofs v) s = .next (s.setRegs fun r => { r with bghofs := r.bghofs.set .bg1 (v.extractLsb' 0 9) }) ∧
    exec (.wBg2hofs v) s = .next (s.setRegs fun r => { r with bghofs := r.bghofs.set .bg2 (v.extractLsb' 0 9) }) ∧
    exec (.wBg3hofs v) s = .next (s.setRegs fun r => { r with bghofs := r.bghofs.set .bg3 (v.extractLsb' 0 9) }) ∧
    exec (.wBg0vofs v) s = .next (s.setRegs fun r => { r with bgvofs := r.bgvofs.set .bg0 (v.extractLsb' 0 9) }) ∧
    exec (.wBg1vofs v) s = .next (s.setRegs fun r => { r with bgvofs := r.bgvofs.set .bg1 (v.extractLsb' 0 9) }) ∧
    exec (.wBg2vofs v) s = .next (s.setRegs fun r => { r with bgvofs := r.bgvofs.set .bg2 (v.extractLsb' 0 9) }) ∧
    exec (.wBg3vofs v) s = .next (s.setRegs fun r => { r with bgvofs := r.bgvofs.set .bg3 (v.extractLsb' 0 9) })

/-- 41_register_access.md R167-R170: the matrix word is stored, and nothing else changes. -/
def Obligations.WriteMatrix : Prop :=
  ∀ (v : Half) (s : State),
    exec (.wBg2pa v) s = .next (s.setRegs fun r => { r with bgpa := r.bgpa.set .bg2 v }) ∧
    exec (.wBg2pb v) s = .next (s.setRegs fun r => { r with bgpb := r.bgpb.set .bg2 v }) ∧
    exec (.wBg2pc v) s = .next (s.setRegs fun r => { r with bgpc := r.bgpc.set .bg2 v }) ∧
    exec (.wBg2pd v) s = .next (s.setRegs fun r => { r with bgpd := r.bgpd.set .bg2 v }) ∧
    exec (.wBg3pa v) s = .next (s.setRegs fun r => { r with bgpa := r.bgpa.set .bg3 v }) ∧
    exec (.wBg3pb v) s = .next (s.setRegs fun r => { r with bgpb := r.bgpb.set .bg3 v }) ∧
    exec (.wBg3pc v) s = .next (s.setRegs fun r => { r with bgpc := r.bgpc.set .bg3 v }) ∧
    exec (.wBg3pd v) s = .next (s.setRegs fun r => { r with bgpd := r.bgpd.set .bg3 v })

/-- 41_register_access.md R171, R172: one half of the 28-bit reference is replaced (bits 15:12 of a high half are dropped),
and the whole value is marked for reload or reloaded, by the policy. -/
def Obligations.WriteReference : Prop :=
  ∀ (v : Half) (s : State),
    (∃ t, exec (.wBg2xL v) s = .next t ∧ s.ReloadedX t .bg2 (s.ppu.regs.bgx.bg2.extractLsb' 16 12 ++ v)) ∧
    (∃ t, exec (.wBg2xH v) s = .next t ∧
      s.ReloadedX t .bg2 (v.extractLsb' 0 12 ++ s.ppu.regs.bgx.bg2.extractLsb' 0 16)) ∧
    (∃ t, exec (.wBg2yL v) s = .next t ∧ s.ReloadedY t .bg2 (s.ppu.regs.bgy.bg2.extractLsb' 16 12 ++ v)) ∧
    (∃ t, exec (.wBg2yH v) s = .next t ∧
      s.ReloadedY t .bg2 (v.extractLsb' 0 12 ++ s.ppu.regs.bgy.bg2.extractLsb' 0 16)) ∧
    (∃ t, exec (.wBg3xL v) s = .next t ∧ s.ReloadedX t .bg3 (s.ppu.regs.bgx.bg3.extractLsb' 16 12 ++ v)) ∧
    (∃ t, exec (.wBg3xH v) s = .next t ∧
      s.ReloadedX t .bg3 (v.extractLsb' 0 12 ++ s.ppu.regs.bgx.bg3.extractLsb' 0 16)) ∧
    (∃ t, exec (.wBg3yL v) s = .next t ∧ s.ReloadedY t .bg3 (s.ppu.regs.bgy.bg3.extractLsb' 16 12 ++ v)) ∧
    (∃ t, exec (.wBg3yH v) s = .next t ∧
      s.ReloadedY t .bg3 (v.extractLsb' 0 12 ++ s.ppu.regs.bgy.bg3.extractLsb' 0 16))

/-- 41_register_access.md R173-R176: the window registers. -/
def Obligations.WriteWindow : Prop :=
  ∀ (v : Half) (s : State),
    exec (.wWin0h v) s = .next (s.setRegs fun r => { r with win0h := v }) ∧
    exec (.wWin1h v) s = .next (s.setRegs fun r => { r with win1h := v }) ∧
    exec (.wWin0v v) s = .next (s.setRegs fun r => { r with win0v := v }) ∧
    exec (.wWin1v v) s = .next (s.setRegs fun r => { r with win1v := v }) ∧
    exec (.wWinin v) s = .next (s.setRegs fun r => { r with winin := v &&& 0x3F3F }) ∧
    exec (.wWinout v) s = .next (s.setRegs fun r => { r with winout := v &&& 0x3F3F })

/-- 41_register_access.md R177-R180: mosaic and blend registers. -/
def Obligations.WriteMosaicAndBlend : Prop :=
  ∀ (v : Half) (s : State),
    exec (.wMosaic v) s = .next (s.setRegs fun r => { r with mosaic := v }) ∧
    exec (.wBldcnt v) s = .next (s.setRegs fun r => { r with bldcnt := v &&& 0x3FFF }) ∧
    exec (.wBldalpha v) s = .next (s.setRegs fun r => { r with bldalpha := v &&& 0x1F1F }) ∧
    exec (.wBldy v) s = .next (s.setRegs fun r => { r with bldy := v.extractLsb' 0 5 })

/-- 41_register_access.md R163, R181, R184: a write of VCOUNT or of an unused offset is ignored; enabling green swap sets
`refused`, and otherwise a green-swap write is ignored. -/
def Obligations.IgnoredWritesAndGreenswap : Prop :=
  ∀ (v : Half) (s : State),
    exec (.wVcount v) s = .next s ∧ exec (.wUnused04E v) s = .next s ∧ exec (.wUnused056 v) s = .next s ∧
    exec (.wGreenswap v) s =
      .next (if v.getLsbD 0 = true then { s with ppu := { s.ppu with refused := true } } else s)

/-- 30_encoding.md R109: a 16-bit write at an odd offset is performed at offset - 1. -/
def Obligations.OddHalfwordWriteGoesToTheEvenOffset : Prop :=
  ∀ (o : BitVec 10) (v : Half) (s : State), (Instr.w16Odd o v).wellFormed = true →
    ∃ i t, halfWriteAt (o.toNat - 1) v = some i ∧ exec i s = .next t ∧ exec (.w16Odd o v) s = .next t

/-- 30_encoding.md R109: an 8-bit write is the 16-bit write, at the even offset, of the stored halfword with the addressed
byte replaced; the stored halfword is given register by register in Regs.storedTable, write-only registers included. That a
halfword which stores nothing counts as 0 is the model's choice (DEDUCED, notes/assumptions/10.md). -/
def Obligations.ByteWriteMergesWithTheStoredHalfword : Prop :=
  ∀ (o : BitVec 10) (v : Byte) (s : State), (Instr.w8 o v).wellFormed = true →
    ∃ i t, halfWriteAt (o.toNat - o.toNat % 2)
        (if o.toNat % 2 = 0 then (s.ppu.regs.storedTable o.toNat).extractLsb' 8 8 ++ v
          else v ++ (s.ppu.regs.storedTable (o.toNat - 1)).extractLsb' 0 8) = some i ∧
      exec i s = .next t ∧ exec (.w8 o v) s = .next t

/-- 30_encoding.md R109: a 32-bit write is a 16-bit write of the low half at its offset and then one of the high half at its
offset + 2. -/
def Obligations.WordWriteIsLowHalfThenHighHalf : Prop :=
  ∀ (o : BitVec 10) (v : OpWord) (s : State), (Instr.w32 o v).wellFormed = true →
    ∃ lo hi t u, halfWriteAt o.toNat (v.extractLsb' 0 16) = some lo ∧
      halfWriteAt (o.toNat + 2) (v.extractLsb' 16 16) = some hi ∧
      exec lo s = .next t ∧ exec hi t = .next u ∧ exec (.w32 o v) s = .next u

/-- 41_register_access.md R183: a byte write leaves the other byte of the stored halfword, register by register as
Regs.storedTable gives it, as it was. Only stored bits are assumed to be set, which every step keeps. -/
def Obligations.ByteWriteKeepsTheOtherByte : Prop :=
  ∀ (o : BitVec 10) (v : Byte) (s : State), (Instr.w8 o v).wellFormed = true → s.ppu.regs.Stored →
    ∃ t, exec (.w8 o v) s = .next t ∧
      (if o.toNat % 2 = 0 then
        (t.ppu.regs.storedTable o.toNat).extractLsb' 8 8 = (s.ppu.regs.storedTable o.toNat).extractLsb' 8 8
      else
        (t.ppu.regs.storedTable (o.toNat - 1)).extractLsb' 0 8 = (s.ppu.regs.storedTable (o.toNat - 1)).extractLsb' 0 8)

/-- What no register write of any width changes: the position, the flags, the latches, the strips, the framebuffer, the
event queue, and everything outside the block, memory included (41_register_access.md R160-R184). -/
def Obligations.RegisterWritesKeepTheRest : Prop :=
  ∀ (i : Instr) (s : State), IsRegisterWrite i → ∃ t, exec i s = .next t ∧ s.ppu.RegWritten t.ppu ∧ s.SameAround t

/-! ## Register reads -/

/-- 41_register_access.md R185: a 16-bit read at an even offset returns the table's value, or an OPEN_BUS draw; at an odd
offset it returns a free value (DESIGN CHOICE, notes/assumptions/9.md). No state of the block changes. -/
def Obligations.HalfwordReadReturnsTheTable : Prop :=
  ∀ (o : BitVec 10) (s : State), (Instr.r16 o).wellFormed = true →
    exec (.r16 o) s = .next { s with
      lastRead := some ((if o.toNat % 2 = 0 then s.tableRead .low o.toNat
        else Config.params.openBus s.draws .low).setWidth 32)
      draws := s.draws + 1 }

/-- 41_register_access.md R185: an 8-bit read returns the addressed byte of the halfword. -/
def Obligations.ByteReadReturnsTheAddressedByte : Prop :=
  ∀ (o : BitVec 10) (s : State), (Instr.r8 o).wellFormed = true →
    exec (.r8 o) s = .next { s with
      lastRead := some ((if o.toNat % 2 = 0 then (s.tableRead .low o.toNat).extractLsb' 0 8
        else (s.tableRead .low (o.toNat - 1)).extractLsb' 8 8).setWidth 32)
      draws := s.draws + 1 }

/-- 41_register_access.md R185: a 32-bit read returns READ16(o) + 65536·READ16(o+2). -/
def Obligations.WordReadReturnsBothHalves : Prop :=
  ∀ (o : BitVec 10) (s : State), (Instr.r32 o).wellFormed = true →
    ∃ v, exec (.r32 o) s = .next { s with lastRead := some v, draws := s.draws + 1 } ∧
      v.toNat = (s.tableRead .low o.toNat).toNat + 65536 * (s.tableRead .high (o.toNat + 2)).toNat

/-- 41_register_access.md R186: the DISPSTAT read value, bit by bit. -/
def Obligations.DispstatReadsFlagsAndStoredBits : Prop :=
  ∀ (p : Ppu) (k : Nat), k < 16 →
    p.dispstatRead.getLsbD k =
      (if k = 0 then p.vblankFlag else if k = 1 then p.hblankFlag else if k = 2 then p.vcountFlag
        else if k = 6 ∨ k = 7 then false else p.regs.dispstat.getLsbD k)

/-! ## The tick -/

/-- 40_scanline_events.md R130, R136: where no reset is due and no commit has been handed over, a tick begins with the queue
emptied and nothing else; an idle tick then only steps the cycle counter. -/
def Obligations.IdleTickOnlyCounts : Prop :=
  ∀ s : State,
    (s.resetDue = false → s.handed = [] → s.beginTick = { s with ppu := { s.ppu with q := [] } }) ∧
    (s.ppu.cycle ≠ 0 → s.ppu.cycle ≠ 1007 → s.ppu.cycle ≠ 1231 →
      (160 ≤ s.ppu.line ∨ ∀ x, x < 240 → Config.params.renderCycle x ≠ s.ppu.cycle) →
      exec .tick s = .next { s.beginTick with
        ppu := { s.beginTick.ppu with cycle := s.ppu.cycle + 1 }
        draws := s.draws + 1 })

/-- 40_scanline_events.md R131, R132: at cycle 0 the enable countdowns are committed, the strips swap and the new
evaluation buffer is empty; nothing else but the counter changes after the start of the cycle. -/
def Obligations.CycleZeroCommitsAndSwaps : Prop :=
  ∀ s : State, s.beginTick.ppu.cycle = 0 → ∃ t, exec .tick s = .next t ∧
    let b := s.beginTick
    t = { b with
      ppu := { b.ppu with
        cycle := 1
        drawSel := !b.ppu.drawSel
        strip0 := t.ppu.strip0
        strip1 := t.ppu.strip1
        bgActive := t.ppu.bgActive
        bgCountdown := t.ppu.bgCountdown }
      draws := s.draws + 1 } ∧
    (∀ x, stripAt t.ppu.drawStrip x = stripAt b.ppu.evalStrip x) ∧
    (∀ x, stripAt t.ppu.evalStrip x = SpriteEntry.empty) ∧
    ∀ i : BgId,
      t.ppu.bgCountdown.get i = b.ppu.bgCountdown.get i - 1 ∧
      t.ppu.bgActive.get i = (if b.ppu.bgCountdown.get i = 1 then b.ppu.regs.dispcnt.getLsbD (8 + i.toNat)
        else b.ppu.bgActive.get i)

/-- 40_scanline_events.md R135: at RENDER_CYCLE(x) of a visible line the pixel (x, line) is composited from the state as it
stands, and no other entry changes (44_compositing_blending.md R280), the refusal mark not being set (60_exceptions.md
R325). -/
def Obligations.RenderTickWritesOnePixel : Prop :=
  ∀ (s : State) (x : Nat), x < 240 → s.ppu.line < 160 → s.ppu.cycle = Config.params.renderCycle x → s.Trusted →
    Sparse.wf (0 : Color15) 38400 0 s.ppu.fb = true →
    ∃ t, exec .tick s = .next t ∧
      t = { s.beginTick with
        ppu := { s.beginTick.ppu with cycle := s.ppu.cycle + 1, fb := t.ppu.fb }
        draws := s.draws + 1 } ∧
      t.ppu.fbAt x s.ppu.line = s.ppu.pixelColor Config.params s.draws s.mem x s.ppu.line ∧
      ∀ x' y, x' < 240 → (x' ≠ x ∨ y ≠ s.ppu.line) → t.ppu.fbAt x' y = s.ppu.fbAt x' y

/-- 40_scanline_events.md R140: the events of cycle 1007; the HBlank DMA trigger is suppressed on lines 160-227. -/
def Obligations.HBlankTickEmitsItsEvents : Prop :=
  ∀ s : State, s.ppu.cycle = 1007 →
    exec .tick s = .next { s.beginTick with
      ppu := { s.beginTick.ppu with
        cycle := 1008
        q := s.beginTick.ppu.q ++
          (if s.ppu.line ≤ 159 then [.dmaTrigger .hblank] else []) ++
          (if Config.params.videoCaptureLine s.ppu.line then [.dmaTrigger .videoCapture] else []) ++
          [.scheduleHBlankCommit s.ppu.line] }
      draws := s.draws + 1 }

/-- 40_scanline_events.md R145, R146: the line transition: the new position, the flags and the events; only the affine
state, of the next two statements, changes beside them. -/
def Obligations.LineEndTickEntersTheNextLine : Prop :=
  ∀ s : State, s.ppu.cycle = 1231 → ∃ t, exec .tick s = .next t ∧
    t = { s.beginTick with
      ppu := { s.beginTick.ppu with
        line := (s.ppu.line + 1) % 228
        cycle := 0
        hblankFlag := false
        vblankFlag := if (s.ppu.line + 1) % 228 = 160 then true
          else if (s.ppu.line + 1) % 228 = 227 then false else s.ppu.vblankFlag
        q := s.beginTick.ppu.q ++
          (if (s.ppu.line + 1) % 228 = 160 then
            (if s.ppu.regs.dispstat.getLsbD 3 then [.irqRequest .vblank] else []) ++ [.dmaTrigger .vblank]
          else []) ++
          [.scheduleLycCompare ((s.ppu.line + 1) % 228), .spriteEvalReset ((s.ppu.line + 1) % 228)]
        ix := t.ppu.ix
        iy := t.ppu.iy
        pendX := .const false
        pendY := .const false
        mix := t.ppu.mix
        miy := t.ppu.miy
        latch := t.ppu.latch }
      draws := s.draws + 1 }

/-- 40_scanline_events.md R147: the internal references at the line transition: reloaded at line 160 and after a write,
stepped by PB and PD modulo 2^28 after a visible line, else kept. -/
def Obligations.LineEndUpdatesTheInternalReferences : Prop :=
  ∀ s : State, s.ppu.cycle = 1231 → ∃ t, exec .tick s = .next t ∧ ∀ b : AffId,
    t.ppu.ix.get b =
      (if (s.ppu.line + 1) % 228 = 160 ∨ s.ppu.pendX.get b = true then s.ppu.regs.bgx.get b
        else if s.ppu.line ≤ 159 then BitVec.ofInt 28 ((s.ppu.ix.get b).toInt + (s.ppu.regs.bgpb.get b).toInt)
        else s.ppu.ix.get b) ∧
    t.ppu.iy.get b =
      (if (s.ppu.line + 1) % 228 = 160 ∨ s.ppu.pendY.get b = true then s.ppu.regs.bgy.get b
        else if s.ppu.line ≤ 159 then BitVec.ofInt 28 ((s.ppu.iy.get b).toInt + (s.ppu.regs.bgpd.get b).toInt)
        else s.ppu.iy.get b) ∧
    t.ppu.pendX.get b = false ∧ t.ppu.pendY.get b = false

/-- 40_scanline_events.md R148: at the transition into a visible line the mosaic references are captured on the first line of
a vertical cell and the line latch is taken; into lines 160-227 nothing is latched. -/
def Obligations.LineEndTakesTheLineLatch : Prop :=
  ∀ s : State, s.ppu.cycle = 1231 → ∃ t, exec .tick s = .next t ∧ ∀ b : AffId,
    let l := (s.ppu.line + 1) % 228
    let V := (s.ppu.regs.mosaic.extractLsb' 4 4).toNat + 1
    let m := (s.ppu.regs.bgcnt.get b.toBg).getLsbD 6
    if l ≤ 159 then
      t.ppu.mix.get b = (if l % V = 0 then t.ppu.ix.get b else s.ppu.mix.get b) ∧
      t.ppu.miy.get b = (if l % V = 0 then t.ppu.iy.get b else s.ppu.miy.get b) ∧
      t.ppu.latch.get b =
        { x0 := if m then t.ppu.mix.get b else t.ppu.ix.get b
          y0 := if m then t.ppu.miy.get b else t.ppu.iy.get b
          pa := s.ppu.regs.bgpa.get b
          pc := s.ppu.regs.bgpc.get b
          mh := if m then (s.ppu.regs.mosaic.extractLsb' 0 4).toNat + 1 else 1 }
    else
      t.ppu.mix.get b = s.ppu.mix.get b ∧ t.ppu.miy.get b = s.ppu.miy.get b ∧
        t.ppu.latch.get b = s.ppu.latch.get b

/-- The constraints on the open parameters hold of the constants the machine runs at (92_eei_decisions.md D4, D21, D22). -/
def Obligations.ParametersAreAdmissible : Prop := Config.params.Admissible

/-! ## Commits, strip writes, reset -/

/-- 40_scanline_events.md R150, 30_encoding.md R111: an HBlank commit is handed over and changes nothing else; at the start of
the next tick, in whatever state that begins and after those handed over before it, that of the current line sets hblankFlag and
requests the interrupt where it is enabled, and that of another line does neither. No reset is due there
(70_reset_and_hazards.md R331). -/
def Obligations.HBlankCommitSetsTheFlag : Prop :=
  ∀ l : Byte,
    (∀ s : State, exec (.hblankCommit l) s = .next { s with handed := s.handed ++ [⟨.hblank, l.toNat⟩] }) ∧
    ∀ (s : State) (before : List Commit), s.handed = before ++ [⟨.hblank, l.toNat⟩] → s.resetDue = false →
      let b := State.beginTick { s with handed := before }
      s.beginTick = { b with ppu := { b.ppu with
        hblankFlag := if l.toNat = s.ppu.line then true else b.ppu.hblankFlag
        q := b.ppu.q ++
          (if l.toNat = s.ppu.line ∧ s.ppu.regs.dispstat.getLsbD 4 = true then [.irqRequest .hblank] else []) } }

/-- 40_scanline_events.md R151, 30_encoding.md R111: a LYC commit is handed over and changes nothing else; at the start of the
next tick, in whatever state that begins and after those handed over before it, it writes vcountFlag by the DISPSTAT.LYC of that
state, and requests the interrupt where it matches and is enabled. No reset is due there (70_reset_and_hazards.md R331). Lines
of 228 and above are ill-formed and are never scheduled. -/
def Obligations.LycCommitComparesTheLine : Prop :=
  ∀ l : Byte, (Instr.lycCommit l).wellFormed = true →
    (∀ s : State, exec (.lycCommit l) s = .next { s with handed := s.handed ++ [⟨.lyc, l.toNat⟩] }) ∧
    ∀ (s : State) (before : List Commit), s.handed = before ++ [⟨.lyc, l.toNat⟩] → s.resetDue = false →
      let b := State.beginTick { s with handed := before }
      s.beginTick = { b with ppu := { b.ppu with
        vcountFlag := decide (l = s.ppu.regs.dispstat.extractLsb' 8 8)
        q := b.ppu.q ++
          (if l = s.ppu.regs.dispstat.extractLsb' 8 8 ∧ s.ppu.regs.dispstat.getLsbD 5 = true then [.irqRequest .vcount]
          else []) } }

/-- 60_exceptions.md R320, 40_scanline_events.md R133: a strip write sets one column of the evaluation buffer and never
reaches the draw buffer of the current line; nothing else changes. -/
def Obligations.StripWriteSetsOneEvaluationColumn : Prop :=
  ∀ (x : BitVec 10) (e : SpriteEntry) (s : State), (Instr.stripWrite x e).wellFormed = true →
    Sparse.wf SpriteEntry.empty 240 0 s.ppu.evalStrip = true →
    ∃ t, exec (.stripWrite x e) s = .next t ∧
      t = { s with ppu := { s.ppu with strip0 := t.ppu.strip0, strip1 := t.ppu.strip1 } } ∧
      stripAt t.ppu.evalStrip x.toNat = e ∧
      (∀ y, y ≠ x.toNat → stripAt t.ppu.evalStrip y = stripAt s.ppu.evalStrip y) ∧
      t.ppu.drawStrip = s.ppu.drawStrip

/-- 70_reset_and_hazards.md R330: a hard reset gives every row of the table its reset value. Memory is not reset. -/
def Obligations.HardResetAssignsEveryRow : Prop :=
  ∀ s : State, ∃ t, exec .hardReset s = .next t ∧
    t.ppu.line = 0 ∧ t.ppu.cycle = 0 ∧ t.ppu.regs = Regs.reset ∧
    t.ppu.vblankFlag = false ∧ t.ppu.hblankFlag = false ∧ t.ppu.vcountFlag = false ∧
    (∀ i, t.ppu.bgActive.get i = false ∧ t.ppu.bgCountdown.get i = 0) ∧
    (∀ b, t.ppu.ix.get b = 0 ∧ t.ppu.iy.get b = 0 ∧ t.ppu.mix.get b = 0 ∧ t.ppu.miy.get b = 0 ∧
      t.ppu.pendX.get b = false ∧ t.ppu.pendY.get b = false ∧ t.ppu.latch.get b = ⟨0, 0, 0, 0, 1⟩) ∧
    (∀ x, stripAt t.ppu.drawStrip x = SpriteEntry.empty ∧ stripAt t.ppu.evalStrip x = SpriteEntry.empty) ∧
    t.ppu.drawSel = false ∧ (∀ x y, t.ppu.fbAt x y = 0) ∧ t.ppu.q = [] ∧ t.ppu.refused = false ∧ t.mem = s.mem

/-- 70_reset_and_hazards.md R330: the machine right after reset, its registers one by one; a hard reset brings the block into
that state and drops what the delay pipeline holds (R331; the split writes are the model's choice, notes/assumptions/12.md). -/
def Obligations.ResetStateHasTheResetValues : Prop :=
  State.reset.ppu.line = 0 ∧ State.reset.ppu.cycle = 0 ∧ State.reset.ppu.regs.dispcnt = 0 ∧
  State.reset.ppu.regs.dispstat = 0 ∧
  (∀ i, State.reset.ppu.regs.bgcnt.get i = 0 ∧ State.reset.ppu.regs.bghofs.get i = 0 ∧
    State.reset.ppu.regs.bgvofs.get i = 0) ∧
  (∀ b, State.reset.ppu.regs.bgpa.get b = 0 ∧ State.reset.ppu.regs.bgpb.get b = 0 ∧
    State.reset.ppu.regs.bgpc.get b = 0 ∧ State.reset.ppu.regs.bgpd.get b = 0 ∧
    State.reset.ppu.regs.bgx.get b = 0 ∧ State.reset.ppu.regs.bgy.get b = 0) ∧
  State.reset.ppu.regs.win0h = 0 ∧ State.reset.ppu.regs.win1h = 0 ∧ State.reset.ppu.regs.win0v = 0 ∧
  State.reset.ppu.regs.win1v = 0 ∧ State.reset.ppu.regs.winin = 0 ∧ State.reset.ppu.regs.winout = 0 ∧
  State.reset.ppu.regs.mosaic = 0 ∧ State.reset.ppu.regs.bldcnt = 0 ∧ State.reset.ppu.regs.bldalpha = 0 ∧
  State.reset.ppu.regs.bldy = 0 ∧
  ∀ s : State, exec .hardReset s =
    .next { s with ppu := State.reset.ppu, pending := [], handed := [], splitWrites := [] }

/-! ## Rules of the whole machine -/

/-- 60_exceptions.md R306: no operation faults or is refused; every one completes in every state. -/
def Obligations.EveryOperationCompletes : Prop := ∀ (i : Instr) (s : State), ∃ t, exec i s = .next t

/-- 20_memory.md R60: the block reads the three regions and writes none of them. -/
def Obligations.NoOperationWritesMemory : Prop :=
  ∀ (i : Instr) (s t : State), exec i s = .next t → ∀ (space : Space) (a : Nat),
    t.mem.readByte space a = s.mem.readByte space a

/-- 20_memory.md R82: but for a hard reset, by the operation or due at the tick, only a tick changes the framebuffer, and only
at the column composited in that cycle of a visible line; the refusal mark is not set (60_exceptions.md R325). -/
def Obligations.FramebufferChangesOnlyWhereRendered : Prop :=
  ∀ (i : Instr) (s t : State) (x y : Nat), x < 240 → s.Trusted → i ≠ .hardReset → (i = .tick → s.resetDue = false) →
    exec i s = .next t → t.ppu.fbAt x y ≠ s.ppu.fbAt x y →
    i = .tick ∧ y = s.ppu.line ∧ s.ppu.line < 160 ∧ Config.params.renderCycle x = s.ppu.cycle

/-- 40_scanline_events.md R133: between two cycle-0 ticks no operation but a hard reset changes the draw buffer. -/
def Obligations.DrawBufferIsFixedDuringALine : Prop :=
  ∀ (i : Instr) (s t : State), exec i s = .next t → i ≠ .hardReset → (i = .tick → s.ppu.cycle ≠ 0) →
    t.ppu.drawStrip = s.ppu.drawStrip

/-- Every step keeps the invariant: position, stored bits, vblankFlag exactly on lines 160-226, enable delays, mosaic cells,
canonical strips, framebuffer and memory, events of lines of the frame (10_state.md R21-R33, 40_scanline_events.md R146). -/
def Obligations.StepKeepsTheInvariant : Prop :=
  ∀ s t : State, s.Inv Config.params → step s = .next t → t.Inv Config.params

/-- The invariant holds right after reset. -/
def Obligations.ResetMeetsTheInvariant : Prop := State.reset.Inv Config.params

/-- 40_scanline_events.md R152: the position changes only by a tick, by exactly one cycle with the line transition at 1231,
and by a hard reset, the operation or a requested one, which the tick after the transition into line 160 applies first; a frame
is 228 x 1232 = 280896 ticks, so n ticks without a requested reset move the position by n cycles of the frame. -/
def Obligations.PositionMovesOneCycleATickThroughTheFrame : Prop :=
  (∀ (i : Instr) (s t : State), exec i s = .next t →
    (t.ppu.line, t.ppu.cycle) =
      if i = .tick then
        (if s.resetRequested = true ∧ s.ppu.line = 160 ∧ s.ppu.cycle = 0 then (0, 1)
        else if s.ppu.cycle = 1231 then ((s.ppu.line + 1) % 228, 0) else (s.ppu.line, s.ppu.cycle + 1))
      else if i = .hardReset then (0, 0)
      else (s.ppu.line, s.ppu.cycle)) ∧
  ∀ (n : Nat) (s : State), s.ppu.line < 228 → s.ppu.cycle < 1232 → s.resetRequested = false →
    1232 * (State.ticks n s).ppu.line + (State.ticks n s).ppu.cycle =
      (1232 * s.ppu.line + s.ppu.cycle + n) % 280896 ∧ (State.ticks n s).ppu.cycle < 1232

/-- 40_scanline_events.md R137: the ticks of cycles 0 to 1006 of a visible line rewrite its whole row, each column from the
state its own tick sees, and leave every other row alone; the refusal mark is not set (60_exceptions.md R325). -/
def Obligations.VisibleLineIsFullyRewritten : Prop :=
  ∀ s : State, s.ppu.line < 160 → s.ppu.cycle = 0 → s.Trusted → Sparse.wf (0 : Color15) 38400 0 s.ppu.fb = true →
    (∀ x, x < 240 →
      (State.ticks 1007 s).ppu.fbAt x s.ppu.line =
        (State.ticks (Config.params.renderCycle x) s).ppu.pixelColor Config.params
          (State.ticks (Config.params.renderCycle x) s).draws (State.ticks (Config.params.renderCycle x) s).mem x
          s.ppu.line) ∧
    (∀ x y, x < 240 → y ≠ s.ppu.line → (State.ticks 1007 s).ppu.fbAt x y = s.ppu.fbAt x y) ∧
    (State.ticks 1007 s).ppu.line = s.ppu.line ∧ (State.ticks 1007 s).ppu.cycle = 1007

/-! ## The pixel -/

/-- 00_scope.md R17, 44_compositing_blending.md R265: the colour of a pixel depends only on the registers, the active
layers, the line latches, the draw buffer at its column, VRAM and palette RAM, the parameters and the draws. -/
def Obligations.PixelDependsOnlyOnVisibleState : Prop :=
  ∀ (P : Params) (n : Nat) (m m' : Memory) (p p' : Ppu) (x y : Nat),
    p'.regs = p.regs → p'.bgActive = p.bgActive → p'.latch = p.latch →
    stripAt p'.drawStrip x = stripAt p.drawStrip x →
    (∀ a, m'.readByte .vram a = m.readByte .vram a) → (∀ a, m'.readByte .pal a = m.readByte .pal a) →
    p'.pixelColor P n m' x y = p.pixelColor P n m x y

/-- 42_background_sampling.md R203: with mosaic on, two pixels of one cell of a text layer sample alike. -/
def Obligations.MosaicCellSamplesItsTopLeftPixel : Prop :=
  ∀ (P : Params) (n : Nat) (m : Memory) (r : Regs) (i : BgId) (x x' y y' : Nat), (r.bgcnt.get i).getLsbD 6 = true →
    x / ((r.mosaic.extractLsb' 0 4).toNat + 1) = x' / ((r.mosaic.extractLsb' 0 4).toNat + 1) →
    y / ((r.mosaic.extractLsb' 4 4).toNat + 1) = y' / ((r.mosaic.extractLsb' 4 4).toNat + 1) →
    sampleText P n m r i x y = sampleText P n m r i x' y'

/-- 42_background_sampling.md R203, R205, R206: the sample of a text layer, from its map entry and its tile in either depth;
a map or character read at 0x10000 or above is a draw (R201). -/
def Obligations.TextSampleReadsTheAddressedTexel : Prop :=
  ∀ (P : Params) (n : Nat) (m : Memory) (r : Regs) (i : BgId) (x y : Nat),
    let c := r.bgcnt.get i
    let mx := if c.getLsbD 6 then x - x % ((r.mosaic.extractLsb' 0 4).toNat + 1) else x
    let my := if c.getLsbD 6 then y - y % ((r.mosaic.extractLsb' 4 4).toNat + 1) else y
    let W := if c.getLsbD 14 then 512 else 256
    let H := if c.getLsbD 15 then 512 else 256
    let tx := (mx + (r.bghofs.get i).toNat) % W
    let ty := (my + (r.bgvofs.get i).toNat) % H
    let a := 0x800 * (c.extractLsb' 8 5).toNat + 0x800 * (tx / 256 + ty / 256 * (W / 256)) +
      2 * (32 * (ty % 256 / 8) + tx % 256 / 8)
    let e := if 0x10000 ≤ a then P.bgObjVramRead n i .mapRead else m.readHalf .vram a
    let px := if e.getLsbD 10 then 7 - tx % 8 else tx % 8
    let py := if e.getLsbD 11 then 7 - ty % 8 else ty % 8
    let base := 0x4000 * (c.extractLsb' 2 2).toNat
    let tile := (e.extractLsb' 0 10).toNat
    let byte := fun a => if 0x10000 ≤ a then (P.bgObjVramRead n i .charRead).setWidth 8 else m.readByte .vram a
    let k8 := (byte (base + 64 * tile + 8 * py + px)).toNat
    let b4 := byte (base + 32 * tile + 4 * py + px / 2)
    let k4 := if px % 2 = 0 then (b4.extractLsb' 0 4).toNat else (b4.extractLsb' 4 4).toNat
    sampleText P n m r i x y =
      if c.getLsbD 7 then (if k8 = 0 then .transparent else .solid (m.bgColor k8))
      else if k4 = 0 then .transparent
      else .solid (m.bgColor (16 * (e.extractLsb' 12 4).toNat + k4))

/-- 42_background_sampling.md R211, R215-R217, R221: the source coordinate of a column, from the line latch, snapped to the
mosaic cell and floored; what each bitmap samples there; and its transparency: outside its area always, inside never for a
direct-colour sample and exactly at index 0 for a palette sample. -/
def Obligations.BitmapTransparency : Prop :=
  (∀ (l : LineLatch) (x : Nat),
    let mx := l.mh * (x / l.mh)
    256 * (l.coord x).1 ≤ l.x0.toInt + l.pa.toInt * mx ∧ l.x0.toInt + l.pa.toInt * mx < 256 * ((l.coord x).1 + 1) ∧
    256 * (l.coord x).2 ≤ l.y0.toInt + l.pc.toInt * mx ∧ l.y0.toInt + l.pc.toInt * mx < 256 * ((l.coord x).2 + 1)) ∧
  ∀ (m : Memory) (r : Regs) (l : LineLatch) (x : Nat),
    let u := (l.coord x).1
    let v := (l.coord x).2
    let frame := if r.dispcnt.getLsbD 4 then 0xA000 else 0
    let k := m.readByte .vram (frame + 240 * v.toNat + u.toNat)
    (sampleBitmap3 m l x = .transparent ↔ ¬(0 ≤ u ∧ u < 240 ∧ 0 ≤ v ∧ v < 160)) ∧
    (sampleBitmap5 m r l x = .transparent ↔ ¬(0 ≤ u ∧ u < 160 ∧ 0 ≤ v ∧ v < 128)) ∧
    (sampleBitmap4 m r l x = .transparent ↔ ¬(0 ≤ u ∧ u < 240 ∧ 0 ≤ v ∧ v < 160) ∨ k = 0) ∧
    (∀ c, sampleBitmap3 m l x = .solid c →
      c = (m.readHalf .vram (2 * (240 * v.toNat + u.toNat))).extractLsb' 0 15) ∧
    (∀ c, sampleBitmap5 m r l x = .solid c →
      c = (m.readHalf .vram (frame + 2 * (160 * v.toNat + u.toNat))).extractLsb' 0 15) ∧
    (∀ c, sampleBitmap4 m r l x = .solid c → c = (m.readHalf .pal (2 * k.toNat)).extractLsb' 0 15)

/-- 42_background_sampling.md R212: with WRAP the texel is the coordinate modulo the side and always inside the layer;
without it there is none exactly outside. The sample of an affine layer is its texel's map byte and character byte, with index
0 transparent; a map or character read at 0x10000 or above is a draw (R201). -/
def Obligations.AffineWrapAndOverflow : Prop :=
  (∀ (S : Nat) (c : Int × Int), 0 < S →
    (∃ tx ty, affineTexel true S c = some (tx, ty) ∧ tx < S ∧ ty < S ∧ (tx : Int) = c.1 % S ∧ (ty : Int) = c.2 % S) ∧
    (affineTexel false S c = none ↔ ¬(0 ≤ c.1 ∧ c.1 < S ∧ 0 ≤ c.2 ∧ c.2 < S))) ∧
  ∀ (P : Params) (n : Nat) (m : Memory) (p : Ppu) (b : AffId) (x y : Nat), p.kindOf b.toBg = .affine →
    let bgcnt := p.regs.bgcnt.get b.toBg
    let S : Nat := 128 * 2 ^ (bgcnt.extractLsb' 14 2).toNat
    let c := (p.latch.get b).coord x
    let tx := (c.1 % S).toNat
    let ty := (c.2 % S).toNat
    let mapAt : Nat := 0x800 * (bgcnt.extractLsb' 8 5).toNat + ty / 8 * (S / 8) + tx / 8
    let t := if 0x10000 ≤ mapAt then (P.bgObjVramRead n b.toBg .mapRead).setWidth 8 else m.readByte .vram mapAt
    let charAt : Nat := 0x4000 * (bgcnt.extractLsb' 2 2).toNat + 64 * t.toNat + 8 * (ty % 8) + tx % 8
    let k := if 0x10000 ≤ charAt then (P.bgObjVramRead n b.toBg .charRead).setWidth 8 else m.readByte .vram charAt
    p.sampleBg P n m b.toBg x y =
      if bgcnt.getLsbD 13 = false ∧ ¬(0 ≤ c.1 ∧ c.1 < S ∧ 0 ≤ c.2 ∧ c.2 < S) then .transparent
      else if k = 0 then .transparent
      else .solid (m.bgColor k.toNat)

/-- 44_compositing_blending.md R272-R274: alpha, brighten and darken, channel by channel. -/
def Obligations.EffectsWorkChannelByChannel : Prop :=
  ∀ (c1 c2 : Color15) (a b y : Nat), y ≤ 16 → ∀ ch : Color15 → Nat, (ch = red ∨ ch = green ∨ ch = blue) →
    ch (alpha .perTermFloor a b c1 c2) = min 31 (ch c1 * a / 16 + ch c2 * b / 16) ∧
    ch (alpha .sumThenFloor a b c1 c2) = min 31 ((ch c1 * a + ch c2 * b) / 16) ∧
    ch (brighten y c1) = ch c1 + (31 - ch c1) * y / 16 ∧
    ch (darken y c1) = ch c1 - ch c1 * y / 16

/-- 44_compositing_blending.md R263: among the selected opaque background layers the one with the lowest priority value is
first and the next one second, ties going to the lower layer index, and the backdrop takes the places left over. A layer is
selected if the mode has it, it is active and the enable set holds it (42_background_sampling.md R202, 30_encoding.md R92), and
is sampled by its kind (R220). -/
def Obligations.FrontBackgroundHasLowestPriorityValue : Prop :=
  (∀ (P : Params) (n : Nat) (m : Memory) (p : Ppu) (e : BitVec 6) (x y : Nat),
    let t := p.topBgs P n m e x y
    let shows := fun (i : BgId) (c : Color15) => p.bgSelected e i = true ∧ p.sampleBg P n m i x y = .solid c
    let prio := fun (i : BgId) => ((p.regs.bgcnt.get i).extractLsb' 0 2).toNat
    let before := fun (i j : BgId) => prio i < prio j ∨ prio i = prio j ∧ i.toNat ≤ j.toNat
    (∀ (i : BgId) (c : Color15), shows i c →
      ∃ j, shows j t.first.col ∧ t.first = ⟨.bg j, prio j, t.first.col, false⟩ ∧ before j i ∧
        (j ≠ i → ∃ k, k ≠ j ∧ shows k t.second.col ∧ t.second = ⟨.bg k, prio k, t.second.col, false⟩ ∧ before k i)) ∧
    (∀ j, (∀ i c, shows i c → i = j) → t.second = ⟨.bd, 4, m.bgColor 0, false⟩) ∧
    ((∀ i c, ¬shows i c) → t = ⟨⟨.bd, 4, m.bgColor 0, false⟩, ⟨.bd, 4, m.bgColor 0, false⟩⟩)) ∧
  (∀ (p : Ppu) (e : BitVec 6) (i : BgId), p.bgSelected e i = true ↔
    layerKind (p.regs.dispcnt.extractLsb' 0 3).toNat i ≠ .absent ∧ p.bgActive.get i = true ∧
      e.getLsbD i.toNat = true) ∧
  ((∀ i, layerKind 0 i = .text) ∧
    ([.bg0, .bg1, .bg2, .bg3].map (layerKind 1) = [.text, .text, .affine, .absent]) ∧
    ([.bg0, .bg1, .bg2, .bg3].map (layerKind 2) = [.absent, .absent, .affine, .affine]) ∧
    ([.bg0, .bg1, .bg2, .bg3].map (layerKind 3) = [.absent, .absent, .bitmap3, .absent]) ∧
    ([.bg0, .bg1, .bg2, .bg3].map (layerKind 4) = [.absent, .absent, .bitmap4, .absent]) ∧
    ([.bg0, .bg1, .bg2, .bg3].map (layerKind 5) = [.absent, .absent, .bitmap5, .absent])) ∧
  ∀ (P : Params) (n : Nat) (m : Memory) (p : Ppu) (x y : Nat),
    (∀ i, p.kindOf i = .text → p.sampleBg P n m i x y = sampleText P n m p.regs i x y) ∧
    (p.kindOf .bg2 = .bitmap3 → p.sampleBg P n m .bg2 x y = sampleBitmap3 m p.latch.bg2 x) ∧
    (p.kindOf .bg2 = .bitmap4 → p.sampleBg P n m .bg2 x y = sampleBitmap4 m p.regs p.latch.bg2 x) ∧
    (p.kindOf .bg2 = .bitmap5 → p.sampleBg P n m .bg2 x y = sampleBitmap5 m p.regs p.latch.bg2 x) ∧
    (∀ i, p.kindOf i = layerKind (p.regs.dispcnt.extractLsb' 0 3).toNat i)

/-- 44_compositing_blending.md R264: an enabled opaque sprite takes first place exactly when its priority value is at most
that of the background there, and otherwise second place by the same rule; a sprite not enabled or not opaque takes none. -/
def Obligations.SpriteWinsAtEqualPriority : Prop :=
  ∀ (m : Memory) (p : Ppu) (e : BitVec 6) (x : Nat) (t : TopTwo),
    p.mergeSprite m e x t =
      (if p.regs.dispcnt.getLsbD 12 = true ∧ e.getLsbD 4 = true ∧ (stripAt p.drawStrip x).isOpaque = true then
        if (stripAt p.drawStrip x).prio.toNat ≤ t.first.prio then
          ⟨⟨.obj, (stripAt p.drawStrip x).prio.toNat, m.objColor (stripAt p.drawStrip x).palIdx.toNat,
            (stripAt p.drawStrip x).semi⟩, t.first⟩
        else if (stripAt p.drawStrip x).prio.toNat ≤ t.second.prio then
          ⟨t.first, ⟨.obj, (stripAt p.drawStrip x).prio.toNat, m.objColor (stripAt p.drawStrip x).palIdx.toNat,
            (stripAt p.drawStrip x).semi⟩⟩
        else t
      else t)

/-- 44_compositing_blending.md R270, R271, R275: a semi-transparent sprite in front forces the blend, under its two guards,
whatever BLDCNT.EFFECT says; else the window's effect bit gates the effect BLDCNT selects; coefficients above 16 are 16. -/
def Obligations.EffectSelection : Prop :=
  ∀ (P : Params) (r : Regs) (t : TopTwo) (e : Bool),
    effectColor P r t e =
      if t.first.id = .obj ∧ t.first.semi = true ∧ (e = true ∨ P.semiIgnoresWindowEffect = true) ∧
          (r.bldcnt.getLsbD (8 + t.second.id.targetBit) = true ∨ P.semiRequiresSecondTarget = false) then
        alpha P.blendRounding (min (r.bldalpha.extractLsb' 0 5).toNat 16) (min (r.bldalpha.extractLsb' 8 5).toNat 16)
          t.first.col t.second.col
      else if e = false then t.first.col
      else if r.bldcnt.extractLsb' 6 2 = 1 ∧ r.bldcnt.getLsbD t.first.id.targetBit = true ∧
          r.bldcnt.getLsbD (8 + t.second.id.targetBit) = true then
        alpha P.blendRounding (min (r.bldalpha.extractLsb' 0 5).toNat 16) (min (r.bldalpha.extractLsb' 8 5).toNat 16)
          t.first.col t.second.col
      else if r.bldcnt.extractLsb' 6 2 = 2 ∧ r.bldcnt.getLsbD t.first.id.targetBit = true then
        brighten (min r.bldy.toNat 16) t.first.col
      else if r.bldcnt.extractLsb' 6 2 = 3 ∧ r.bldcnt.getLsbD t.first.id.targetBit = true then
        darken (min r.bldy.toNat 16) t.first.col
      else t.first.col

/-- 43_windowing.md R241-R245: the extent of a window, wrapping where it starts after it ends, the precedence of
WIN0 over WIN1 over the object window, and the enable set of each class. -/
def Obligations.WindowExtentAndPrecedence : Prop :=
  (∀ (w : Half) (v : Nat), inExtent w v = true ↔
    (if (w.extractLsb' 8 8).toNat ≤ (w.extractLsb' 0 8).toNat then
      (w.extractLsb' 8 8).toNat ≤ v ∧ v < (w.extractLsb' 0 8).toNat
    else (w.extractLsb' 8 8).toNat ≤ v ∨ v < (w.extractLsb' 0 8).toNat)) ∧
  (∀ (p : Ppu) (x y : Nat), p.windowClass x y =
    (if p.regs.dispcnt.getLsbD 13 = false ∧ p.regs.dispcnt.getLsbD 14 = false ∧ p.regs.dispcnt.getLsbD 15 = false then
      .none
    else if p.regs.dispcnt.getLsbD 13 = true ∧ inExtent p.regs.win0h x = true ∧ inExtent p.regs.win0v y = true then
      .win0
    else if p.regs.dispcnt.getLsbD 14 = true ∧ inExtent p.regs.win1h x = true ∧ inExtent p.regs.win1v y = true then
      .win1
    else if p.regs.dispcnt.getLsbD 15 = true ∧ p.regs.dispcnt.getLsbD 12 = true ∧
      (stripAt p.drawStrip x).objWin = true then .objWin
    else .outside)) ∧
  ∀ (p : Ppu) (x y : Nat),
    (p.windowClass x y = .none → p.enableSetAt x y = 0b111111) ∧
    (p.windowClass x y = .win0 → p.enableSetAt x y = p.regs.winin.extractLsb' 0 6) ∧
    (p.windowClass x y = .win1 → p.enableSetAt x y = p.regs.winin.extractLsb' 8 6) ∧
    (p.windowClass x y = .objWin → p.enableSetAt x y = p.regs.winout.extractLsb' 8 6) ∧
    (p.windowClass x y = .outside → p.enableSetAt x y = p.regs.winout.extractLsb' 0 6)

/-- 44_compositing_blending.md R280-R282, 70_reset_and_hazards.md R333: the colour of a pixel: white under forced blank, a draw
in modes 6 and 7, else the effect on the two places that the sprite merge leaves of the backgrounds' two, under the enable set
of the pixel, whose bit 5 admits effects. After reset every pixel is the backdrop. -/
def Obligations.ForcedBlankIsWhiteAndResetShowsTheBackdrop : Prop :=
  ∀ (P : Params) (n : Nat) (m : Memory) (p : Ppu) (x y : Nat),
    (p.regs.dispcnt.getLsbD 7 = true → p.pixelColor P n m x y = 0x7FFF) ∧
    (p.regs.dispcnt.getLsbD 7 = false →
      (p.regs.dispcnt.extractLsb' 0 3 = 6 ∨ p.regs.dispcnt.extractLsb' 0 3 = 7) →
      p.pixelColor P n m x y = P.reservedModePixel n) ∧
    (p.regs.dispcnt.getLsbD 7 = false → p.regs.dispcnt.extractLsb' 0 3 ≠ 6 → p.regs.dispcnt.extractLsb' 0 3 ≠ 7 →
      p.pixelColor P n m x y =
        effectColor P p.regs (p.mergeSprite m (p.enableSetAt x y) x (p.topBgs P n m (p.enableSetAt x y) x y))
          ((p.enableSetAt x y).getLsbD 5)) ∧
    Ppu.reset.pixelColor P n m x y = m.bgColor 0

/-! ## The agents around the block -/

/-- 60_exceptions.md R302: a scheduled commit is never dropped but by a reset, and is delivered exactly once. With k + 1 cycles
left it is due after k cycles of the scheduler in which no reset is due; the next cycle delivers exactly the due commits, each
once, after the start of its tick and before the tick's own work, and what stays scheduled is what was not due, one cycle
nearer, and what that cycle schedules. The scheduler's cycle is the model's (notes/assumptions/13.md). -/
def Obligations.ScheduledCommitRunsToCompletion : Prop :=
  ∀ (k : Nat) (s : State) (kind : CommitKind) (line : Nat), ⟨kind, line, k + 1⟩ ∈ s.pending →
    (∀ j, j ≤ k → (State.cycles j s).resetDue = false) →
    let u := State.cycles k s
    let t := u.schedulerCycle Config.params
    ⟨kind, line, 1⟩ ∈ u.pending ∧
    (∃ due : List Commit, due.Perm ((u.pending.filter fun c => c.left ≤ 1).map PendingCommit.commit) ∧
      t.ppu = (due.foldl Ppu.applyCommit u.beginTick.ppu).tick Config.params u.draws t.mem) ∧
    t.pending = ((u.pending.filter fun c => 1 < c.left).map fun c => { c with left := c.left - 1 }) ++
      t.ppu.q.filterMap (PendingCommit.ofEvent Config.params)

/-- 40_scanline_events.md R150, R151, 60_exceptions.md R302: in the cycle in which the HBlank commit of the current line falls
due, hblankFlag becomes true, where that cycle is not the line end, and the interrupt is requested where it is enabled; in the
cycle in which the LYC commit of a line falls due, and of no other line, vcountFlag becomes the comparison with DISPSTAT.LYC, and
the interrupt is requested where they match and it is enabled. No reset is due in the cycle. The scheduler's cycle, in which
commits that operations have handed over come before the due ones, is the model's (notes/assumptions/13.md). -/
def Obligations.DueHBlankCommitSetsTheFlag : Prop :=
  (∀ s : State, ⟨.hblank, s.ppu.line, 1⟩ ∈ s.pending → s.resetDue = false →
    (s.ppu.cycle ≠ 1231 → (s.schedulerCycle Config.params).ppu.hblankFlag = true) ∧
    (s.ppu.regs.dispstat.getLsbD 4 = true → .irqRequest .hblank ∈ (s.schedulerCycle Config.params).ppu.q)) ∧
  ∀ (s : State) (line : Nat), line < 228 → ⟨.lyc, line, 1⟩ ∈ s.pending → s.resetDue = false →
    (∀ c ∈ s.pending, c.kind = .lyc → c.left ≤ 1 → c.line = line) →
    (s.schedulerCycle Config.params).ppu.vcountFlag = decide (line = (s.ppu.regs.dispstat.extractLsb' 8 8).toNat) ∧
    (line = (s.ppu.regs.dispstat.extractLsb' 8 8).toNat → s.ppu.regs.dispstat.getLsbD 5 = true →
      .irqRequest .vcount ∈ (s.schedulerCycle Config.params).ppu.q)

/-- 70_reset_and_hazards.md R331: a standing request for a hard reset is applied between the transition into line 160 and the
next tick, by whichever tick comes next, an operation's or the scheduler's, and by no other tick, which leaves it standing and
is as without it. That it comes right before that tick, after the accesses made in between, and that a request made there is
still served there, is the model's choice (notes/assumptions/12.md). -/
def Obligations.RequestedResetWaitsForTheFrameBoundary : Prop :=
  ∀ s : State, s.resetRequested = true →
    let reset : State := { s with
      ppu := Ppu.reset, pending := [], handed := [], splitWrites := [], resetRequested := false }
    let without : State := { s with resetRequested := false }
    (s.ppu.line = 160 ∧ s.ppu.cycle = 0 →
      exec .tick s = exec .tick reset ∧ s.schedulerCycle Config.params = reset.schedulerCycle Config.params) ∧
    (¬(s.ppu.line = 160 ∧ s.ppu.cycle = 0) →
      (∃ t, exec .tick without = .next t ∧ exec .tick s = .next { t with resetRequested := true }) ∧
      s.schedulerCycle Config.params = { without.schedulerCycle Config.params with resetRequested := true })

/-- 20_memory.md R60, R61; notes/assumptions/15.md: a halfword the memory system writes inside a region is read back, every
byte outside it reads as before, and the block is not touched; outside the region the write faults. -/
def Obligations.MemoryWriteIsReadBack : Prop :=
  ∀ (s : State) (space : Space) (a : Nat) (v : Half) (rest : List Input), s.inbox = .writeHalf space a v :: rest →
    (a % 2 = 0 → a + 2 ≤ space.size → s.mem.wf = true → ∃ t, step s = .next t ∧ t.mem.readHalf space a = v ∧
      (∀ space' b, (space' ≠ space ∨ b ≠ a ∧ b ≠ a + 1) → t.mem.readByte space' b = s.mem.readByte space' b) ∧
      t.ppu = s.ppu) ∧
    (space.size < a + 2 → step s = .fault .memoryOutsideRegion)
end

