-- ==== Sys2Proof/Laws/Encoding.lean ====
section
/-! SUPPORT. The fields of an operation word made by opWord (30_encoding.md R108), and the odd offsets. -/

namespace Sys2Proof

/-- The operation word as a number. -/
theorem opWord_toNat (k c : BitVec 2) (l : BitVec 10) :
    (opWord k c l).toNat = 1073741824 * k.toNat + 268435456 * c.toNat + l.toNat := by
  simp only [opWord, BitVec.toNat_append]
  rw [← Nat.shiftLeft_add_eq_or_of_lt l.isLt, ← Nat.shiftLeft_add_eq_or_of_lt (BitVec.isLt _),
    ← Nat.shiftLeft_add_eq_or_of_lt (BitVec.isLt _)]
  simp only [Nat.shiftLeft_eq]
  have : (0 : BitVec 18).toNat = 0 := rfl
  omega

theorem owKind_opWord (k c : BitVec 2) (l : BitVec 10) : owKind (opWord k c l) = k.toNat := by
  simp only [owKind, BitVec.extractLsb'_toNat, opWord_toNat, Nat.shiftRight_eq_div_pow]
  have := k.isLt; have := c.isLt; have := l.isLt
  omega

theorem owCode_opWord (k c : BitVec 2) (l : BitVec 10) : owCode (opWord k c l) = c.toNat := by
  simp only [owCode, BitVec.extractLsb'_toNat, opWord_toNat, Nat.shiftRight_eq_div_pow]
  have := k.isLt; have := c.isLt; have := l.isLt
  omega

theorem owMiddle_opWord (k c : BitVec 2) (l : BitVec 10) : owMiddle (opWord k c l) = 0 := by
  simp only [owMiddle, BitVec.extractLsb'_toNat, opWord_toNat, Nat.shiftRight_eq_div_pow]
  have := k.isLt; have := c.isLt; have := l.isLt
  omega

theorem owLow_opWord (k c : BitVec 2) (l : BitVec 10) : owLow (opWord k c l) = l := by
  apply BitVec.eq_of_toNat_eq
  simp only [owLow, BitVec.extractLsb'_toNat, opWord_toNat, Nat.shiftRight_eq_div_pow]
  have := k.isLt; have := c.isLt; have := l.isLt
  omega

/-- A word whose middle bits are zero is made of its fields. -/
theorem eq_opWord (w : OpWord) (h : owMiddle w = 0) :
    w = opWord (BitVec.ofNat 2 (owKind w)) (BitVec.ofNat 2 (owCode w)) (owLow w) := by
  apply BitVec.eq_of_toNat_eq
  rw [opWord_toNat]
  simp only [owMiddle, owKind, owCode, owLow, BitVec.extractLsb'_toNat, Nat.shiftRight_eq_div_pow,
    BitVec.toNat_ofNat] at *
  have := w.isLt
  omega

/-- No register lies at an odd offset (30_encoding.md R90). -/
theorem halfWriteAt_odd (o : Nat) (v : Half) (h : o % 2 = 1) : halfWriteAt o v = none := by
  unfold halfWriteAt
  split
  all_goals first | rfl | (exfalso; omega)

end Sys2Proof
end

