-- ==== Sys2Proof/Laws/State.lean ====
section
/-! SUPPORT. One lemma per field per update of the state records, so that no proof unfolds a record update. -/

namespace Sys2Proof.Machine

/-! ## Layer copies -/

@[simp] theorem PerBg_get_set_self {α : Type} (p : PerBg α) (i : BgId) (v : α) : (p.set i v).get i = v := by
  cases i <;> rfl

@[simp] theorem PerBg_get_const {α : Type} (i : BgId) (v : α) : (PerBg.const v).get i = v := by
  cases i <;> rfl

theorem PerBg_get_set_ne {α : Type} (p : PerBg α) {i j : BgId} (h : j ≠ i) (v : α) : (p.set i v).get j = p.get j := by
  cases i <;> cases j <;> first | rfl | exact absurd rfl h

theorem PerBg_ext {α : Type} {p q : PerBg α} (h : ∀ i, p.get i = q.get i) : p = q := by
  cases p; cases q
  simp only [PerBg.mk.injEq]
  exact ⟨h .bg0, h .bg1, h .bg2, h .bg3⟩

@[simp] theorem PerAff_get_set_self {α : Type} (p : PerAff α) (b : AffId) (v : α) : (p.set b v).get b = v := by
  cases b <;> rfl

@[simp] theorem PerAff_get_const {α : Type} (b : AffId) (v : α) : (PerAff.const v).get b = v := by
  cases b <;> rfl

theorem PerAff_get_set_ne {α : Type} (p : PerAff α) {b c : AffId} (h : c ≠ b) (v : α) : (p.set b v).get c = p.get c := by
  cases b <;> cases c <;> first | rfl | exact absurd rfl h


/-! ## State.onPpu -/

@[simp] theorem State_onPpu_ppu (s : State) (f : Ppu → Ppu) : (s.onPpu f).ppu = f s.ppu := rfl
@[simp] theorem State_onPpu_mem (s : State) (f : Ppu → Ppu) : (s.onPpu f).mem = s.mem := rfl
@[simp] theorem State_onPpu_pending (s : State) (f : Ppu → Ppu) : (s.onPpu f).pending = s.pending := rfl
@[simp] theorem State_onPpu_handed (s : State) (f : Ppu → Ppu) : (s.onPpu f).handed = s.handed := rfl
@[simp] theorem State_onPpu_splitWrites (s : State) (f : Ppu → Ppu) : (s.onPpu f).splitWrites = s.splitWrites := rfl
@[simp] theorem State_onPpu_resetRequested (s : State) (f : Ppu → Ppu) : (s.onPpu f).resetRequested = s.resetRequested := rfl
@[simp] theorem State_onPpu_inbox (s : State) (f : Ppu → Ppu) : (s.onPpu f).inbox = s.inbox := rfl
@[simp] theorem State_onPpu_lastRead (s : State) (f : Ppu → Ppu) : (s.onPpu f).lastRead = s.lastRead := rfl
@[simp] theorem State_onPpu_draws (s : State) (f : Ppu → Ppu) : (s.onPpu f).draws = s.draws := rfl

/-! ## State.answerRead -/

@[simp] theorem State_answerRead_ppu (s : State) (v : OpWord) : (s.answerRead v).ppu = s.ppu := rfl
@[simp] theorem State_answerRead_mem (s : State) (v : OpWord) : (s.answerRead v).mem = s.mem := rfl
@[simp] theorem State_answerRead_pending (s : State) (v : OpWord) : (s.answerRead v).pending = s.pending := rfl
@[simp] theorem State_answerRead_handed (s : State) (v : OpWord) : (s.answerRead v).handed = s.handed := rfl
@[simp] theorem State_answerRead_splitWrites (s : State) (v : OpWord) : (s.answerRead v).splitWrites = s.splitWrites := rfl
@[simp] theorem State_answerRead_resetRequested (s : State) (v : OpWord) : (s.answerRead v).resetRequested = s.resetRequested := rfl
@[simp] theorem State_answerRead_inbox (s : State) (v : OpWord) : (s.answerRead v).inbox = s.inbox := rfl
@[simp] theorem State_answerRead_lastRead (s : State) (v : OpWord) : (s.answerRead v).lastRead = some v := rfl
@[simp] theorem State_answerRead_draws (s : State) (v : OpWord) : (s.answerRead v).draws = s.draws + 1 := rfl

/-! ## State.hardReset -/

@[simp] theorem State_hardReset_ppu (s : State) : (s.hardReset).ppu = Ppu.reset := rfl
@[simp] theorem State_hardReset_mem (s : State) : (s.hardReset).mem = s.mem := rfl
@[simp] theorem State_hardReset_pending (s : State) : (s.hardReset).pending = [] := rfl
@[simp] theorem State_hardReset_handed (s : State) : (s.hardReset).handed = [] := rfl
@[simp] theorem State_hardReset_splitWrites (s : State) : (s.hardReset).splitWrites = [] := rfl
@[simp] theorem State_hardReset_resetRequested (s : State) : (s.hardReset).resetRequested = s.resetRequested := rfl
@[simp] theorem State_hardReset_inbox (s : State) : (s.hardReset).inbox = s.inbox := rfl
@[simp] theorem State_hardReset_lastRead (s : State) : (s.hardReset).lastRead = s.lastRead := rfl
@[simp] theorem State_hardReset_draws (s : State) : (s.hardReset).draws = s.draws := rfl

/-! ## State.hand -/

@[simp] theorem State_hand_ppu (s : State) (c : Commit) : (s.hand c).ppu = s.ppu := rfl
@[simp] theorem State_hand_mem (s : State) (c : Commit) : (s.hand c).mem = s.mem := rfl
@[simp] theorem State_hand_pending (s : State) (c : Commit) : (s.hand c).pending = s.pending := rfl
@[simp] theorem State_hand_handed (s : State) (c : Commit) : (s.hand c).handed = s.handed ++ [c] := rfl
@[simp] theorem State_hand_splitWrites (s : State) (c : Commit) : (s.hand c).splitWrites = s.splitWrites := rfl
@[simp] theorem State_hand_resetRequested (s : State) (c : Commit) : (s.hand c).resetRequested = s.resetRequested := rfl
@[simp] theorem State_hand_inbox (s : State) (c : Commit) : (s.hand c).inbox = s.inbox := rfl
@[simp] theorem State_hand_lastRead (s : State) (c : Commit) : (s.hand c).lastRead = s.lastRead := rfl
@[simp] theorem State_hand_draws (s : State) (c : Commit) : (s.hand c).draws = s.draws := rfl

/-! ## State.deliver -/

@[simp] theorem State_deliver_ppu (s : State) (l : List Commit) : (s.deliver l).ppu = l.foldl Ppu.applyCommit s.ppu := rfl
@[simp] theorem State_deliver_mem (s : State) (l : List Commit) : (s.deliver l).mem = s.mem := rfl
@[simp] theorem State_deliver_pending (s : State) (l : List Commit) : (s.deliver l).pending = s.pending := rfl
@[simp] theorem State_deliver_handed (s : State) (l : List Commit) : (s.deliver l).handed = s.handed := rfl
@[simp] theorem State_deliver_splitWrites (s : State) (l : List Commit) : (s.deliver l).splitWrites = s.splitWrites := rfl
@[simp] theorem State_deliver_resetRequested (s : State) (l : List Commit) : (s.deliver l).resetRequested = s.resetRequested := rfl
@[simp] theorem State_deliver_inbox (s : State) (l : List Commit) : (s.deliver l).inbox = s.inbox := rfl
@[simp] theorem State_deliver_lastRead (s : State) (l : List Commit) : (s.deliver l).lastRead = s.lastRead := rfl
@[simp] theorem State_deliver_draws (s : State) (l : List Commit) : (s.deliver l).draws = s.draws := rfl

/-! ## State.openCycle -/

@[simp] theorem State_openCycle_ppu (s : State) : (s.openCycle).ppu = s.handed.foldl Ppu.applyCommit s.ppu.beginCycle := rfl
@[simp] theorem State_openCycle_mem (s : State) : (s.openCycle).mem = s.mem := rfl
@[simp] theorem State_openCycle_pending (s : State) : (s.openCycle).pending = s.pending := rfl
@[simp] theorem State_openCycle_handed (s : State) : (s.openCycle).handed = [] := rfl
@[simp] theorem State_openCycle_splitWrites (s : State) : (s.openCycle).splitWrites = s.splitWrites := rfl
@[simp] theorem State_openCycle_resetRequested (s : State) : (s.openCycle).resetRequested = s.resetRequested := rfl
@[simp] theorem State_openCycle_inbox (s : State) : (s.openCycle).inbox = s.inbox := rfl
@[simp] theorem State_openCycle_lastRead (s : State) : (s.openCycle).lastRead = s.lastRead := rfl
@[simp] theorem State_openCycle_draws (s : State) : (s.openCycle).draws = s.draws := rfl

/-! ## State.runTick -/

@[simp] theorem State_runTick_ppu (s : State) (P : Params) : (s.runTick P).ppu = s.ppu.tick P s.draws s.mem := rfl
@[simp] theorem State_runTick_mem (s : State) (P : Params) : (s.runTick P).mem = s.mem := rfl
@[simp] theorem State_runTick_pending (s : State) (P : Params) : (s.runTick P).pending = s.pending := rfl
@[simp] theorem State_runTick_handed (s : State) (P : Params) : (s.runTick P).handed = s.handed := rfl
@[simp] theorem State_runTick_splitWrites (s : State) (P : Params) : (s.runTick P).splitWrites = s.splitWrites := rfl
@[simp] theorem State_runTick_resetRequested (s : State) (P : Params) : (s.runTick P).resetRequested = s.resetRequested := rfl
@[simp] theorem State_runTick_inbox (s : State) (P : Params) : (s.runTick P).inbox = s.inbox := rfl
@[simp] theorem State_runTick_lastRead (s : State) (P : Params) : (s.runTick P).lastRead = s.lastRead := rfl
@[simp] theorem State_runTick_draws (s : State) (P : Params) : (s.runTick P).draws = s.draws + 1 := rfl

/-! ## State.storeHalf -/

@[simp] theorem State_storeHalf_ppu (s : State) (w : HalfWrite) : (s.storeHalf w).ppu = s.ppu := rfl
@[simp] theorem State_storeHalf_mem (s : State) (w : HalfWrite) : (s.storeHalf w).mem = s.mem.writeHalf w.space w.offset w.value := rfl
@[simp] theorem State_storeHalf_pending (s : State) (w : HalfWrite) : (s.storeHalf w).pending = s.pending := rfl
@[simp] theorem State_storeHalf_handed (s : State) (w : HalfWrite) : (s.storeHalf w).handed = s.handed := rfl
@[simp] theorem State_storeHalf_splitWrites (s : State) (w : HalfWrite) : (s.storeHalf w).splitWrites = s.splitWrites := rfl
@[simp] theorem State_storeHalf_resetRequested (s : State) (w : HalfWrite) : (s.storeHalf w).resetRequested = s.resetRequested := rfl
@[simp] theorem State_storeHalf_inbox (s : State) (w : HalfWrite) : (s.storeHalf w).inbox = s.inbox := rfl
@[simp] theorem State_storeHalf_lastRead (s : State) (w : HalfWrite) : (s.storeHalf w).lastRead = s.lastRead := rfl
@[simp] theorem State_storeHalf_draws (s : State) (w : HalfWrite) : (s.storeHalf w).draws = s.draws := rfl

/-! ## State.withFetchWord -/

@[simp] theorem State_withFetchWord_ppu (s : State) (n w : Nat) : (s.withFetchWord n w).ppu = s.ppu := rfl
@[simp] theorem State_withFetchWord_mem (s : State) (n w : Nat) : (s.withFetchWord n w).mem = s.mem := rfl
@[simp] theorem State_withFetchWord_pending (s : State) (n w : Nat) : (s.withFetchWord n w).pending = s.pending := rfl
@[simp] theorem State_withFetchWord_handed (s : State) (n w : Nat) : (s.withFetchWord n w).handed = s.handed := rfl
@[simp] theorem State_withFetchWord_splitWrites (s : State) (n w : Nat) : (s.withFetchWord n w).splitWrites = s.splitWrites := rfl
@[simp] theorem State_withFetchWord_resetRequested (s : State) (n w : Nat) : (s.withFetchWord n w).resetRequested = s.resetRequested := rfl
@[simp] theorem State_withFetchWord_inbox (s : State) (n w : Nat) : (s.withFetchWord n w).inbox = .op (tableOpWord n w) (tableOperand n w) :: s.inbox := rfl
@[simp] theorem State_withFetchWord_lastRead (s : State) (n w : Nat) : (s.withFetchWord n w).lastRead = s.lastRead := rfl
@[simp] theorem State_withFetchWord_draws (s : State) (n w : Nat) : (s.withFetchWord n w).draws = s.draws := rfl

/-! ## Ppu.emit -/

@[simp] theorem Ppu_emit_line (p : Ppu) (e : PpuEvent) : (p.emit e).line = p.line := rfl
@[simp] theorem Ppu_emit_cycle (p : Ppu) (e : PpuEvent) : (p.emit e).cycle = p.cycle := rfl
@[simp] theorem Ppu_emit_regs (p : Ppu) (e : PpuEvent) : (p.emit e).regs = p.regs := rfl
@[simp] theorem Ppu_emit_vblankFlag (p : Ppu) (e : PpuEvent) : (p.emit e).vblankFlag = p.vblankFlag := rfl
@[simp] theorem Ppu_emit_hblankFlag (p : Ppu) (e : PpuEvent) : (p.emit e).hblankFlag = p.hblankFlag := rfl
@[simp] theorem Ppu_emit_vcountFlag (p : Ppu) (e : PpuEvent) : (p.emit e).vcountFlag = p.vcountFlag := rfl
@[simp] theorem Ppu_emit_bgActive (p : Ppu) (e : PpuEvent) : (p.emit e).bgActive = p.bgActive := rfl
@[simp] theorem Ppu_emit_bgCountdown (p : Ppu) (e : PpuEvent) : (p.emit e).bgCountdown = p.bgCountdown := rfl
@[simp] theorem Ppu_emit_ix (p : Ppu) (e : PpuEvent) : (p.emit e).ix = p.ix := rfl
@[simp] theorem Ppu_emit_iy (p : Ppu) (e : PpuEvent) : (p.emit e).iy = p.iy := rfl
@[simp] theorem Ppu_emit_pendX (p : Ppu) (e : PpuEvent) : (p.emit e).pendX = p.pendX := rfl
@[simp] theorem Ppu_emit_pendY (p : Ppu) (e : PpuEvent) : (p.emit e).pendY = p.pendY := rfl
@[simp] theorem Ppu_emit_mix (p : Ppu) (e : PpuEvent) : (p.emit e).mix = p.mix := rfl
@[simp] theorem Ppu_emit_miy (p : Ppu) (e : PpuEvent) : (p.emit e).miy = p.miy := rfl
@[simp] theorem Ppu_emit_latch (p : Ppu) (e : PpuEvent) : (p.emit e).latch = p.latch := rfl
@[simp] theorem Ppu_emit_strip0 (p : Ppu) (e : PpuEvent) : (p.emit e).strip0 = p.strip0 := rfl
@[simp] theorem Ppu_emit_strip1 (p : Ppu) (e : PpuEvent) : (p.emit e).strip1 = p.strip1 := rfl
@[simp] theorem Ppu_emit_drawSel (p : Ppu) (e : PpuEvent) : (p.emit e).drawSel = p.drawSel := rfl
@[simp] theorem Ppu_emit_fb (p : Ppu) (e : PpuEvent) : (p.emit e).fb = p.fb := rfl
@[simp] theorem Ppu_emit_q (p : Ppu) (e : PpuEvent) : (p.emit e).q = p.q ++ [e] := rfl
@[simp] theorem Ppu_emit_refused (p : Ppu) (e : PpuEvent) : (p.emit e).refused = p.refused := rfl

/-! ## Ppu.emitIf -/

@[simp] theorem Ppu_emitIf_line (p : Ppu) (c : Bool) (e : PpuEvent) : (p.emitIf c e).line = p.line := rfl
@[simp] theorem Ppu_emitIf_cycle (p : Ppu) (c : Bool) (e : PpuEvent) : (p.emitIf c e).cycle = p.cycle := rfl
@[simp] theorem Ppu_emitIf_regs (p : Ppu) (c : Bool) (e : PpuEvent) : (p.emitIf c e).regs = p.regs := rfl
@[simp] theorem Ppu_emitIf_vblankFlag (p : Ppu) (c : Bool) (e : PpuEvent) : (p.emitIf c e).vblankFlag = p.vblankFlag := rfl
@[simp] theorem Ppu_emitIf_hblankFlag (p : Ppu) (c : Bool) (e : PpuEvent) : (p.emitIf c e).hblankFlag = p.hblankFlag := rfl
@[simp] theorem Ppu_emitIf_vcountFlag (p : Ppu) (c : Bool) (e : PpuEvent) : (p.emitIf c e).vcountFlag = p.vcountFlag := rfl
@[simp] theorem Ppu_emitIf_bgActive (p : Ppu) (c : Bool) (e : PpuEvent) : (p.emitIf c e).bgActive = p.bgActive := rfl
@[simp] theorem Ppu_emitIf_bgCountdown (p : Ppu) (c : Bool) (e : PpuEvent) : (p.emitIf c e).bgCountdown = p.bgCountdown := rfl
@[simp] theorem Ppu_emitIf_ix (p : Ppu) (c : Bool) (e : PpuEvent) : (p.emitIf c e).ix = p.ix := rfl
@[simp] theorem Ppu_emitIf_iy (p : Ppu) (c : Bool) (e : PpuEvent) : (p.emitIf c e).iy = p.iy := rfl
@[simp] theorem Ppu_emitIf_pendX (p : Ppu) (c : Bool) (e : PpuEvent) : (p.emitIf c e).pendX = p.pendX := rfl
@[simp] theorem Ppu_emitIf_pendY (p : Ppu) (c : Bool) (e : PpuEvent) : (p.emitIf c e).pendY = p.pendY := rfl
@[simp] theorem Ppu_emitIf_mix (p : Ppu) (c : Bool) (e : PpuEvent) : (p.emitIf c e).mix = p.mix := rfl
@[simp] theorem Ppu_emitIf_miy (p : Ppu) (c : Bool) (e : PpuEvent) : (p.emitIf c e).miy = p.miy := rfl
@[simp] theorem Ppu_emitIf_latch (p : Ppu) (c : Bool) (e : PpuEvent) : (p.emitIf c e).latch = p.latch := rfl
@[simp] theorem Ppu_emitIf_strip0 (p : Ppu) (c : Bool) (e : PpuEvent) : (p.emitIf c e).strip0 = p.strip0 := rfl
@[simp] theorem Ppu_emitIf_strip1 (p : Ppu) (c : Bool) (e : PpuEvent) : (p.emitIf c e).strip1 = p.strip1 := rfl
@[simp] theorem Ppu_emitIf_drawSel (p : Ppu) (c : Bool) (e : PpuEvent) : (p.emitIf c e).drawSel = p.drawSel := rfl
@[simp] theorem Ppu_emitIf_fb (p : Ppu) (c : Bool) (e : PpuEvent) : (p.emitIf c e).fb = p.fb := rfl
@[simp] theorem Ppu_emitIf_q (p : Ppu) (c : Bool) (e : PpuEvent) : (p.emitIf c e).q = p.q ++ (if c then [e] else []) := rfl
@[simp] theorem Ppu_emitIf_refused (p : Ppu) (c : Bool) (e : PpuEvent) : (p.emitIf c e).refused = p.refused := rfl

/-! ## Ppu.setFb -/

@[simp] theorem Ppu_setFb_line (p : Ppu) (x y : Nat) (c : Color15) : (p.setFb x y c).line = p.line := rfl
@[simp] theorem Ppu_setFb_cycle (p : Ppu) (x y : Nat) (c : Color15) : (p.setFb x y c).cycle = p.cycle := rfl
@[simp] theorem Ppu_setFb_regs (p : Ppu) (x y : Nat) (c : Color15) : (p.setFb x y c).regs = p.regs := rfl
@[simp] theorem Ppu_setFb_vblankFlag (p : Ppu) (x y : Nat) (c : Color15) : (p.setFb x y c).vblankFlag = p.vblankFlag := rfl
@[simp] theorem Ppu_setFb_hblankFlag (p : Ppu) (x y : Nat) (c : Color15) : (p.setFb x y c).hblankFlag = p.hblankFlag := rfl
@[simp] theorem Ppu_setFb_vcountFlag (p : Ppu) (x y : Nat) (c : Color15) : (p.setFb x y c).vcountFlag = p.vcountFlag := rfl
@[simp] theorem Ppu_setFb_bgActive (p : Ppu) (x y : Nat) (c : Color15) : (p.setFb x y c).bgActive = p.bgActive := rfl
@[simp] theorem Ppu_setFb_bgCountdown (p : Ppu) (x y : Nat) (c : Color15) : (p.setFb x y c).bgCountdown = p.bgCountdown := rfl
@[simp] theorem Ppu_setFb_ix (p : Ppu) (x y : Nat) (c : Color15) : (p.setFb x y c).ix = p.ix := rfl
@[simp] theorem Ppu_setFb_iy (p : Ppu) (x y : Nat) (c : Color15) : (p.setFb x y c).iy = p.iy := rfl
@[simp] theorem Ppu_setFb_pendX (p : Ppu) (x y : Nat) (c : Color15) : (p.setFb x y c).pendX = p.pendX := rfl
@[simp] theorem Ppu_setFb_pendY (p : Ppu) (x y : Nat) (c : Color15) : (p.setFb x y c).pendY = p.pendY := rfl
@[simp] theorem Ppu_setFb_mix (p : Ppu) (x y : Nat) (c : Color15) : (p.setFb x y c).mix = p.mix := rfl
@[simp] theorem Ppu_setFb_miy (p : Ppu) (x y : Nat) (c : Color15) : (p.setFb x y c).miy = p.miy := rfl
@[simp] theorem Ppu_setFb_latch (p : Ppu) (x y : Nat) (c : Color15) : (p.setFb x y c).latch = p.latch := rfl
@[simp] theorem Ppu_setFb_strip0 (p : Ppu) (x y : Nat) (c : Color15) : (p.setFb x y c).strip0 = p.strip0 := rfl
@[simp] theorem Ppu_setFb_strip1 (p : Ppu) (x y : Nat) (c : Color15) : (p.setFb x y c).strip1 = p.strip1 := rfl
@[simp] theorem Ppu_setFb_drawSel (p : Ppu) (x y : Nat) (c : Color15) : (p.setFb x y c).drawSel = p.drawSel := rfl
@[simp] theorem Ppu_setFb_fb (p : Ppu) (x y : Nat) (c : Color15) : (p.setFb x y c).fb = Sparse.write 0 p.fb (fbIndex x y) c := rfl
@[simp] theorem Ppu_setFb_q (p : Ppu) (x y : Nat) (c : Color15) : (p.setFb x y c).q = p.q := rfl
@[simp] theorem Ppu_setFb_refused (p : Ppu) (x y : Nat) (c : Color15) : (p.setFb x y c).refused = p.refused := rfl

/-! ## Ppu.renderPixel -/

@[simp] theorem Ppu_renderPixel_line (P : Params) (n : Nat) (m : Memory) (x y : Nat) (p : Ppu) : (p.renderPixel P n m x y).line = p.line := rfl
@[simp] theorem Ppu_renderPixel_cycle (P : Params) (n : Nat) (m : Memory) (x y : Nat) (p : Ppu) : (p.renderPixel P n m x y).cycle = p.cycle := rfl
@[simp] theorem Ppu_renderPixel_regs (P : Params) (n : Nat) (m : Memory) (x y : Nat) (p : Ppu) : (p.renderPixel P n m x y).regs = p.regs := rfl
@[simp] theorem Ppu_renderPixel_vblankFlag (P : Params) (n : Nat) (m : Memory) (x y : Nat) (p : Ppu) : (p.renderPixel P n m x y).vblankFlag = p.vblankFlag := rfl
@[simp] theorem Ppu_renderPixel_hblankFlag (P : Params) (n : Nat) (m : Memory) (x y : Nat) (p : Ppu) : (p.renderPixel P n m x y).hblankFlag = p.hblankFlag := rfl
@[simp] theorem Ppu_renderPixel_vcountFlag (P : Params) (n : Nat) (m : Memory) (x y : Nat) (p : Ppu) : (p.renderPixel P n m x y).vcountFlag = p.vcountFlag := rfl
@[simp] theorem Ppu_renderPixel_bgActive (P : Params) (n : Nat) (m : Memory) (x y : Nat) (p : Ppu) : (p.renderPixel P n m x y).bgActive = p.bgActive := rfl
@[simp] theorem Ppu_renderPixel_bgCountdown (P : Params) (n : Nat) (m : Memory) (x y : Nat) (p : Ppu) : (p.renderPixel P n m x y).bgCountdown = p.bgCountdown := rfl
@[simp] theorem Ppu_renderPixel_ix (P : Params) (n : Nat) (m : Memory) (x y : Nat) (p : Ppu) : (p.renderPixel P n m x y).ix = p.ix := rfl
@[simp] theorem Ppu_renderPixel_iy (P : Params) (n : Nat) (m : Memory) (x y : Nat) (p : Ppu) : (p.renderPixel P n m x y).iy = p.iy := rfl
@[simp] theorem Ppu_renderPixel_pendX (P : Params) (n : Nat) (m : Memory) (x y : Nat) (p : Ppu) : (p.renderPixel P n m x y).pendX = p.pendX := rfl
@[simp] theorem Ppu_renderPixel_pendY (P : Params) (n : Nat) (m : Memory) (x y : Nat) (p : Ppu) : (p.renderPixel P n m x y).pendY = p.pendY := rfl
@[simp] theorem Ppu_renderPixel_mix (P : Params) (n : Nat) (m : Memory) (x y : Nat) (p : Ppu) : (p.renderPixel P n m x y).mix = p.mix := rfl
@[simp] theorem Ppu_renderPixel_miy (P : Params) (n : Nat) (m : Memory) (x y : Nat) (p : Ppu) : (p.renderPixel P n m x y).miy = p.miy := rfl
@[simp] theorem Ppu_renderPixel_latch (P : Params) (n : Nat) (m : Memory) (x y : Nat) (p : Ppu) : (p.renderPixel P n m x y).latch = p.latch := rfl
@[simp] theorem Ppu_renderPixel_strip0 (P : Params) (n : Nat) (m : Memory) (x y : Nat) (p : Ppu) : (p.renderPixel P n m x y).strip0 = p.strip0 := rfl
@[simp] theorem Ppu_renderPixel_strip1 (P : Params) (n : Nat) (m : Memory) (x y : Nat) (p : Ppu) : (p.renderPixel P n m x y).strip1 = p.strip1 := rfl
@[simp] theorem Ppu_renderPixel_drawSel (P : Params) (n : Nat) (m : Memory) (x y : Nat) (p : Ppu) : (p.renderPixel P n m x y).drawSel = p.drawSel := rfl
@[simp] theorem Ppu_renderPixel_fb (P : Params) (n : Nat) (m : Memory) (x y : Nat) (p : Ppu) : (p.renderPixel P n m x y).fb = Sparse.write 0 p.fb (fbIndex x y) (if p.refused then P.refusedPixel n else p.pixelColor P n m x y) := rfl
@[simp] theorem Ppu_renderPixel_q (P : Params) (n : Nat) (m : Memory) (x y : Nat) (p : Ppu) : (p.renderPixel P n m x y).q = p.q := rfl
@[simp] theorem Ppu_renderPixel_refused (P : Params) (n : Nat) (m : Memory) (x y : Nat) (p : Ppu) : (p.renderPixel P n m x y).refused = p.refused := rfl

/-! ## Ppu.setEvalStrip -/

@[simp] theorem Ppu_setEvalStrip_line (p : Ppu) (t : Strip) : (p.setEvalStrip t).line = p.line := rfl
@[simp] theorem Ppu_setEvalStrip_cycle (p : Ppu) (t : Strip) : (p.setEvalStrip t).cycle = p.cycle := rfl
@[simp] theorem Ppu_setEvalStrip_regs (p : Ppu) (t : Strip) : (p.setEvalStrip t).regs = p.regs := rfl
@[simp] theorem Ppu_setEvalStrip_vblankFlag (p : Ppu) (t : Strip) : (p.setEvalStrip t).vblankFlag = p.vblankFlag := rfl
@[simp] theorem Ppu_setEvalStrip_hblankFlag (p : Ppu) (t : Strip) : (p.setEvalStrip t).hblankFlag = p.hblankFlag := rfl
@[simp] theorem Ppu_setEvalStrip_vcountFlag (p : Ppu) (t : Strip) : (p.setEvalStrip t).vcountFlag = p.vcountFlag := rfl
@[simp] theorem Ppu_setEvalStrip_bgActive (p : Ppu) (t : Strip) : (p.setEvalStrip t).bgActive = p.bgActive := rfl
@[simp] theorem Ppu_setEvalStrip_bgCountdown (p : Ppu) (t : Strip) : (p.setEvalStrip t).bgCountdown = p.bgCountdown := rfl
@[simp] theorem Ppu_setEvalStrip_ix (p : Ppu) (t : Strip) : (p.setEvalStrip t).ix = p.ix := rfl
@[simp] theorem Ppu_setEvalStrip_iy (p : Ppu) (t : Strip) : (p.setEvalStrip t).iy = p.iy := rfl
@[simp] theorem Ppu_setEvalStrip_pendX (p : Ppu) (t : Strip) : (p.setEvalStrip t).pendX = p.pendX := rfl
@[simp] theorem Ppu_setEvalStrip_pendY (p : Ppu) (t : Strip) : (p.setEvalStrip t).pendY = p.pendY := rfl
@[simp] theorem Ppu_setEvalStrip_mix (p : Ppu) (t : Strip) : (p.setEvalStrip t).mix = p.mix := rfl
@[simp] theorem Ppu_setEvalStrip_miy (p : Ppu) (t : Strip) : (p.setEvalStrip t).miy = p.miy := rfl
@[simp] theorem Ppu_setEvalStrip_latch (p : Ppu) (t : Strip) : (p.setEvalStrip t).latch = p.latch := rfl
@[simp] theorem Ppu_setEvalStrip_strip0 (p : Ppu) (t : Strip) : (p.setEvalStrip t).strip0 = if p.drawSel then t else p.strip0 := rfl
@[simp] theorem Ppu_setEvalStrip_strip1 (p : Ppu) (t : Strip) : (p.setEvalStrip t).strip1 = if p.drawSel then p.strip1 else t := rfl
@[simp] theorem Ppu_setEvalStrip_drawSel (p : Ppu) (t : Strip) : (p.setEvalStrip t).drawSel = p.drawSel := rfl
@[simp] theorem Ppu_setEvalStrip_fb (p : Ppu) (t : Strip) : (p.setEvalStrip t).fb = p.fb := rfl
@[simp] theorem Ppu_setEvalStrip_q (p : Ppu) (t : Strip) : (p.setEvalStrip t).q = p.q := rfl
@[simp] theorem Ppu_setEvalStrip_refused (p : Ppu) (t : Strip) : (p.setEvalStrip t).refused = p.refused := rfl

/-! ## Ppu.beginCycle -/

@[simp] theorem Ppu_beginCycle_line (p : Ppu) : (p.beginCycle).line = p.line := rfl
@[simp] theorem Ppu_beginCycle_cycle (p : Ppu) : (p.beginCycle).cycle = p.cycle := rfl
@[simp] theorem Ppu_beginCycle_regs (p : Ppu) : (p.beginCycle).regs = p.regs := rfl
@[simp] theorem Ppu_beginCycle_vblankFlag (p : Ppu) : (p.beginCycle).vblankFlag = p.vblankFlag := rfl
@[simp] theorem Ppu_beginCycle_hblankFlag (p : Ppu) : (p.beginCycle).hblankFlag = p.hblankFlag := rfl
@[simp] theorem Ppu_beginCycle_vcountFlag (p : Ppu) : (p.beginCycle).vcountFlag = p.vcountFlag := rfl
@[simp] theorem Ppu_beginCycle_bgActive (p : Ppu) : (p.beginCycle).bgActive = p.bgActive := rfl
@[simp] theorem Ppu_beginCycle_bgCountdown (p : Ppu) : (p.beginCycle).bgCountdown = p.bgCountdown := rfl
@[simp] theorem Ppu_beginCycle_ix (p : Ppu) : (p.beginCycle).ix = p.ix := rfl
@[simp] theorem Ppu_beginCycle_iy (p : Ppu) : (p.beginCycle).iy = p.iy := rfl
@[simp] theorem Ppu_beginCycle_pendX (p : Ppu) : (p.beginCycle).pendX = p.pendX := rfl
@[simp] theorem Ppu_beginCycle_pendY (p : Ppu) : (p.beginCycle).pendY = p.pendY := rfl
@[simp] theorem Ppu_beginCycle_mix (p : Ppu) : (p.beginCycle).mix = p.mix := rfl
@[simp] theorem Ppu_beginCycle_miy (p : Ppu) : (p.beginCycle).miy = p.miy := rfl
@[simp] theorem Ppu_beginCycle_latch (p : Ppu) : (p.beginCycle).latch = p.latch := rfl
@[simp] theorem Ppu_beginCycle_strip0 (p : Ppu) : (p.beginCycle).strip0 = p.strip0 := rfl
@[simp] theorem Ppu_beginCycle_strip1 (p : Ppu) : (p.beginCycle).strip1 = p.strip1 := rfl
@[simp] theorem Ppu_beginCycle_drawSel (p : Ppu) : (p.beginCycle).drawSel = p.drawSel := rfl
@[simp] theorem Ppu_beginCycle_fb (p : Ppu) : (p.beginCycle).fb = p.fb := rfl
@[simp] theorem Ppu_beginCycle_q (p : Ppu) : (p.beginCycle).q = [] := rfl
@[simp] theorem Ppu_beginCycle_refused (p : Ppu) : (p.beginCycle).refused = p.refused := rfl

/-- The evaluation buffer after it is replaced. -/
@[simp] theorem Ppu_setEvalStrip_evalStrip (p : Ppu) (t : Strip) : (p.setEvalStrip t).evalStrip = t := by
  cases h : p.drawSel <;> simp [Ppu.evalStrip, h]

/-- Replacing the evaluation buffer never changes the draw buffer (40_scanline_events.md R133). -/
@[simp] theorem Ppu_setEvalStrip_drawStrip (p : Ppu) (t : Strip) : (p.setEvalStrip t).drawStrip = p.drawStrip := by
  cases h : p.drawSel <;> simp [Ppu.drawStrip, h]

/-- Opening the queue twice is opening it once. -/
theorem Ppu_beginCycle_idem (p : Ppu) : p.beginCycle.beginCycle = p.beginCycle := rfl

end Sys2Proof.Machine
end

