-- ==== Sys2Proof/Laws/RegWrite.lean ====
section
/-! SUPPORT. Everything a register write can do, said once. -/

namespace Sys2Proof.Machine

/-- The enable delay of one layer changes only that layer's bgActive and bgCountdown. -/
theorem Ppu_enableEdge_eq (P : Params) (old v : Half) (p : Ppu) (i : BgId) :
    Ppu.enableEdge P old v p i =
      { p with
        bgActive := p.bgActive.set i (if bgEnableBit v i = false then false
          else if bgEnableBit old i = false ∧ P.bgEnableDelayLines = 0 then true else p.bgActive.get i)
        bgCountdown := p.bgCountdown.set i (if bgEnableBit v i = false then 0
          else if bgEnableBit old i = false ∧ P.bgEnableDelayLines ≠ 0 then P.bgEnableDelayLines
          else p.bgCountdown.get i) } := by
  have ha : ∀ {α : Type} (q : PerBg α), q.set i (q.get i) = q := by
    intro α q; cases i <;> rfl
  simp only [Ppu.enableEdge]
  by_cases h1 : bgEnableBit v i = false
  · simp [h1]
  · by_cases h2 : bgEnableBit old i = false
    · by_cases h3 : P.bgEnableDelayLines = 0 <;> simp [h1, h2, h3, ha]
    · simp [h1, h2, ha]

/-- Writing DISPCNT, layer by layer (41_register_access.md R161). -/
theorem Ppu_writeDispcnt_get (P : Params) (v : Half) (p : Ppu) (i : BgId) :
    (p.writeDispcnt P v).bgActive.get i = (if bgEnableBit v i = false then false
      else if bgEnableBit p.regs.dispcnt i = false ∧ P.bgEnableDelayLines = 0 then true else p.bgActive.get i) ∧
    (p.writeDispcnt P v).bgCountdown.get i = (if bgEnableBit v i = false then 0
      else if bgEnableBit p.regs.dispcnt i = false ∧ P.bgEnableDelayLines ≠ 0 then P.bgEnableDelayLines
      else p.bgCountdown.get i) := by
  simp only [Ppu.writeDispcnt, BgId.all, List.foldl, Ppu_enableEdge_eq]
  cases i <;> exact ⟨rfl, rfl⟩

/-- Writing DISPCNT changes DISPCNT and the enable delays, and nothing else. -/
theorem Ppu_writeDispcnt_eq (P : Params) (v : Half) (p : Ppu) :
    p.writeDispcnt P v =
      { p with
        regs := { p.regs with dispcnt := v }
        bgActive := (p.writeDispcnt P v).bgActive
        bgCountdown := (p.writeDispcnt P v).bgCountdown } := by
  simp only [Ppu.writeDispcnt, BgId.all, List.foldl, Ppu_enableEdge_eq]

/-- A register write changes the registers, the enable delays, the internal references with their reload marks, and the
refusal mark at most: not the position, the flags, the latches, the strips, the framebuffer or the event queue. -/
theorem Ppu_writeReg_eq (P : Params) (r : HalfReg) (v : Half) (p : Ppu) :
    p.writeReg P r v =
      { p with
        regs := (p.writeReg P r v).regs
        bgActive := (p.writeReg P r v).bgActive
        bgCountdown := (p.writeReg P r v).bgCountdown
        ix := (p.writeReg P r v).ix
        iy := (p.writeReg P r v).iy
        pendX := (p.writeReg P r v).pendX
        pendY := (p.writeReg P r v).pendY
        refused := (p.writeReg P r v).refused } := by
  cases r
  case dispcnt =>
    simp only [Ppu.writeReg]
    rw [Ppu_writeDispcnt_eq]
  case greenswap =>
    simp only [Ppu.writeReg, Ppu.writeGreenswap]
    split <;> rfl
  case bgxL b => simp only [Ppu.writeReg, Ppu.writeBgxL, Ppu.storeBgx]; split <;> rfl
  case bgxH b => simp only [Ppu.writeReg, Ppu.writeBgxH, Ppu.storeBgx]; split <;> rfl
  case bgyL b => simp only [Ppu.writeReg, Ppu.writeBgyL, Ppu.storeBgy]; split <;> rfl
  case bgyH b => simp only [Ppu.writeReg, Ppu.writeBgyH, Ppu.storeBgy]; split <;> rfl
  all_goals rfl

theorem Ppu_regWritten_refl (p : Ppu) : p.RegWritten p := by constructor <;> rfl

theorem Ppu_regWritten_trans {p q r : Ppu} (h : p.RegWritten q) (h' : q.RegWritten r) : p.RegWritten r where
  line := h'.line.trans h.line
  cycle := h'.cycle.trans h.cycle
  vblankFlag := h'.vblankFlag.trans h.vblankFlag
  hblankFlag := h'.hblankFlag.trans h.hblankFlag
  vcountFlag := h'.vcountFlag.trans h.vcountFlag
  mix := h'.mix.trans h.mix
  miy := h'.miy.trans h.miy
  latch := h'.latch.trans h.latch
  strip0 := h'.strip0.trans h.strip0
  strip1 := h'.strip1.trans h.strip1
  drawSel := h'.drawSel.trans h.drawSel
  fb := h'.fb.trans h.fb
  queue := h'.queue.trans h.queue

theorem Ppu_writeReg_regWritten (P : Params) (r : HalfReg) (v : Half) (p : Ppu) : p.RegWritten (p.writeReg P r v) := by
  constructor <;> rw [Ppu_writeReg_eq]

theorem Ppu_write16_regWritten (P : Params) (o : Nat) (v : Half) (p : Ppu) : p.RegWritten (p.write16 P o v) := by
  simp only [Ppu.write16]
  split
  · exact Ppu_writeReg_regWritten P _ v p
  · exact Ppu_regWritten_refl p

theorem Ppu_write8_regWritten (P : Params) (o : Nat) (v : Byte) (p : Ppu) : p.RegWritten (p.write8 P o v) := by
  simp only [Ppu.write8]
  split
  · exact Ppu_writeReg_regWritten P _ _ p
  · exact Ppu_regWritten_refl p

theorem Ppu_write32_regWritten (P : Params) (o : Nat) (v : OpWord) (p : Ppu) : p.RegWritten (p.write32 P o v) := by
  simp only [Ppu.write32]
  split
  · exact Ppu_regWritten_trans (Ppu_write16_regWritten P _ _ p) (Ppu_write16_regWritten P _ _ _)
  · exact Ppu_regWritten_refl p

/-- A halfword write in the map has an operation, whose meaning is the register's write rule (30_encoding.md R90, R108). -/
theorem exec_halfWriteAt {o : Nat} {r : HalfReg} (h : HalfReg.ofOffset o = some r) (v : Half) :
    ∃ i, halfWriteAt o v = some i ∧ ∀ s, exec i s = .next (s.onPpu (Ppu.writeReg Config.params r v)) := by
  unfold HalfReg.ofOffset at h
  split at h
  all_goals first | (injection h with h; subst h; exact ⟨_, rfl, fun s => rfl⟩) | contradiction

/-- The map has a halfword at every even offset below 0x058 (30_encoding.md R90). -/
theorem HalfReg_ofOffset_some {o : Nat} (ho : o < 0x058) (he : o % 2 = 0) : ∃ r, HalfReg.ofOffset o = some r := by
  have : ∀ o : Fin 0x058, o.val % 2 = 0 → (HalfReg.ofOffset o.val).isSome := by decide
  exact Option.isSome_iff_exists.mp (this ⟨o, ho⟩ he)

end Sys2Proof.Machine
end

