-- ==== Sys2Proof/Laws/Tick.lean ====
section
/-! SUPPORT. Everything a tick can do, said once, class by class (30_encoding.md R110). -/

namespace Sys2Proof.Machine

/-! ## The column composited in a cycle -/

/-- A column found is a column of that cycle, inside the line. -/
theorem renderColumn_some {f : Nat → Nat} {c x : Nat} (h : renderColumn f c = some x) : x < 240 ∧ f x = c := by
  simp only [renderColumn] at h
  have h1 := List.find?_some h
  have h2 := List.mem_of_find?_eq_some h
  exact ⟨List.mem_range.mp h2, by simpa using h1⟩

/-- Where RENDER_CYCLE is strictly increasing, a column is found in its own cycle. -/
theorem renderColumn_at {f : Nat → Nat} (hf : ∀ x y, x < y → y < 240 → f x < f y) {x : Nat} (hx : x < 240) :
    renderColumn f (f x) = some x := by
  have hs : (renderColumn f (f x)).isSome := by
    simp only [renderColumn, List.find?_isSome]
    exact ⟨x, List.mem_range.mpr hx, by simp⟩
  obtain ⟨y, hy⟩ := Option.isSome_iff_exists.mp hs
  obtain ⟨hy1, hy2⟩ := renderColumn_some hy
  rcases Nat.lt_trichotomy x y with h | h | h
  · exact absurd (hf x y h hy1) (by omega)
  · rw [hy, h]
  · exact absurd (hf y x h hx) (by omega)

/-- dispCycle inside the render window and outside it (10_state.md R22). -/
theorem Ppu_dispCycle_eq (p : Ppu) :
    p.dispCycle = if p.line < 160 ∧ 4 ≤ p.cycle ∧ p.cycle ≤ 1006 then some (p.cycle - 4) else none := rfl

/-- The column of a cycle, by the cycle itself: the test of the window is implied by the constraint on RENDER_CYCLE
(92_eei_decisions.md D4). -/
theorem Ppu_columnNow_eq (P : Params) (p : Ppu) :
    p.columnNow P =
      if p.line < 160 ∧ 4 ≤ p.cycle ∧ p.cycle ≤ 1006 then renderColumn P.renderCycle p.cycle else none := by
  simp only [Ppu.columnNow, Ppu_dispCycle_eq]
  by_cases h : p.line < 160 ∧ 4 ≤ p.cycle ∧ p.cycle ≤ 1006
  · simp only [if_pos h, Nat.sub_add_cancel h.2.1]
  · simp only [if_neg h]

/-- A column is composited only on a visible line, in the render window. -/
theorem Ppu_columnNow_some {P : Params} {p : Ppu} {x : Nat} (h : p.columnNow P = some x) :
    p.line < 160 ∧ 4 ≤ p.cycle ∧ p.cycle ≤ 1006 ∧ x < 240 ∧ P.renderCycle x = p.cycle := by
  rw [Ppu_columnNow_eq] at h
  split at h
  · rename_i hc
    exact ⟨hc.1, hc.2.1, hc.2.2, renderColumn_some h⟩
  · cases h

/-! ## The parts of a tick -/

/-- The enable commit, layer by layer (40_scanline_events.md R131). -/
theorem Ppu_commitBgEnables_get (p : Ppu) (i : BgId) :
    p.commitBgEnables.bgCountdown.get i = p.bgCountdown.get i - 1 ∧
    p.commitBgEnables.bgActive.get i =
      (if p.bgCountdown.get i = 1 then bgEnableBit p.regs.dispcnt i else p.bgActive.get i) := by
  cases i <;> exact ⟨rfl, rfl⟩

/-- The enable commit changes only bgActive and bgCountdown. -/
theorem Ppu_commitBgEnables_eq (p : Ppu) :
    p.commitBgEnables =
      { p with bgActive := p.commitBgEnables.bgActive, bgCountdown := p.commitBgEnables.bgCountdown } := rfl

/-- The strip swap (40_scanline_events.md R132): the evaluation buffer becomes the draw buffer, the new evaluation buffer is
empty, and nothing else changes. -/
theorem Ppu_swapStrips_eq (p : Ppu) :
    p.swapStrips =
      { p with
        drawSel := !p.drawSel
        strip0 := if p.drawSel then p.strip0 else []
        strip1 := if p.drawSel then [] else p.strip1 } := by
  cases h : p.drawSel <;> simp [Ppu.swapStrips, Ppu.setEvalStrip, h]

/-- The strip swap keeps the position. -/
theorem Ppu_swapStrips_cycle (p : Ppu) : p.swapStrips.cycle = p.cycle := by rw [Ppu_swapStrips_eq]

/-- The enable commit keeps the position. -/
theorem Ppu_commitBgEnables_cycle (p : Ppu) : p.commitBgEnables.cycle = p.cycle := by rw [Ppu_commitBgEnables_eq]

/-- The line transition (40_scanline_events.md R145) changes the position, hblankFlag, vblankFlag, the affine state and the
queue, and nothing else. -/
theorem Ppu_lineEnd_eq (p : Ppu) :
    p.lineEnd =
      { p with
        line := (p.line + 1) % 228
        cycle := 0
        hblankFlag := false
        vblankFlag := vblankAfter ((p.line + 1) % 228) p.vblankFlag
        ix := p.lineEnd.ix
        iy := p.lineEnd.iy
        pendX := .const false
        pendY := .const false
        mix := p.lineEnd.mix
        miy := p.lineEnd.miy
        latch := p.lineEnd.latch
        q := p.q ++ vblankEvents p.regs.vblankIrq ((p.line + 1) % 228) ++
          [.scheduleLycCompare ((p.line + 1) % 228)] ++ [.spriteEvalReset ((p.line + 1) % 228)] } := rfl

/-- The internal references after a transition (40_scanline_events.md R147). -/
theorem Ppu_lineEnd_reference (p : Ppu) (b : AffId) :
    p.lineEnd.ix.get b = nextReference p.line ((p.line + 1) % 228) (p.pendX.get b) (p.regs.bgx.get b) (p.ix.get b)
      (p.regs.bgpb.get b) ∧
    p.lineEnd.iy.get b = nextReference p.line ((p.line + 1) % 228) (p.pendY.get b) (p.regs.bgy.get b) (p.iy.get b)
      (p.regs.bgpd.get b) := by
  cases b <;> exact ⟨rfl, rfl⟩

/-- The mosaic references and the line latch after a transition (40_scanline_events.md R148), from the updated internal
references. -/
theorem Ppu_lineEnd_latch (p : Ppu) (b : AffId) :
    p.lineEnd.mix.get b = (if p.regs.capturesMosaic ((p.line + 1) % 228) then p.lineEnd.ix.get b else p.mix.get b) ∧
    p.lineEnd.miy.get b = (if p.regs.capturesMosaic ((p.line + 1) % 228) then p.lineEnd.iy.get b else p.miy.get b) ∧
    p.lineEnd.latch.get b =
      (if (p.line + 1) % 228 < 160 then
        { x0 := if p.regs.bgMosaic b.toBg then p.lineEnd.mix.get b else p.lineEnd.ix.get b
          y0 := if p.regs.bgMosaic b.toBg then p.lineEnd.miy.get b else p.lineEnd.iy.get b
          pa := p.regs.bgpa.get b
          pc := p.regs.bgpc.get b
          mh := if p.regs.bgMosaic b.toBg then p.regs.mosaicH else 1 }
      else p.latch.get b) := by
  cases b <;> exact ⟨rfl, rfl, rfl⟩

/-! ## The tick, class by class -/

/-- The classes of a tick come in the order of R130, and at most one of them does anything. -/
theorem Ppu_tick_eq (P : Params) (n : Nat) (m : Memory) (p : Ppu) :
    p.tick P n m = ((p.commitNow.renderNow P n m).hblankNow P).countNow := rfl

theorem Ppu_commitNow_skip {p : Ppu} (h : p.cycle ≠ 0) : p.commitNow = p := if_neg h

theorem Ppu_renderNow_skip {P : Params} {p : Ppu} (h : p.columnNow P = none) (n : Nat) (m : Memory) :
    p.renderNow P n m = p := by
  simp only [Ppu.renderNow, h]

theorem Ppu_renderNow_column {P : Params} {p : Ppu} {x : Nat} (h : p.columnNow P = some x) (n : Nat) (m : Memory) :
    p.renderNow P n m = p.renderPixel P n m x p.line := by
  simp only [Ppu.renderNow, h]

theorem Ppu_columnNow_outside {P : Params} {p : Ppu} (h : ¬(4 ≤ p.cycle ∧ p.cycle ≤ 1006)) : p.columnNow P = none := by
  rw [Ppu_columnNow_eq, if_neg (fun h' => h h'.2)]

theorem Ppu_hblankNow_skip {P : Params} {p : Ppu} (h : p.cycle ≠ 1007) : p.hblankNow P = p := if_neg h

theorem Ppu_countNow_step {p : Ppu} (h : p.cycle ≠ 1231) : p.countNow = { p with cycle := p.cycle + 1 } :=
  if_neg (fun h' => h (Nat.succ.inj h'))

/-- TICK_IDLE (40_scanline_events.md R136). -/
theorem Ppu_tick_idle {P : Params} {n : Nat} {m : Memory} {p : Ppu} (h0 : p.cycle ≠ 0) (hr : p.columnNow P = none)
    (hh : p.cycle ≠ 1007) (he : p.cycle ≠ 1231) :
    p.tick P n m = { p with cycle := p.cycle + 1 } := by
  rw [Ppu_tick_eq, Ppu_commitNow_skip h0, Ppu_renderNow_skip hr, Ppu_hblankNow_skip hh, Ppu_countNow_step he]

/-- TICK_COMMIT (40_scanline_events.md R131, R132). -/
theorem Ppu_tick_commit {P : Params} {n : Nat} {m : Memory} {p : Ppu} (h0 : p.cycle = 0) :
    p.tick P n m = { p.commitBgEnables.swapStrips with cycle := 1 } := by
  have hc : p.commitNow = p.commitBgEnables.swapStrips := if_pos h0
  have h1 : p.commitBgEnables.swapStrips.cycle = 0 := by rw [Ppu_swapStrips_cycle, Ppu_commitBgEnables_cycle, h0]
  rw [Ppu_tick_eq, hc, Ppu_renderNow_skip (Ppu_columnNow_outside (by omega)), Ppu_hblankNow_skip (by omega),
    Ppu_countNow_step (by omega), h1]

/-- TICK_RENDER (40_scanline_events.md R135). -/
theorem Ppu_tick_render {P : Params} {n : Nat} {m : Memory} {p : Ppu} {x : Nat} (hr : p.columnNow P = some x) :
    p.tick P n m = { p.renderPixel P n m x p.line with cycle := p.cycle + 1 } := by
  obtain ⟨-, h4, h5, -, -⟩ := Ppu_columnNow_some hr
  rw [Ppu_tick_eq, Ppu_commitNow_skip (by omega), Ppu_renderNow_column hr,
    Ppu_hblankNow_skip (by simp only [Ppu_renderPixel_cycle]; omega),
    Ppu_countNow_step (by simp only [Ppu_renderPixel_cycle]; omega), Ppu_renderPixel_cycle]

/-- The start of HBlank only emits events (40_scanline_events.md R140). -/
theorem Ppu_hblankStart_eq (P : Params) (p : Ppu) :
    p.hblankStart P =
      { p with
        q := p.q ++ (if decide (p.line < 160) then [.dmaTrigger .hblank] else []) ++
          (if P.videoCaptureLine p.line then [.dmaTrigger .videoCapture] else []) ++ [.scheduleHBlankCommit p.line] } := rfl

/-- TICK_HBLANK (40_scanline_events.md R140). -/
theorem Ppu_tick_hblank {P : Params} {n : Nat} {m : Memory} {p : Ppu} (hh : p.cycle = 1007) :
    p.tick P n m =
      { p with
        q := p.q ++ (if decide (p.line < 160) then [.dmaTrigger .hblank] else []) ++
          (if P.videoCaptureLine p.line then [.dmaTrigger .videoCapture] else []) ++ [.scheduleHBlankCommit p.line]
        cycle := 1008 } := by
  have hs : p.hblankNow P = p.hblankStart P := if_pos hh
  have h2 : (p.hblankStart P).cycle = 1007 := by rw [Ppu_hblankStart_eq]; exact hh
  rw [Ppu_tick_eq, Ppu_commitNow_skip (by omega), Ppu_renderNow_skip (Ppu_columnNow_outside (by omega)), hs,
    Ppu_countNow_step (by omega), h2, Ppu_hblankStart_eq]

/-- TICK_LINE_END (40_scanline_events.md R145). -/
theorem Ppu_tick_lineEnd {P : Params} {n : Nat} {m : Memory} {p : Ppu} (he : p.cycle = 1231) :
    p.tick P n m = p.lineEnd := by
  have hc : p.countNow = ({ p with cycle := p.cycle + 1 } : Ppu).lineEnd := if_pos (by rw [he])
  rw [Ppu_tick_eq, Ppu_commitNow_skip (by omega), Ppu_renderNow_skip (Ppu_columnNow_outside (by omega)),
    Ppu_hblankNow_skip (by omega), hc]
  rfl

/-- The classes of a tick (30_encoding.md R110): every state is in one. -/
theorem Ppu_tick_classes (P : Params) (p : Ppu) :
    p.cycle = 0 ∨ (∃ x, p.columnNow P = some x) ∨ p.cycle = 1007 ∨ p.cycle = 1231 ∨
      (p.cycle ≠ 0 ∧ p.columnNow P = none ∧ p.cycle ≠ 1007 ∧ p.cycle ≠ 1231) := by
  cases h : p.columnNow P with
  | some x => exact Or.inr (Or.inl ⟨x, rfl⟩)
  | none =>
    by_cases h0 : p.cycle = 0
    · exact Or.inl h0
    · by_cases h1 : p.cycle = 1007
      · exact Or.inr (Or.inr (Or.inl h1))
      · by_cases h2 : p.cycle = 1231
        · exact Or.inr (Or.inr (Or.inr (Or.inl h2)))
        · exact Or.inr (Or.inr (Or.inr (Or.inr ⟨h0, rfl, h1, h2⟩)))

/-- No tick touches vcountFlag or the refusal mark (10_state.md R24, R34). -/
theorem Ppu_tick_keeps (P : Params) (n : Nat) (m : Memory) (p : Ppu) :
    (p.tick P n m).vcountFlag = p.vcountFlag ∧ (p.tick P n m).refused = p.refused := by
  rcases Ppu_tick_classes P p with h | ⟨x, h⟩ | h | h | ⟨h0, hr, hh, he⟩
  · rw [Ppu_tick_commit h, Ppu_swapStrips_eq, Ppu_commitBgEnables_eq]
    exact ⟨rfl, rfl⟩
  · rw [Ppu_tick_render h]
    exact ⟨rfl, rfl⟩
  · rw [Ppu_tick_hblank h]
    exact ⟨rfl, rfl⟩
  · rw [Ppu_tick_lineEnd h, Ppu_lineEnd_eq]
    exact ⟨rfl, rfl⟩
  · rw [Ppu_tick_idle h0 hr hh he]
    exact ⟨rfl, rfl⟩

/-- A tick clears hblankFlag at the line end and keeps it elsewhere (40_scanline_events.md R145). -/
theorem Ppu_tick_hblankFlag (P : Params) (n : Nat) (m : Memory) (p : Ppu) :
    (p.tick P n m).hblankFlag = if p.cycle = 1231 then false else p.hblankFlag := by
  rcases Ppu_tick_classes P p with h | ⟨x, h⟩ | h | h | ⟨h0, hr, hh, he⟩
  · have h' : ¬p.cycle = 1231 := by omega
    rw [if_neg h', Ppu_tick_commit h, Ppu_swapStrips_eq, Ppu_commitBgEnables_eq]
  · have h' : ¬p.cycle = 1231 := by
      have := Ppu_columnNow_some h
      omega
    rw [if_neg h', Ppu_tick_render h]
    rfl
  · have h' : ¬p.cycle = 1231 := by omega
    rw [if_neg h', Ppu_tick_hblank h]
  · rw [Ppu_tick_lineEnd h, Ppu_lineEnd_eq, if_pos h]
  · rw [Ppu_tick_idle h0 hr hh he, if_neg he]

/-- A tick adds its events after those of the cycle's commits (60_exceptions.md R305). -/
theorem Ppu_tick_queue (P : Params) (n : Nat) (m : Memory) (p : Ppu) :
    ∃ es, (p.tick P n m).q = p.q ++ es := by
  rcases Ppu_tick_classes P p with h | ⟨x, h⟩ | h | h | ⟨h0, hr, hh, he⟩
  · rw [Ppu_tick_commit h]
    exact ⟨[], (List.append_nil _).symm⟩
  · rw [Ppu_tick_render h]
    exact ⟨[], (List.append_nil _).symm⟩
  · rw [Ppu_tick_hblank h]
    exact ⟨_, by simp only [List.append_assoc]; rfl⟩
  · rw [Ppu_tick_lineEnd h, Ppu_lineEnd_eq]
    exact ⟨_, by simp only [List.append_assoc]; rfl⟩
  · rw [Ppu_tick_idle h0 hr hh he]
    exact ⟨[], (List.append_nil _).symm⟩

/-- What a tick does to the position (40_scanline_events.md R130, R145). -/
theorem Ppu_tick_position (P : Params) (n : Nat) (m : Memory) (p : Ppu) :
    (p.tick P n m).line = (if p.cycle = 1231 then (p.line + 1) % 228 else p.line) ∧
    (p.tick P n m).cycle = (if p.cycle = 1231 then 0 else p.cycle + 1) := by
  rcases Ppu_tick_classes P p with h1 | ⟨x, h1⟩ | h1 | h1 | ⟨h0, hr, hh, he⟩
  · rw [Ppu_tick_commit h1, h1, Ppu_swapStrips_eq]
    exact ⟨rfl, rfl⟩
  · have h2 := Ppu_columnNow_some h1
    have h3 : ¬p.cycle = 1231 := by omega
    rw [Ppu_tick_render h1]
    exact ⟨(if_neg h3).symm, (if_neg h3).symm⟩
  · rw [Ppu_tick_hblank h1, h1]
    exact ⟨rfl, rfl⟩
  · rw [Ppu_tick_lineEnd h1, h1]
    exact ⟨rfl, rfl⟩
  · rw [Ppu_tick_idle h0 hr hh he]
    exact ⟨(if_neg he).symm, (if_neg he).symm⟩

/-! ## Commits -/

/-- A commit changes a flag and the queue, and nothing else (40_scanline_events.md R150, R151). -/
theorem Ppu_applyCommit_eq (p : Ppu) (c : Commit) :
    p.applyCommit c =
      { p with
        hblankFlag := (p.applyCommit c).hblankFlag
        vcountFlag := (p.applyCommit c).vcountFlag
        q := (p.applyCommit c).q } := by
  simp only [Ppu.applyCommit]
  split
  · simp only [Ppu.hblankCommit]
    split <;> rfl
  · rfl

/-- So does a run of commits. -/
theorem Ppu_applyCommits_eq (l : List Commit) (p : Ppu) :
    l.foldl Ppu.applyCommit p =
      { p with
        hblankFlag := (l.foldl Ppu.applyCommit p).hblankFlag
        vcountFlag := (l.foldl Ppu.applyCommit p).vcountFlag
        q := (l.foldl Ppu.applyCommit p).q } := by
  induction l generalizing p with
  | nil => rfl
  | cons c t ih =>
    rw [List.foldl_cons, ih, Ppu_applyCommit_eq]

/-- A commit requests interrupts and emits nothing else, after what the queue holds (60_exceptions.md R301, R305). -/
theorem Ppu_applyCommit_queue (p : Ppu) (c : Commit) :
    ∃ es, (p.applyCommit c).q = p.q ++ es ∧ ∀ e ∈ es, ∃ source, e = .irqRequest source := by
  have hi : ∀ (b : Bool) (source : IrqSource), ∀ e ∈ (if b then [PpuEvent.irqRequest source] else []),
      ∃ source, e = .irqRequest source := by
    intro b source e he
    cases b
    · cases he
    · exact ⟨source, List.mem_singleton.mp he⟩
  simp only [Ppu.applyCommit]
  split
  · simp only [Ppu.hblankCommit]
    split
    · exact ⟨_, rfl, hi _ _⟩
    · exact ⟨[], (List.append_nil _).symm, fun _ h => nomatch h⟩
  · exact ⟨_, rfl, hi _ _⟩

/-- So does a run of commits. -/
theorem Ppu_applyCommits_queue (l : List Commit) (p : Ppu) :
    ∃ es, (l.foldl Ppu.applyCommit p).q = p.q ++ es ∧ ∀ e ∈ es, ∃ source, e = .irqRequest source := by
  induction l generalizing p with
  | nil => exact ⟨[], (List.append_nil _).symm, fun _ h => nomatch h⟩
  | cons c t ih =>
    obtain ⟨a, ha, ha'⟩ := Ppu_applyCommit_queue p c
    obtain ⟨b, hb, hb'⟩ := ih (p.applyCommit c)
    refine ⟨a ++ b, by rw [List.foldl_cons, hb, ha, List.append_assoc], fun e he => ?_⟩
    exact (List.mem_append.mp he).elim (ha' e) (hb' e)

/-! ## The start of a tick -/

/-- A reset is due exactly with a request standing at (160, 0) (70_reset_and_hazards.md R331). -/
theorem State_resetDue_iff (s : State) :
    s.resetDue = true ↔ s.resetRequested = true ∧ s.ppu.line = 160 ∧ s.ppu.cycle = 0 := by
  simp only [State.resetDue, State.atFrameBoundary, Bool.and_eq_true, decide_eq_true_eq, Config.vblankSetLine]

/-- No reset is due in the middle of a line. -/
theorem State_resetDue_cycle {s : State} (h : s.ppu.cycle ≠ 0) : s.resetDue = false :=
  Bool.eq_false_iff.mpr fun h' => h ((State_resetDue_iff s).mp h').2.2

/-- A tick begins, where no reset is due, with the queue emptied and the commits handed over delivered. -/
theorem State_beginTick_eq {s : State} (h : s.resetDue = false) : s.beginTick = s.openCycle := by
  simp only [State.beginTick, State.applyResetRequest, h]
  rfl

/-- Where a reset is due, a tick begins in the reset block, and the request has been served. -/
theorem State_beginTick_reset {s : State} (h : s.resetDue = true) :
    s.beginTick = { s with
      ppu := Ppu.reset, pending := [], handed := [], splitWrites := [], resetRequested := false } := by
  simp only [State.beginTick, State.applyResetRequest, h]
  rfl

/-- What the start of a tick leaves of the block where no reset is due: all but two flags and the queue. -/
theorem State_beginTick_ppu {s : State} (h : s.resetDue = false) :
    s.beginTick.ppu =
      { s.ppu with
        hblankFlag := s.beginTick.ppu.hblankFlag
        vcountFlag := s.beginTick.ppu.vcountFlag
        q := s.beginTick.ppu.q } := by
  rw [State_beginTick_eq h, State_openCycle_ppu, Ppu_applyCommits_eq]
  rfl

/-- The start of a tick touches neither memory nor the model's own fields. -/
theorem State_beginTick_around (s : State) :
    s.beginTick.mem = s.mem ∧ s.beginTick.inbox = s.inbox ∧ s.beginTick.lastRead = s.lastRead ∧
      s.beginTick.draws = s.draws := by
  cases h : s.resetDue
  · rw [State_beginTick_eq h]
    exact ⟨rfl, rfl, rfl, rfl⟩
  · rw [State_beginTick_reset h]
    exact ⟨rfl, rfl, rfl, rfl⟩

/-- What a TICK operation does in the middle of a line, where no reset is due. -/
theorem exec_tick_ppu {s : State} (h : s.resetDue = false) :
    ∃ hb vc q, execTick s = .next { s with
      ppu := Ppu.tick Config.params s.draws s.mem { s.ppu with hblankFlag := hb, vcountFlag := vc, q := q }
      handed := []
      draws := s.draws + 1 } := by
  refine ⟨s.beginTick.ppu.hblankFlag, s.beginTick.ppu.vcountFlag, s.beginTick.ppu.q, ?_⟩
  rw [← State_beginTick_ppu h, execTick, State_beginTick_eq h]
  rfl

/-- A commit handed over is the last one delivered at the start of the next tick; if a reset is due, it is dropped. -/
theorem State_beginTick_hand (s : State) (c : Commit) :
    (s.hand c).beginTick = if s.resetDue then s.beginTick else s.beginTick.deliver [c] := by
  have hd : (s.hand c).resetDue = s.resetDue := rfl
  split
  · rename_i h
    rw [State_beginTick_reset h, State_beginTick_reset (hd.trans h)]
    rfl
  · rename_i h
    rw [State_beginTick_eq (Bool.eq_false_iff.mpr h), State_beginTick_eq (hd.trans (Bool.eq_false_iff.mpr h))]
    simp only [State.openCycle, State.hand, State.deliver, State.onPpu, List.foldl_append]

end Sys2Proof.Machine
end

