-- ==== Sys2Proof/Laws/Exec.lean ====
section
/-! SUPPORT. Everything an operation can do, said once: it is a run of register writes, a read, a tick, a commit, a strip
write or a hard reset, and it always completes. -/

namespace Sys2Proof.Machine

/-- WRITE16 is at most one register write. -/
theorem Ppu_write16_list (P : Params) (o : Nat) (v : Half) :
    ∃ ws : List (HalfReg × Half), ∀ p : Ppu, p.write16 P o v = ws.foldl (fun q w => q.writeReg P w.1 w.2) p := by
  simp only [Ppu.write16]
  split
  · rename_i r _
    exact ⟨[(r, v)], fun _ => rfl⟩
  · exact ⟨[], fun _ => rfl⟩

/-- The kinds of operation (30_encoding.md R108): a theorem about every operation needs one case for each. -/
theorem exec_cases (i : Instr) (s : State) :
    (∃ ws : List (HalfReg × Half),
      exec i s = .next (s.onPpu (fun p => ws.foldl (fun q w => q.writeReg Config.params w.1 w.2) p))) ∨
    (∃ v, exec i s = .next (s.answerRead v)) ∨ i = .tick ∨ (∃ l, i = .hblankCommit l) ∨ (∃ l, i = .lycCommit l) ∨
    (∃ x e, i = .stripWrite x e) ∨ i = .hardReset := by
  cases i
  case wDispcnt v => exact Or.inl ⟨[(.dispcnt, v)], rfl⟩
  case wGreenswap v => exact Or.inl ⟨[(.greenswap, v)], rfl⟩
  case wDispstat v => exact Or.inl ⟨[(.dispstat, v)], rfl⟩
  case wVcount v => exact Or.inl ⟨[(.vcount, v)], rfl⟩
  case wBg0cnt v => exact Or.inl ⟨[((.bgcnt .bg0), v)], rfl⟩
  case wBg1cnt v => exact Or.inl ⟨[((.bgcnt .bg1), v)], rfl⟩
  case wBg2cnt v => exact Or.inl ⟨[((.bgcnt .bg2), v)], rfl⟩
  case wBg3cnt v => exact Or.inl ⟨[((.bgcnt .bg3), v)], rfl⟩
  case wBg0hofs v => exact Or.inl ⟨[((.bghofs .bg0), v)], rfl⟩
  case wBg0vofs v => exact Or.inl ⟨[((.bgvofs .bg0), v)], rfl⟩
  case wBg1hofs v => exact Or.inl ⟨[((.bghofs .bg1), v)], rfl⟩
  case wBg1vofs v => exact Or.inl ⟨[((.bgvofs .bg1), v)], rfl⟩
  case wBg2hofs v => exact Or.inl ⟨[((.bghofs .bg2), v)], rfl⟩
  case wBg2vofs v => exact Or.inl ⟨[((.bgvofs .bg2), v)], rfl⟩
  case wBg3hofs v => exact Or.inl ⟨[((.bghofs .bg3), v)], rfl⟩
  case wBg3vofs v => exact Or.inl ⟨[((.bgvofs .bg3), v)], rfl⟩
  case wBg2pa v => exact Or.inl ⟨[((.bgpa .bg2), v)], rfl⟩
  case wBg2pb v => exact Or.inl ⟨[((.bgpb .bg2), v)], rfl⟩
  case wBg2pc v => exact Or.inl ⟨[((.bgpc .bg2), v)], rfl⟩
  case wBg2pd v => exact Or.inl ⟨[((.bgpd .bg2), v)], rfl⟩
  case wBg2xL v => exact Or.inl ⟨[((.bgxL .bg2), v)], rfl⟩
  case wBg2xH v => exact Or.inl ⟨[((.bgxH .bg2), v)], rfl⟩
  case wBg2yL v => exact Or.inl ⟨[((.bgyL .bg2), v)], rfl⟩
  case wBg2yH v => exact Or.inl ⟨[((.bgyH .bg2), v)], rfl⟩
  case wBg3pa v => exact Or.inl ⟨[((.bgpa .bg3), v)], rfl⟩
  case wBg3pb v => exact Or.inl ⟨[((.bgpb .bg3), v)], rfl⟩
  case wBg3pc v => exact Or.inl ⟨[((.bgpc .bg3), v)], rfl⟩
  case wBg3pd v => exact Or.inl ⟨[((.bgpd .bg3), v)], rfl⟩
  case wBg3xL v => exact Or.inl ⟨[((.bgxL .bg3), v)], rfl⟩
  case wBg3xH v => exact Or.inl ⟨[((.bgxH .bg3), v)], rfl⟩
  case wBg3yL v => exact Or.inl ⟨[((.bgyL .bg3), v)], rfl⟩
  case wBg3yH v => exact Or.inl ⟨[((.bgyH .bg3), v)], rfl⟩
  case wWin0h v => exact Or.inl ⟨[(.win0h, v)], rfl⟩
  case wWin1h v => exact Or.inl ⟨[(.win1h, v)], rfl⟩
  case wWin0v v => exact Or.inl ⟨[(.win0v, v)], rfl⟩
  case wWin1v v => exact Or.inl ⟨[(.win1v, v)], rfl⟩
  case wWinin v => exact Or.inl ⟨[(.winin, v)], rfl⟩
  case wWinout v => exact Or.inl ⟨[(.winout, v)], rfl⟩
  case wMosaic v => exact Or.inl ⟨[(.mosaic, v)], rfl⟩
  case wUnused04E v => exact Or.inl ⟨[(.unused04E, v)], rfl⟩
  case wBldcnt v => exact Or.inl ⟨[(.bldcnt, v)], rfl⟩
  case wBldalpha v => exact Or.inl ⟨[(.bldalpha, v)], rfl⟩
  case wBldy v => exact Or.inl ⟨[(.bldy, v)], rfl⟩
  case wUnused056 v => exact Or.inl ⟨[(.unused056, v)], rfl⟩
  case w16Odd o v =>
    obtain ⟨ws, h⟩ := Ppu_write16_list Config.params (evenOffset o.toNat) v
    exact Or.inl ⟨ws, by simp only [exec, execW16Odd, State.onPpu, h]⟩
  case w8 o v =>
    refine Or.inl ?_
    simp only [exec, execW8, State.onPpu, Ppu.write8]
    split
    · rename_i r _
      exact ⟨[(r, mergeByte (s.ppu.regs.stored r) o.toNat v)], rfl⟩
    · exact ⟨[], rfl⟩
  case w32 o v =>
    obtain ⟨lo, h1⟩ := Ppu_write16_list Config.params o.toNat (v.extractLsb' 0 16)
    obtain ⟨hi, h2⟩ := Ppu_write16_list Config.params (o.toNat + 2) (v.extractLsb' 16 16)
    refine Or.inl ?_
    simp only [exec, execW32, State.onPpu, Ppu.write32]
    split
    · exact ⟨lo ++ hi, by rw [List.foldl_append, h2, h1]⟩
    · exact ⟨[], rfl⟩
  case r8 o => exact Or.inr (Or.inl ⟨_, rfl⟩)
  case r16 o => exact Or.inr (Or.inl ⟨_, rfl⟩)
  case r32 o => exact Or.inr (Or.inl ⟨_, rfl⟩)
  case tick => exact Or.inr (Or.inr (Or.inl rfl))
  case hblankCommit l => exact Or.inr (Or.inr (Or.inr (Or.inl ⟨l, rfl⟩)))
  case lycCommit l => exact Or.inr (Or.inr (Or.inr (Or.inr (Or.inl ⟨l, rfl⟩))))
  case stripWrite x e => exact Or.inr (Or.inr (Or.inr (Or.inr (Or.inr (Or.inl ⟨x, e, rfl⟩)))))
  case hardReset => exact Or.inr (Or.inr (Or.inr (Or.inr (Or.inr (Or.inr rfl)))))

/-- A run of register writes changes nothing that one does not. -/
theorem Ppu_writes_regWritten (P : Params) (ws : List (HalfReg × Half)) (p : Ppu) :
    p.RegWritten (ws.foldl (fun q w => q.writeReg P w.1 w.2) p) := by
  induction ws generalizing p with
  | nil => exact Ppu_regWritten_refl p
  | cons w t ih => exact Ppu_regWritten_trans (Ppu_writeReg_regWritten P w.1 w.2 p) (ih _)

end Sys2Proof.Machine
end

