-- ==== Sys2Proof/Laws/PerInstr.lean ====
section
/-! SUPPORT. One fact per operation: the operation word the encoder writes has the match bits of its row of
spec/opcode_table.json under the row's mask. -/

namespace Sys2Proof.Laws.TableRow

/-- The row's "match" and "mask" of spec/opcode_table.json. -/
def row : Instr → OpWord × OpWord
  | .wDispcnt _ => (0x10000000, 0xFFFFFFFF)
  | .wGreenswap _ => (0x10000002, 0xFFFFFFFF)
  | .wDispstat _ => (0x10000004, 0xFFFFFFFF)
  | .wVcount _ => (0x10000006, 0xFFFFFFFF)
  | .wBg0cnt _ => (0x10000008, 0xFFFFFFFF)
  | .wBg1cnt _ => (0x1000000a, 0xFFFFFFFF)
  | .wBg2cnt _ => (0x1000000c, 0xFFFFFFFF)
  | .wBg3cnt _ => (0x1000000e, 0xFFFFFFFF)
  | .wBg0hofs _ => (0x10000010, 0xFFFFFFFF)
  | .wBg0vofs _ => (0x10000012, 0xFFFFFFFF)
  | .wBg1hofs _ => (0x10000014, 0xFFFFFFFF)
  | .wBg1vofs _ => (0x10000016, 0xFFFFFFFF)
  | .wBg2hofs _ => (0x10000018, 0xFFFFFFFF)
  | .wBg2vofs _ => (0x1000001a, 0xFFFFFFFF)
  | .wBg3hofs _ => (0x1000001c, 0xFFFFFFFF)
  | .wBg3vofs _ => (0x1000001e, 0xFFFFFFFF)
  | .wBg2pa _ => (0x10000020, 0xFFFFFFFF)
  | .wBg2pb _ => (0x10000022, 0xFFFFFFFF)
  | .wBg2pc _ => (0x10000024, 0xFFFFFFFF)
  | .wBg2pd _ => (0x10000026, 0xFFFFFFFF)
  | .wBg2xL _ => (0x10000028, 0xFFFFFFFF)
  | .wBg2xH _ => (0x1000002a, 0xFFFFFFFF)
  | .wBg2yL _ => (0x1000002c, 0xFFFFFFFF)
  | .wBg2yH _ => (0x1000002e, 0xFFFFFFFF)
  | .wBg3pa _ => (0x10000030, 0xFFFFFFFF)
  | .wBg3pb _ => (0x10000032, 0xFFFFFFFF)
  | .wBg3pc _ => (0x10000034, 0xFFFFFFFF)
  | .wBg3pd _ => (0x10000036, 0xFFFFFFFF)
  | .wBg3xL _ => (0x10000038, 0xFFFFFFFF)
  | .wBg3xH _ => (0x1000003a, 0xFFFFFFFF)
  | .wBg3yL _ => (0x1000003c, 0xFFFFFFFF)
  | .wBg3yH _ => (0x1000003e, 0xFFFFFFFF)
  | .wWin0h _ => (0x10000040, 0xFFFFFFFF)
  | .wWin1h _ => (0x10000042, 0xFFFFFFFF)
  | .wWin0v _ => (0x10000044, 0xFFFFFFFF)
  | .wWin1v _ => (0x10000046, 0xFFFFFFFF)
  | .wWinin _ => (0x10000048, 0xFFFFFFFF)
  | .wWinout _ => (0x1000004a, 0xFFFFFFFF)
  | .wMosaic _ => (0x1000004c, 0xFFFFFFFF)
  | .wUnused04E _ => (0x1000004e, 0xFFFFFFFF)
  | .wBldcnt _ => (0x10000050, 0xFFFFFFFF)
  | .wBldalpha _ => (0x10000052, 0xFFFFFFFF)
  | .wBldy _ => (0x10000054, 0xFFFFFFFF)
  | .wUnused056 _ => (0x10000056, 0xFFFFFFFF)
  | .w16Odd _ _ => (0x10000001, 0xFFFFFC01)
  | .w8 _ _ => (0x00000000, 0xFFFFFC00)
  | .w32 _ _ => (0x20000000, 0xFFFFFC00)
  | .r8 _ => (0x40000000, 0xFFFFFC00)
  | .r16 _ => (0x50000000, 0xFFFFFC00)
  | .r32 _ => (0x60000000, 0xFFFFFC00)
  | .tick => (0x80000000, 0xFFFFFFFF)
  | .hblankCommit _ => (0x90000000, 0xFFFFFFFF)
  | .lycCommit _ => (0xa0000000, 0xFFFFFFFF)
  | .stripWrite _ _ => (0xb0000000, 0xFFFFFC00)
  | .hardReset => (0xc0000000, 0xFFFFFFFF)

/-- The encoded operation word matches the row. -/
def Statement (i : Instr) : Prop := i.wellFormed = true → (encode i).1 &&& (row i).2 = (row i).1

/-- A word with any low bits, under the mask that leaves them out. -/
theorem low_row (kind code : BitVec 2) (low : BitVec 10) : opWord kind code low &&& 0xFFFFFC00 = opWord kind code 0 := by
  have h := @BitVec.and_append (2 + 2 + 18) 10 (kind ++ code ++ 0#18) (BitVec.allOnes _) low 0#10
  rw [BitVec.and_allOnes, BitVec.and_zero] at h
  exact h

/-- The row of W16_ODD also fixes bit 0 of the offset. -/
theorem w16Odd_row {value : Half} (offset : BitVec 10) (h : (Instr.w16Odd offset value).wellFormed = true) :
    opWord 0 1 offset &&& 0xFFFFFC01 = 0x10000001 := by
  have h1 : offset.toNat % 2 = 1 := by
    simp only [Instr.wellFormed, Bool.and_eq_true, decide_eq_true_eq] at h
    exact h.2
  have h0 : offset &&& 1#10 = 1#10 := by
    apply BitVec.eq_of_toNat_eq
    simp [Nat.and_one_is_mod, h1]
  have h := @BitVec.and_append (2 + 2 + 18) 10 (0#2 ++ 1#2 ++ 0#18) (BitVec.allOnes _) offset 1#10
  rw [BitVec.and_allOnes, h0] at h
  exact h

theorem wDispcnt (value : Half) : Statement (.wDispcnt value) := fun _ =>
  (by decide : opWord 0 1 0x000 &&& 0xFFFFFFFF = 0x10000000)

theorem wGreenswap (value : Half) : Statement (.wGreenswap value) := fun _ =>
  (by decide : opWord 0 1 0x002 &&& 0xFFFFFFFF = 0x10000002)

theorem wDispstat (value : Half) : Statement (.wDispstat value) := fun _ =>
  (by decide : opWord 0 1 0x004 &&& 0xFFFFFFFF = 0x10000004)

theorem wVcount (value : Half) : Statement (.wVcount value) := fun _ =>
  (by decide : opWord 0 1 0x006 &&& 0xFFFFFFFF = 0x10000006)

theorem wBg0cnt (value : Half) : Statement (.wBg0cnt value) := fun _ =>
  (by decide : opWord 0 1 0x008 &&& 0xFFFFFFFF = 0x10000008)

theorem wBg1cnt (value : Half) : Statement (.wBg1cnt value) := fun _ =>
  (by decide : opWord 0 1 0x00A &&& 0xFFFFFFFF = 0x1000000A)

theorem wBg2cnt (value : Half) : Statement (.wBg2cnt value) := fun _ =>
  (by decide : opWord 0 1 0x00C &&& 0xFFFFFFFF = 0x1000000C)

theorem wBg3cnt (value : Half) : Statement (.wBg3cnt value) := fun _ =>
  (by decide : opWord 0 1 0x00E &&& 0xFFFFFFFF = 0x1000000E)

theorem wBg0hofs (value : Half) : Statement (.wBg0hofs value) := fun _ =>
  (by decide : opWord 0 1 0x010 &&& 0xFFFFFFFF = 0x10000010)

theorem wBg0vofs (value : Half) : Statement (.wBg0vofs value) := fun _ =>
  (by decide : opWord 0 1 0x012 &&& 0xFFFFFFFF = 0x10000012)

theorem wBg1hofs (value : Half) : Statement (.wBg1hofs value) := fun _ =>
  (by decide : opWord 0 1 0x014 &&& 0xFFFFFFFF = 0x10000014)

theorem wBg1vofs (value : Half) : Statement (.wBg1vofs value) := fun _ =>
  (by decide : opWord 0 1 0x016 &&& 0xFFFFFFFF = 0x10000016)

theorem wBg2hofs (value : Half) : Statement (.wBg2hofs value) := fun _ =>
  (by decide : opWord 0 1 0x018 &&& 0xFFFFFFFF = 0x10000018)

theorem wBg2vofs (value : Half) : Statement (.wBg2vofs value) := fun _ =>
  (by decide : opWord 0 1 0x01A &&& 0xFFFFFFFF = 0x1000001A)

theorem wBg3hofs (value : Half) : Statement (.wBg3hofs value) := fun _ =>
  (by decide : opWord 0 1 0x01C &&& 0xFFFFFFFF = 0x1000001C)

theorem wBg3vofs (value : Half) : Statement (.wBg3vofs value) := fun _ =>
  (by decide : opWord 0 1 0x01E &&& 0xFFFFFFFF = 0x1000001E)

theorem wBg2pa (value : Half) : Statement (.wBg2pa value) := fun _ =>
  (by decide : opWord 0 1 0x020 &&& 0xFFFFFFFF = 0x10000020)

theorem wBg2pb (value : Half) : Statement (.wBg2pb value) := fun _ =>
  (by decide : opWord 0 1 0x022 &&& 0xFFFFFFFF = 0x10000022)

theorem wBg2pc (value : Half) : Statement (.wBg2pc value) := fun _ =>
  (by decide : opWord 0 1 0x024 &&& 0xFFFFFFFF = 0x10000024)

theorem wBg2pd (value : Half) : Statement (.wBg2pd value) := fun _ =>
  (by decide : opWord 0 1 0x026 &&& 0xFFFFFFFF = 0x10000026)

theorem wBg2xL (value : Half) : Statement (.wBg2xL value) := fun _ =>
  (by decide : opWord 0 1 0x028 &&& 0xFFFFFFFF = 0x10000028)

theorem wBg2xH (value : Half) : Statement (.wBg2xH value) := fun _ =>
  (by decide : opWord 0 1 0x02A &&& 0xFFFFFFFF = 0x1000002A)

theorem wBg2yL (value : Half) : Statement (.wBg2yL value) := fun _ =>
  (by decide : opWord 0 1 0x02C &&& 0xFFFFFFFF = 0x1000002C)

theorem wBg2yH (value : Half) : Statement (.wBg2yH value) := fun _ =>
  (by decide : opWord 0 1 0x02E &&& 0xFFFFFFFF = 0x1000002E)

theorem wBg3pa (value : Half) : Statement (.wBg3pa value) := fun _ =>
  (by decide : opWord 0 1 0x030 &&& 0xFFFFFFFF = 0x10000030)

theorem wBg3pb (value : Half) : Statement (.wBg3pb value) := fun _ =>
  (by decide : opWord 0 1 0x032 &&& 0xFFFFFFFF = 0x10000032)

theorem wBg3pc (value : Half) : Statement (.wBg3pc value) := fun _ =>
  (by decide : opWord 0 1 0x034 &&& 0xFFFFFFFF = 0x10000034)

theorem wBg3pd (value : Half) : Statement (.wBg3pd value) := fun _ =>
  (by decide : opWord 0 1 0x036 &&& 0xFFFFFFFF = 0x10000036)

theorem wBg3xL (value : Half) : Statement (.wBg3xL value) := fun _ =>
  (by decide : opWord 0 1 0x038 &&& 0xFFFFFFFF = 0x10000038)

theorem wBg3xH (value : Half) : Statement (.wBg3xH value) := fun _ =>
  (by decide : opWord 0 1 0x03A &&& 0xFFFFFFFF = 0x1000003A)

theorem wBg3yL (value : Half) : Statement (.wBg3yL value) := fun _ =>
  (by decide : opWord 0 1 0x03C &&& 0xFFFFFFFF = 0x1000003C)

theorem wBg3yH (value : Half) : Statement (.wBg3yH value) := fun _ =>
  (by decide : opWord 0 1 0x03E &&& 0xFFFFFFFF = 0x1000003E)

theorem wWin0h (value : Half) : Statement (.wWin0h value) := fun _ =>
  (by decide : opWord 0 1 0x040 &&& 0xFFFFFFFF = 0x10000040)

theorem wWin1h (value : Half) : Statement (.wWin1h value) := fun _ =>
  (by decide : opWord 0 1 0x042 &&& 0xFFFFFFFF = 0x10000042)

theorem wWin0v (value : Half) : Statement (.wWin0v value) := fun _ =>
  (by decide : opWord 0 1 0x044 &&& 0xFFFFFFFF = 0x10000044)

theorem wWin1v (value : Half) : Statement (.wWin1v value) := fun _ =>
  (by decide : opWord 0 1 0x046 &&& 0xFFFFFFFF = 0x10000046)

theorem wWinin (value : Half) : Statement (.wWinin value) := fun _ =>
  (by decide : opWord 0 1 0x048 &&& 0xFFFFFFFF = 0x10000048)

theorem wWinout (value : Half) : Statement (.wWinout value) := fun _ =>
  (by decide : opWord 0 1 0x04A &&& 0xFFFFFFFF = 0x1000004A)

theorem wMosaic (value : Half) : Statement (.wMosaic value) := fun _ =>
  (by decide : opWord 0 1 0x04C &&& 0xFFFFFFFF = 0x1000004C)

theorem wUnused04E (value : Half) : Statement (.wUnused04E value) := fun _ =>
  (by decide : opWord 0 1 0x04E &&& 0xFFFFFFFF = 0x1000004E)

theorem wBldcnt (value : Half) : Statement (.wBldcnt value) := fun _ =>
  (by decide : opWord 0 1 0x050 &&& 0xFFFFFFFF = 0x10000050)

theorem wBldalpha (value : Half) : Statement (.wBldalpha value) := fun _ =>
  (by decide : opWord 0 1 0x052 &&& 0xFFFFFFFF = 0x10000052)

theorem wBldy (value : Half) : Statement (.wBldy value) := fun _ =>
  (by decide : opWord 0 1 0x054 &&& 0xFFFFFFFF = 0x10000054)

theorem wUnused056 (value : Half) : Statement (.wUnused056 value) := fun _ =>
  (by decide : opWord 0 1 0x056 &&& 0xFFFFFFFF = 0x10000056)

theorem w16Odd (offset : BitVec 10) (value : Half) : Statement (.w16Odd offset value) := fun h => w16Odd_row offset h

theorem w8 (offset : BitVec 10) (value : Byte) : Statement (.w8 offset value) := fun _ => low_row 0 0 offset

theorem w32 (offset : BitVec 10) (value : OpWord) : Statement (.w32 offset value) := fun _ => low_row 0 2 offset

theorem r8 (offset : BitVec 10) : Statement (.r8 offset) := fun _ => low_row 1 0 offset

theorem r16 (offset : BitVec 10) : Statement (.r16 offset) := fun _ => low_row 1 1 offset

theorem r32 (offset : BitVec 10) : Statement (.r32 offset) := fun _ => low_row 1 2 offset

theorem tick : Statement (.tick) := fun _ =>
  (by decide : opWord 2 0 0x000 &&& 0xFFFFFFFF = 0x80000000)

theorem hblankCommit (line : Byte) : Statement (.hblankCommit line) := fun _ =>
  (by decide : opWord 2 1 0x000 &&& 0xFFFFFFFF = 0x90000000)

theorem lycCommit (line : Byte) : Statement (.lycCommit line) := fun _ =>
  (by decide : opWord 2 2 0x000 &&& 0xFFFFFFFF = 0xA0000000)

theorem stripWrite (column : BitVec 10) (entry : SpriteEntry) : Statement (.stripWrite column entry) := fun _ => low_row 2 3 column

theorem hardReset : Statement (.hardReset) := fun _ =>
  (by decide : opWord 3 0 0x000 &&& 0xFFFFFFFF = 0xC0000000)

/-- Every operation matches its row. -/
theorem all (i : Instr) : Statement i := by
  cases i
  case wDispcnt value => exact TableRow.wDispcnt value
  case wGreenswap value => exact TableRow.wGreenswap value
  case wDispstat value => exact TableRow.wDispstat value
  case wVcount value => exact TableRow.wVcount value
  case wBg0cnt value => exact TableRow.wBg0cnt value
  case wBg1cnt value => exact TableRow.wBg1cnt value
  case wBg2cnt value => exact TableRow.wBg2cnt value
  case wBg3cnt value => exact TableRow.wBg3cnt value
  case wBg0hofs value => exact TableRow.wBg0hofs value
  case wBg0vofs value => exact TableRow.wBg0vofs value
  case wBg1hofs value => exact TableRow.wBg1hofs value
  case wBg1vofs value => exact TableRow.wBg1vofs value
  case wBg2hofs value => exact TableRow.wBg2hofs value
  case wBg2vofs value => exact TableRow.wBg2vofs value
  case wBg3hofs value => exact TableRow.wBg3hofs value
  case wBg3vofs value => exact TableRow.wBg3vofs value
  case wBg2pa value => exact TableRow.wBg2pa value
  case wBg2pb value => exact TableRow.wBg2pb value
  case wBg2pc value => exact TableRow.wBg2pc value
  case wBg2pd value => exact TableRow.wBg2pd value
  case wBg2xL value => exact TableRow.wBg2xL value
  case wBg2xH value => exact TableRow.wBg2xH value
  case wBg2yL value => exact TableRow.wBg2yL value
  case wBg2yH value => exact TableRow.wBg2yH value
  case wBg3pa value => exact TableRow.wBg3pa value
  case wBg3pb value => exact TableRow.wBg3pb value
  case wBg3pc value => exact TableRow.wBg3pc value
  case wBg3pd value => exact TableRow.wBg3pd value
  case wBg3xL value => exact TableRow.wBg3xL value
  case wBg3xH value => exact TableRow.wBg3xH value
  case wBg3yL value => exact TableRow.wBg3yL value
  case wBg3yH value => exact TableRow.wBg3yH value
  case wWin0h value => exact TableRow.wWin0h value
  case wWin1h value => exact TableRow.wWin1h value
  case wWin0v value => exact TableRow.wWin0v value
  case wWin1v value => exact TableRow.wWin1v value
  case wWinin value => exact TableRow.wWinin value
  case wWinout value => exact TableRow.wWinout value
  case wMosaic value => exact TableRow.wMosaic value
  case wUnused04E value => exact TableRow.wUnused04E value
  case wBldcnt value => exact TableRow.wBldcnt value
  case wBldalpha value => exact TableRow.wBldalpha value
  case wBldy value => exact TableRow.wBldy value
  case wUnused056 value => exact TableRow.wUnused056 value
  case w16Odd offset value => exact TableRow.w16Odd offset value
  case w8 offset value => exact TableRow.w8 offset value
  case w32 offset value => exact TableRow.w32 offset value
  case r8 offset => exact TableRow.r8 offset
  case r16 offset => exact TableRow.r16 offset
  case r32 offset => exact TableRow.r32 offset
  case tick => exact TableRow.tick
  case hblankCommit line => exact TableRow.hblankCommit line
  case lycCommit line => exact TableRow.lycCommit line
  case stripWrite column entry => exact TableRow.stripWrite column entry
  case hardReset => exact TableRow.hardReset

end Sys2Proof.Laws.TableRow
end

