-- ==== Sys2Proof/Laws/Safety.lean ====
section
/-! SUPPORT. The tables the statements use, tied once to the operations of the model. -/

namespace Sys2Proof.Machine

/-- The stored halfword of a register is the table's at its offset (30_encoding.md R90, R109). -/
theorem Regs_stored_table {o : Nat} {h : HalfReg} (ho : HalfReg.ofOffset o = some h) (r : Regs) :
    r.stored h = r.storedTable o := by
  unfold HalfReg.ofOffset at ho
  split at ho <;> first | (injection ho with ho; subst ho; rfl) | cases ho

end Sys2Proof.Machine
end

