-- ==== Sys2Proof/Laws/Scheduler.lean ====
section
/-! SUPPORT. What the operations of the agents around the block can do, said once: the landing of a split
write, a guarded memory write, a cycle of the scheduler, advanceFrame. -/

namespace Sys2Proof.Machine

/-- No commit clears hblankFlag (40_scanline_events.md R150). -/
theorem Ppu_applyCommits_hblank (l : List Commit) (p : Ppu) (h : p.hblankFlag = true) :
    (l.foldl Ppu.applyCommit p).hblankFlag = true := by
  induction l generalizing p with
  | nil => exact h
  | cons c t ih =>
    refine ih _ ?_
    simp only [Ppu.applyCommit]
    split
    · simp only [Ppu.hblankCommit]
      split
      · rfl
      · exact h
    · exact h

/-- The landing of a split half changes memory and the waiting halves, and nothing else (20_memory.md R77). -/
theorem State_landSplitWrite_eq (P : Params) (s : State) :
    s.landSplitWrite P = { s with mem := (s.landSplitWrite P).mem, splitWrites := (s.landSplitWrite P).splitWrites } := by
  simp only [State.landSplitWrite]
  split
  · rfl
  · split <;> rfl

/-- A guarded memory write completes exactly inside its region and aligned (notes/assumptions/15.md). -/
theorem guardWrite_next (space : Space) (offset n : Nat) (t u : State) :
    guardWrite space offset n t = .next u ↔ offset + n ≤ space.size ∧ offset % n = 0 ∧ t = u := by
  simp only [guardWrite]
  split
  · simp only [reduceCtorEq, false_iff]; omega
  · split
    · simp only [reduceCtorEq, false_iff]; omega
    · simp only [Host.Outcome.next.injEq]
      constructor
      · exact fun h => ⟨by omega, by omega, h⟩
      · exact fun h => h.2.2

/-- A cycle delivers the due commits, each once and in some order, after the start of its tick and before the tick's own work
(60_exceptions.md R302, R305). -/
theorem State_schedulerCycle_ppu (P : Params) (s : State) :
    ∃ due : List Commit, due.Perm ((s.beginTick.pending.filter fun c => c.left ≤ 1).map PendingCommit.commit) ∧
      (s.schedulerCycle P).ppu =
        (due.foldl Ppu.applyCommit s.beginTick.ppu).tick P s.beginTick.draws (s.schedulerCycle P).mem := by
  have hd : ((s.beginTick.pending.map PendingCommit.countDown).filter fun c => decide (c.left = 0)).map
        PendingCommit.commit =
      (s.beginTick.pending.filter fun c => decide (c.left ≤ 1)).map PendingCommit.commit := by
    rw [List.filter_map, List.map_map]
    congr 2
    funext c
    exact decide_eq_decide.2 (show c.left - 1 = 0 ↔ c.left ≤ 1 by omega)
  refine ⟨if P.commitsReversed s.beginTick.draws then
      ((s.beginTick.pending.filter fun c => decide (c.left ≤ 1)).map PendingCommit.commit).reverse
    else (s.beginTick.pending.filter fun c => decide (c.left ≤ 1)).map PendingCommit.commit, ?_, ?_⟩
  · split
    · exact List.reverse_perm _
    · exact List.Perm.refl _
  · rw [State.schedulerCycle, State_landSplitWrite_eq]
    show Ppu.tick P s.beginTick.draws _ ((s.beginTick.deliverDue P).ppu) = _
    congr 1
    show List.foldl Ppu.applyCommit _ (if P.commitsReversed s.beginTick.draws then _ else _) = _
    rw [hd]

/-- What stays scheduled after a cycle: what was not due, one cycle nearer, and what the cycle's events schedule
(60_exceptions.md R302). -/
theorem State_schedulerCycle_pending (P : Params) (s : State) :
    (s.schedulerCycle P).pending = (s.beginTick.pending.filter fun c => 1 < c.left).map PendingCommit.countDown ++
      (s.schedulerCycle P).ppu.q.filterMap (PendingCommit.ofEvent P) := by
  have hn : (s.beginTick.pending.map PendingCommit.countDown).filter (fun c => decide (c.left ≠ 0)) =
      (s.beginTick.pending.filter fun c => decide (1 < c.left)).map PendingCommit.countDown := by
    rw [List.filter_map]
    congr 2
    funext c
    exact decide_eq_decide.2 (show c.left - 1 ≠ 0 ↔ 1 < c.left by omega)
  rw [← hn, State.schedulerCycle, State_landSplitWrite_eq]
  rfl

/-- A cycle depends on the state only through what its tick begins with. -/
theorem State_schedulerCycle_begin (P : Params) {s t : State} (h : s.beginTick = t.beginTick) :
    s.schedulerCycle P = t.schedulerCycle P := by
  rw [State.schedulerCycle, State.schedulerCycle, h]

/-- A request stands after a cycle unless it was due at its start (70_reset_and_hazards.md R331). -/
theorem State_schedulerCycle_request (P : Params) (s : State) :
    (s.schedulerCycle P).resetRequested = (s.resetRequested && !s.resetDue) := by
  rw [State.schedulerCycle, State_landSplitWrite_eq]
  show s.beginTick.resetRequested = _
  cases h : s.resetDue
  · rw [State_beginTick_eq h]
    exact (Bool.and_true _).symm
  · rw [State_beginTick_reset h]
    exact (Bool.and_false _).symm

/-- Where no reset is requested none becomes due, however many cycles pass. -/
theorem State_cycles_request {s : State} (h : s.resetRequested = false) (n : Nat) : (State.cycles n s).resetDue = false := by
  induction n generalizing s with
  | zero => simp only [State.cycles, State.resetDue, h, Bool.false_and]
  | succ n ih => exact ih (by rw [State_schedulerCycle_request, h, Bool.false_and])

/-- advanceFrame is a run of steps (60_exceptions.md R323): the state it answers is reached by at most `fuel` steps, and the
framebuffer it answers is that state's. -/
theorem State_advanceFrame_steps {fuel : Nat} {s t : State} {f : Framebuffer}
    (h : s.advanceFrame fuel = some (f, t)) :
    f = t.ppu.fb ∧ ∃ k, k ≤ fuel ∧ Sys2Proof.core.run k s = .next t := by
  induction fuel generalizing s with
  | zero => cases h
  | succ fuel ih =>
    rw [State.advanceFrame] at h
    have hs : Sys2Proof.core.step s = performNext s := rfl
    revert h hs
    cases performNext s with
    | fault r => exact fun h => nomatch h
    | refused r => exact fun h => nomatch h
    | next u =>
      intro h hs
      dsimp only at h
      split at h
      · simp only [Option.some.injEq, Prod.mk.injEq] at h
        refine ⟨by rw [← h.1, h.2], 1, Nat.succ_pos fuel, ?_⟩
        simp only [Host.Core.run, hs, h.2]
      · obtain ⟨hf, k, hk, hr⟩ := ih h
        exact ⟨hf, k + 1, Nat.succ_le_succ hk, by simp only [Host.Core.run, hs, hr]⟩

end Sys2Proof.Machine
end

