-- ==== Sys2Proof/Laws/Sparse.lean ====
section
/-! SUPPORT. Laws of the sparse tables and of the memory: read after write, and the canonical form is kept. -/

namespace Sys2Proof.Machine

variable {α : Type} [DecidableEq α] {d : α} {bound lo : Nat} {m : List (Nat × α)}

/-- A table whose keys are all at least `lo` holds the default below `lo`. -/
theorem Sparse.read_below (h : Sparse.wf d bound lo m = true) {a : Nat} (ha : a < lo) : Sparse.read d m a = d := by
  induction m generalizing lo with
  | nil => rfl
  | cons e t ih =>
    obtain ⟨k, v⟩ := e
    simp only [Sparse.wf, Bool.and_eq_true, decide_eq_true_eq] at h
    have hk : k ≠ a := by omega
    simp only [Sparse.read, hk, if_false]
    exact ih h.2 (by omega)

/-- Canonical form from a higher key is canonical form from a lower one. -/
theorem Sparse.wf_mono (h : Sparse.wf d bound lo m = true) {lo' : Nat} (hl : lo' ≤ lo) : Sparse.wf d bound lo' m = true := by
  cases m with
  | nil => rfl
  | cons e t =>
    simp only [Sparse.wf, Bool.and_eq_true, decide_eq_true_eq] at h ⊢
    exact ⟨⟨⟨by omega, h.1.1.2⟩, h.1.2⟩, h.2⟩

/-- A write leaves every other key alone, in any table. -/
theorem Sparse.read_write_ne {a b : Nat} (v : α) (h : b ≠ a) : Sparse.read d (Sparse.write d m a v) b = Sparse.read d m b := by
  induction m with
  | nil => by_cases hv : v = d <;> simp [Sparse.write, Sparse.read, hv, Ne.symm h]
  | cons e t ih =>
    obtain ⟨k, w⟩ := e
    simp only [Sparse.write]
    split
    · split
      · rfl
      · simp [Sparse.read, Ne.symm h]
    · split
      · rename_i hk
        split <;> simp [Sparse.read, ← hk, Ne.symm h]
      · simp only [Sparse.read, ih]

/-- A read after a write to the same key gives the value written. -/
theorem Sparse.read_write_self (h : Sparse.wf d bound lo m = true) (a : Nat) (v : α) :
    Sparse.read d (Sparse.write d m a v) a = v := by
  induction m generalizing lo with
  | nil => by_cases hv : v = d <;> simp [Sparse.write, Sparse.read, hv]
  | cons e t ih =>
    obtain ⟨k, w⟩ := e
    simp only [Sparse.wf, Bool.and_eq_true, decide_eq_true_eq] at h
    simp only [Sparse.write]
    split
    · rename_i hak
      split
      · rename_i hv
        have hk : k ≠ a := by omega
        simp only [Sparse.read, hk, if_false]
        rw [hv]
        exact Sparse.read_below h.2 (by omega)
      · simp [Sparse.read]
    · split
      · rename_i hk
        split
        · rename_i hv
          rw [hv]
          exact Sparse.read_below h.2 (by omega)
        · simp [Sparse.read]
      · rename_i hk
        have hk' : k ≠ a := fun e => hk e.symm
        simp only [Sparse.read, hk', if_false]
        exact ih h.2

/-- A write inside the table keeps the canonical form. -/
theorem Sparse.wf_write (h : Sparse.wf d bound lo m = true) {a : Nat} (v : α) (hlo : lo ≤ a) (ha : a < bound) :
    Sparse.wf d bound lo (Sparse.write d m a v) = true := by
  induction m generalizing lo with
  | nil => by_cases hv : v = d <;> simp [Sparse.write, Sparse.wf, hv, hlo, ha]
  | cons e t ih =>
    obtain ⟨k, w⟩ := e
    have h0 := h
    simp only [Sparse.wf, Bool.and_eq_true, decide_eq_true_eq] at h
    simp only [Sparse.write]
    split
    · split
      · exact h0
      · rename_i hak hv
        simp only [Sparse.wf, Bool.and_eq_true, decide_eq_true_eq]
        exact ⟨⟨⟨hlo, ha⟩, hv⟩, ⟨⟨by omega, h.1.1.2⟩, h.1.2⟩, h.2⟩
    · split
      · rename_i hk
        split
        · exact Sparse.wf_mono h.2 (by omega)
        · rename_i hv
          simp only [Sparse.wf, Bool.and_eq_true, decide_eq_true_eq]
          exact ⟨⟨⟨hlo, ha⟩, hv⟩, hk ▸ h.2⟩
      · simp only [Sparse.wf, Bool.and_eq_true, decide_eq_true_eq]
        exact ⟨h.1, ih h.2 (by omega)⟩

/-! ## Memory -/

/-- The listed bytes of a replaced region. -/
@[simp] theorem Memory.cells_setCells_self (m : Memory) (s : Space) (c : List Host.Cell) : (m.setCells s c).cells s = c := by
  cases s <;> rfl

/-- Replacing one region leaves the others alone. -/
theorem Memory.cells_setCells_ne (m : Memory) {s s' : Space} (h : s' ≠ s) (c : List Host.Cell) :
    (m.setCells s c).cells s' = m.cells s' := by
  cases s <;> cases s' <;> first | rfl | exact absurd rfl h

/-- The canonical form, region by region. -/
theorem Memory.wf_iff (m : Memory) : m.wf = true ↔ ∀ s, Sparse.wf Memory.unlisted s.size 0 (m.cells s) = true := by
  constructor
  · intro h s
    simp only [Memory.wf, Bool.and_eq_true] at h
    cases s
    · exact h.1.1
    · exact h.1.2
    · exact h.2
  · intro h
    simp only [Memory.wf, Bool.and_eq_true]
    exact ⟨⟨h .vram, h .pal⟩, h .oam⟩

/-- A byte write leaves every other byte of every region alone. -/
theorem Memory.readByte_writeByte_ne (m : Memory) {s s' : Space} {a b : Nat} (v : Byte) (h : s' ≠ s ∨ b ≠ a) :
    (m.writeByte s a v).readByte s' b = m.readByte s' b := by
  by_cases hs : s' = s
  · subst hs
    simp only [Memory.writeByte, Memory.readByte, Memory.cells_setCells_self]
    exact Sparse.read_write_ne v (h.resolve_left (fun e => e rfl))
  · simp only [Memory.writeByte, Memory.readByte, Memory.cells_setCells_ne _ hs]

/-- A byte read after a write to the same byte gives the byte written. -/
theorem Memory.readByte_writeByte_self (m : Memory) (hm : m.wf = true) (s : Space) (a : Nat) (v : Byte) :
    (m.writeByte s a v).readByte s a = v := by
  simp only [Memory.writeByte, Memory.readByte, Memory.cells_setCells_self]
  exact Sparse.read_write_self (Memory.wf_iff m |>.mp hm s) a v

/-- A byte write inside its region keeps the canonical form. -/
theorem Memory.wf_writeByte (m : Memory) (hm : m.wf = true) {s : Space} {a : Nat} (v : Byte) (ha : a < s.size) :
    (m.writeByte s a v).wf = true := by
  rw [Memory.wf_iff] at hm ⊢
  intro s'
  by_cases hs : s' = s
  · subst hs
    simp only [Memory.writeByte, Memory.cells_setCells_self]
    exact Sparse.wf_write (hm s') v (Nat.zero_le a) ha
  · simp only [Memory.writeByte, Memory.cells_setCells_ne _ hs]
    exact hm s'

/-- A halfword write inside its region keeps the canonical form. -/
theorem Memory.wf_writeHalf (m : Memory) (hm : m.wf = true) {s : Space} {a : Nat} (v : Half) (ha : a + 2 ≤ s.size) :
    (m.writeHalf s a v).wf = true :=
  Memory.wf_writeByte _ (Memory.wf_writeByte _ hm _ (by omega)) _ (by omega)

/-- A halfword write leaves every byte outside its two bytes alone. -/
theorem Memory.readByte_writeHalf_ne (m : Memory) {s s' : Space} {a b : Nat} (v : Half)
    (h : s' ≠ s ∨ (b ≠ a ∧ b ≠ a + 1)) : (m.writeHalf s a v).readByte s' b = m.readByte s' b := by
  simp only [Memory.writeHalf]
  rw [Memory.readByte_writeByte_ne _ _ (h.imp_right And.right), Memory.readByte_writeByte_ne _ _ (h.imp_right And.left)]

/-- A halfword read after a halfword write to the same place gives the halfword written. -/
theorem Memory.readHalf_writeHalf_self (m : Memory) (hm : m.wf = true) {s : Space} {a : Nat} (v : Half)
    (ha : a < s.size) : (m.writeHalf s a v).readHalf s a = v := by
  have hlo : (m.writeHalf s a v).readByte s a = v.extractLsb' 0 8 := by
    simp only [Memory.writeHalf]
    rw [Memory.readByte_writeByte_ne _ _ (Or.inr (by omega))]
    exact Memory.readByte_writeByte_self m hm s a _
  have hhi : (m.writeHalf s a v).readByte s (a + 1) = v.extractLsb' 8 8 :=
    Memory.readByte_writeByte_self _ (Memory.wf_writeByte m hm _ ha) s (a + 1) _
  simp only [Memory.readHalf, hlo, hhi]
  ext i hi
  simp only [BitVec.getElem_append, BitVec.getElem_extractLsb']
  split
  · simp [BitVec.getElem_eq_testBit_toNat, BitVec.getLsbD]
  · have : 8 + (i - 8) = i := by omega
    simp [this, BitVec.getElem_eq_testBit_toNat, BitVec.getLsbD]

end Sys2Proof.Machine
end

