-- ==== Sys2Proof/Tests/Slice0.lean ====
section
/-! SUPPORT. Tests. Expected values are those of spec/95_test_vectors.md (its vector names stand in the comments) or worked out
by hand from the rule a comment cites. The last section has a state that meets the premises of each statement. -/

namespace Sys2Proof.Tests

open Sys2Proof Sys2Proof.Machine

/-! ## Helpers -/

/-- One admissible choice of the open parameters (00_scope.md R8), for the vectors whose expected value depends on one. -/
def ref : Params where
  renderCycle := fun x => 4 + 4 * x
  bgEnableDelayLines := 3
  hblankFlagDelay := 1
  lycDelay := 1
  videoCaptureLine := fun l => decide (l = 50)
  rendererBusy := fun _ _ _ => false
  blendRounding := .perTermFloor
  semiRequiresSecondTarget := true
  semiIgnoresWindowEffect := false
  affineWritePolicy := .nextLineReload
  colorExpand := fun c => ⟨red c, green c, blue c⟩
  ioBase := 0x04000000
  openBus := fun _ _ => 0xDEAD
  bgObjVramRead := fun _ _ _ => 0xBEEF
  reservedModePixel := fun _ => 0x2AAA
  refusedPixel := fun _ => 0x1555
  commitsReversed := fun _ => false

/-- The block after reset, at a position. -/
def ppuAt (line cycle : Nat) : Ppu := { Ppu.reset with line := line, cycle := cycle }

/-- The block after reset, at a position, with some registers set. -/
def ppuWith (line cycle : Nat) (f : Regs → Regs) : Ppu := { ppuAt line cycle with regs := f Regs.reset }

/-- The machine after reset, at a position. -/
def stateAt (line cycle : Nat) : State := { State.reset with ppu := ppuAt line cycle }

/-- The machine after reset with another block state. -/
def stateOf (p : Ppu) : State := { State.reset with ppu := p }

/-- Memory with some halfwords written. -/
def memOf (l : List (Space × Nat × Half)) : Memory := l.foldl (fun m w => m.writeHalf w.1 w.2.1 w.2.2) ⟨[], [], []⟩

/-- The next state, where there is one. -/
def nextOf : Host.Outcome State Fault Refusal → Option State
  | .next s => some s
  | .fault _ => none
  | .refused _ => none

/-- The block after an operation. -/
def ppuAfter (i : Instr) (s : State) : Option Ppu := (nextOf (exec i s)).map State.ppu

/-- The state after some operations. -/
def afterAll (l : List Instr) (s : State) : Option State := l.foldl (fun o i => o.bind fun t => nextOf (exec i t)) (some s)

/-- The block after an operation and the start of the next tick. -/
def ppuBegun (i : Instr) (s : State) : Option Ppu := (nextOf (exec i s)).map (·.beginTick.ppu)

/-- The registers after an operation. -/
def regsAfter (i : Instr) (s : State) : Option Regs := (ppuAfter i s).map Ppu.regs

/-- What a read returned. -/
def readAfter (i : Instr) (s : State) : Option OpWord := (nextOf (exec i s)).bind State.lastRead

/-- What a word decodes to. -/
def decodes (w o : OpWord) : Option Instr :=
  match decode w o with
  | .ok i => some i
  | .error _ => none

/-- Why a word selects nothing. -/
def rejects (w o : OpWord) : Option Reject :=
  match decode w o with
  | .ok _ => none
  | .error r => some r

/-! ## Well-formedness: every check refuses an ill-formed term, and the values at its edge are accepted -/

theorem test_wf_w16Odd : (Instr.w16Odd 0x004 0).wellFormed = false ∧ (Instr.w16Odd 0x059 0).wellFormed = false ∧
    (Instr.w16Odd 0x057 0).wellFormed = true := by decide
theorem test_wf_w8 : (Instr.w8 0x058 0).wellFormed = false ∧ (Instr.w8 0x057 0).wellFormed = true := by decide
theorem test_wf_w32 : (Instr.w32 0x02A 0).wellFormed = false ∧ (Instr.w32 0x058 0).wellFormed = false ∧
    (Instr.w32 0x054 0).wellFormed = true := by decide
theorem test_wf_r8 : (Instr.r8 0x058).wellFormed = false ∧ (Instr.r8 0x057).wellFormed = true := by decide
theorem test_wf_r16 : (Instr.r16 0x058).wellFormed = false ∧ (Instr.r16 0x057).wellFormed = true := by decide
theorem test_wf_r32 : (Instr.r32 0x052).wellFormed = false ∧ (Instr.r32 0x058).wellFormed = false ∧
    (Instr.r32 0x054).wellFormed = true := by decide
theorem test_wf_hblankCommit : (Instr.hblankCommit 228).wellFormed = false ∧
    (Instr.hblankCommit 227).wellFormed = true := by decide
theorem test_wf_lycCommit : (Instr.lycCommit 228).wellFormed = false ∧ (Instr.lycCommit 227).wellFormed = true := by decide
theorem test_wf_stripWrite : (Instr.stripWrite 240 SpriteEntry.empty).wellFormed = false ∧
    (Instr.stripWrite 239 SpriteEntry.empty).wellFormed = true := by decide

/-! ## Decoding: words written out from 30_encoding.md R108 and the rows of opcode_table.json -/

/-- One word of each family bit by bit: kind, code, the 18 zero bits, OW[9:0]. -/
theorem test_decode_bits :
    decodes 0b00_01_000000000000000000_0001010000 0x0241 = some (.wBldcnt 0x0241) ∧
    decodes 0b00_01_000000000000000000_0000101001 0x1234 = some (.w16Odd 0x029 0x1234) ∧
    decodes 0b00_00_000000000000000000_0000000001 0x04 = some (.w8 1 0x04) ∧
    decodes 0b00_10_000000000000000000_0000101000 0x0FFFFF00 = some (.w32 0x028 0x0FFFFF00) ∧
    decodes 0b01_00_000000000000000000_0000000101 0 = some (.r8 5) ∧
    decodes 0b01_01_000000000000000000_0000000100 0 = some (.r16 4) ∧
    decodes 0b01_10_000000000000000000_0001010000 0 = some (.r32 0x050) ∧
    decodes 0b10_00_000000000000000000_0000000000 0 = some .tick ∧
    decodes 0b10_01_000000000000000000_0000000000 100 = some (.hblankCommit 100) ∧
    decodes 0b10_10_000000000000000000_0000000000 101 = some (.lycCommit 101) ∧
    decodes 0b10_11_000000000000000000_0000000111 0b1_0_11_10000001_0 =
      some (.stripWrite 7 ⟨false, 0x81, 3, false, true⟩) ∧
    decodes 0b11_00_000000000000000000_0000000000 0 = some .hardReset := by decide

/-- The halfword writes of the display control, background control and scroll registers. -/
theorem test_decode_w16_low :
    decodes 0x10000000 0x0403 = some (.wDispcnt 0x0403) ∧ decodes 0x10000002 1 = some (.wGreenswap 1) ∧
    decodes 0x10000004 0xFFFF = some (.wDispstat 0xFFFF) ∧ decodes 0x10000006 0x50 = some (.wVcount 0x50) ∧
    decodes 0x10000008 0x0800 = some (.wBg0cnt 0x0800) ∧ decodes 0x1000000A 0x0900 = some (.wBg1cnt 0x0900) ∧
    decodes 0x1000000C 3 = some (.wBg2cnt 3) ∧ decodes 0x1000000E 4 = some (.wBg3cnt 4) ∧
    decodes 0x10000010 5 = some (.wBg0hofs 5) ∧ decodes 0x10000012 6 = some (.wBg0vofs 6) ∧
    decodes 0x10000014 7 = some (.wBg1hofs 7) ∧ decodes 0x10000016 8 = some (.wBg1vofs 8) ∧
    decodes 0x10000018 9 = some (.wBg2hofs 9) ∧ decodes 0x1000001A 10 = some (.wBg2vofs 10) ∧
    decodes 0x1000001C 11 = some (.wBg3hofs 11) ∧ decodes 0x1000001E 12 = some (.wBg3vofs 12) := by decide

/-- The halfword writes of the affine registers. -/
theorem test_decode_w16_affine :
    decodes 0x10000020 1 = some (.wBg2pa 1) ∧ decodes 0x10000022 2 = some (.wBg2pb 2) ∧
    decodes 0x10000024 3 = some (.wBg2pc 3) ∧ decodes 0x10000026 4 = some (.wBg2pd 4) ∧
    decodes 0x10000028 5 = some (.wBg2xL 5) ∧ decodes 0x1000002A 6 = some (.wBg2xH 6) ∧
    decodes 0x1000002C 7 = some (.wBg2yL 7) ∧ decodes 0x1000002E 8 = some (.wBg2yH 8) ∧
    decodes 0x10000030 1 = some (.wBg3pa 1) ∧ decodes 0x10000032 2 = some (.wBg3pb 2) ∧
    decodes 0x10000034 3 = some (.wBg3pc 3) ∧ decodes 0x10000036 4 = some (.wBg3pd 4) ∧
    decodes 0x10000038 5 = some (.wBg3xL 5) ∧ decodes 0x1000003A 6 = some (.wBg3xH 6) ∧
    decodes 0x1000003C 7 = some (.wBg3yL 7) ∧ decodes 0x1000003E 8 = some (.wBg3yH 8) := by decide

/-- The halfword writes of the window, mosaic and blend registers and of the unused offsets. -/
theorem test_decode_w16_high :
    decodes 0x10000040 0x0A14 = some (.wWin0h 0x0A14) ∧ decodes 0x10000042 1 = some (.wWin1h 1) ∧
    decodes 0x10000044 0x0508 = some (.wWin0v 0x0508) ∧ decodes 0x10000046 1 = some (.wWin1v 1) ∧
    decodes 0x10000048 0x20 = some (.wWinin 0x20) ∧ decodes 0x1000004A 0 = some (.wWinout 0) ∧
    decodes 0x1000004C 3 = some (.wMosaic 3) ∧ decodes 0x1000004E 4 = some (.wUnused04E 4) ∧
    decodes 0x10000050 0xA0 = some (.wBldcnt 0xA0) ∧ decodes 0x10000052 0x0808 = some (.wBldalpha 0x0808) ∧
    decodes 0x10000054 8 = some (.wBldy 8) ∧ decodes 0x10000056 9 = some (.wUnused056 9) := by decide

/-- The last paragraph of R108, and R109 for a misaligned 32-bit access. -/
theorem test_decode_nothing :
    rejects 0x10000400 0 = some .middleBits ∧ rejects 0x30000000 0 = some .widthCode ∧
    rejects 0x70000000 0 = some .widthCode ∧ rejects 0x10000058 0 = some .offsetRange ∧
    rejects 0x50000058 0 = some .offsetRange ∧ rejects 0x2000002A 0 = some .misalignedWord ∧
    rejects 0x60000052 0 = some .misalignedWord ∧ rejects 0x80000001 0 = some .controlBits ∧
    rejects 0x90000001 0 = some .controlBits ∧ rejects 0xB00000F0 0 = some .columnRange ∧
    rejects 0xD0000000 0 = some .unusedKind := by decide

/-- The table words, as the host numbers their bits: the operation word, then an operand word. -/
theorem test_decode_table_word :
    decodeTableWord 32 0xB0000007 = some (.stripWrite 7 ⟨false, 0, 0, false, false⟩) ∧
    decodeTableWord 64 0x0000_0403_1000_0000 = some (.wDispcnt 0x0403) := by decide

/-! ## Register writes (95_test_vectors.md 2.3) -/

/-- W1. -/
theorem test_w_dispstat : (regsAfter (.wDispstat 0xFFFF) State.reset).map Regs.dispstat = some 0xFF38 := by decide
/-- W2. -/
theorem test_w_bg0cnt : (regsAfter (.wBg0cnt 0xFFFF) State.reset).map (·.bgcnt.bg0) = some 0xDFFF := by decide
/-- W3. -/
theorem test_w_bg2cnt : (regsAfter (.wBg2cnt 0xFFFF) State.reset).map (·.bgcnt.bg2) = some 0xFFFF := by decide
/-- W4. -/
theorem test_w_bg0hofs : (regsAfter (.wBg0hofs 0xFFFF) State.reset).map (·.bghofs.bg0) = some 0x1FF := by decide
/-- R166: BGVOFS[3] keeps 9 bits and is not BGHOFS[3]. -/
theorem test_w_bg3vofs :
    (regsAfter (.wBg3vofs 0xFE05) State.reset).map (fun r => (r.bgvofs.bg3, r.bghofs.bg3)) = some (0x005, 0) := by decide
/-- R167, R170: PA and PD of layer 2. -/
theorem test_w_bg2_matrix :
    (regsAfter (.wBg2pa 0x0100) State.reset).map (fun r => (r.bgpa.bg2, r.bgpd.bg2)) = some (0x0100, 0) ∧
    (regsAfter (.wBg2pd 0xFF00) State.reset).map (fun r => (r.bgpa.bg2, r.bgpd.bg2)) = some (0, 0xFF00) := by decide
/-- R168, R169: PB and PC of layer 3. -/
theorem test_w_bg3_matrix :
    (regsAfter (.wBg3pb 0x0100) State.reset).map (fun r => (r.bgpb.bg3, r.bgpc.bg3)) = some (0x0100, 0) ∧
    (regsAfter (.wBg3pc 0xFF00) State.reset).map (fun r => (r.bgpb.bg3, r.bgpc.bg3)) = some (0, 0xFF00) := by decide
/-- W5: DISPCNT = 0x0003 and a byte write of its upper byte: WRITE16(0x000, 0x0403), with its enable edge (R161). -/
theorem test_w8_dispcnt :
    ((stateOf (ppuWith 0 0 fun r => { r with dispcnt := 3 })).ppu.write8 ref 0x001 0x04).regs.dispcnt = 0x0403 ∧
    ((stateOf (ppuWith 0 0 fun r => { r with dispcnt := 3 })).ppu.write8 ref 0x001 0x04).bgCountdown = ⟨0, 0, 3, 0⟩ := by
  decide
/-- W6. -/
theorem test_w8_bg2x : (Ppu.reset.write8 ref 0x028 0x12).regs.bgx.bg2 = 0x12 ∧
    (Ppu.reset.write8 ref 0x028 0x12).pendX = ⟨true, false⟩ := by decide
/-- W7, W8. -/
theorem test_w32_reference : (Ppu.reset.write32 ref 0x028 0x0FFFFF00).regs.bgx.bg2.toInt = -256 ∧
    (Ppu.reset.write32 ref 0x02C 0xF0000100).regs.bgy.bg2 = 0x0000100 := by decide
/-- W9, W10, W16. -/
theorem test_w32_pairs :
    (regsAfter (.w32 0x048 0xFFFFFFFF) State.reset).map (fun r => (r.winin, r.winout)) = some (0x3F3F, 0x3F3F) ∧
    (regsAfter (.w32 0x050 0x001FFFFF) State.reset).map (fun r => (r.bldcnt, r.bldalpha)) = some (0x3FFF, 0x001F) ∧
    regsAfter (.w32 0x054 0xFFFF0004) State.reset = some { Regs.reset with bldy := 4 } := by decide
/-- R109: an odd halfword write goes one offset down. -/
theorem test_w16Odd_winin : regsAfter (.w16Odd 0x049 0x1234) State.reset = regsAfter (.wWinin 0x1234) State.reset ∧
    (regsAfter (.w16Odd 0x049 0x1234) State.reset).map Regs.winin = some 0x1234 := by decide
/-- W11: the coefficients in use. -/
theorem test_w_bldalpha : (regsAfter (.wBldalpha 0x1414) State.reset).map (fun r => (r.bldalpha, r.eva, r.evb)) =
    some (0x1414, 16, 16) := by decide
/-- W12. -/
theorem test_w_bldy : (regsAfter (.wBldy 0xFFFF) State.reset).map (fun r => (r.bldy, r.evy)) = some (31, 16) := by decide
/-- W13. -/
theorem test_w_vcount : ppuAfter (.wVcount 0x0050) (stateAt 3 0) = some (ppuAt 3 0) := by decide
/-- W14, W15. -/
theorem test_w_greenswap : (ppuAfter (.wGreenswap 1) State.reset).map Ppu.refused = some true ∧
    ppuAfter (.wGreenswap 0) State.reset = some Ppu.reset := by decide
/-- W17: the countdown is cancelled. -/
theorem test_w_dispcnt_off :
    (ppuAfter (.wDispcnt 0x0000)
      (stateOf { ppuWith 0 0 (fun r => { r with dispcnt := 0x0100 }) with bgCountdown := ⟨2, 0, 0, 0⟩ })).map
      (fun p => (p.bgActive.bg0, p.bgCountdown.bg0)) = some (false, 0) := by decide
/-- W18: no rising edge. -/
theorem test_w_dispcnt_same :
    (ppuAfter (.wDispcnt 0x0100)
      (stateOf { ppuWith 0 0 (fun r => { r with dispcnt := 0x0100 }) with bgCountdown := ⟨2, 0, 0, 0⟩ })).map
      (fun p => (p.bgActive.bg0, p.bgCountdown.bg0)) = some (false, 2) := by decide
/-- W19: with no delay the layer is active at once. -/
theorem test_dispcnt_no_delay :
    (Ppu.reset.writeDispcnt { ref with bgEnableDelayLines := 0 } 0x0100).bgActive.bg0 = true := by decide

/-! ## Register reads (95_test_vectors.md 2.3) -/

/-- W1, W20. -/
theorem test_r16_dispstat :
    readAfter (.r16 4) (stateOf (ppuWith 0 5 fun r => { r with dispstat := 0xFF38 })) = some 0xFF38 ∧
    readAfter (.r16 4) (stateOf { ppuWith 160 5 (fun r => { r with dispstat := 0x0008 }) with vblankFlag := true }) =
      some 0x0009 := by decide
/-- W13. -/
theorem test_r16_vcount : readAfter (.r16 6) (stateAt 3 0) = some 3 := by decide
/-- R185: the bytes of VCOUNT and DISPSTAT. -/
theorem test_r8 : readAfter (.r8 6) (stateAt 227 0) = some 227 ∧ readAfter (.r8 7) (stateAt 227 0) = some 0 ∧
    readAfter (.r8 5) (stateOf (ppuWith 0 5 fun r => { r with dispstat := 0x6438 })) = some 0x64 := by decide
/-- W22. -/
theorem test_r32 :
    readAfter (.r32 0x050) (stateOf (ppuWith 0 0 fun r => { r with bldcnt := 0x0241, bldalpha := 0x0808 })) =
      some 0x08080241 := by decide
/-- W21, and W4's read: OPEN_BUS. -/
theorem test_open_bus : Ppu.reset.read16 ref 0 .low 0x04C = 0xDEAD ∧ Ppu.reset.read16 ref 0 .low 0x054 = 0xDEAD ∧
    Ppu.reset.read16 ref 0 .low 0x040 = 0xDEAD ∧ Ppu.reset.read16 ref 0 .low 0x010 = 0xDEAD := by decide

/-! ## Ticks, commits, strip writes, reset (95_test_vectors.md 2.1) -/

/-- S1. -/
theorem test_tick_line_end :
    (ppuAfter .tick (stateAt 5 1231)).map (fun p => (p.line, p.cycle, p.q, p.hblankFlag)) =
      some (6, 0, [.scheduleLycCompare 6, .spriteEvalReset 6], false) := by decide
/-- S2, S3. -/
theorem test_tick_vblank :
    (ppuAfter .tick (stateOf (ppuWith 159 1231 fun r => { r with dispstat := 8 }))).map
      (fun p => (p.line, p.vblankFlag, p.q)) =
      some (160, true,
        [.irqRequest .vblank, .dmaTrigger .vblank, .scheduleLycCompare 160, .spriteEvalReset 160]) ∧
    (ppuAfter .tick (stateAt 159 1231)).map Ppu.q =
      some [.dmaTrigger .vblank, .scheduleLycCompare 160, .spriteEvalReset 160] := by decide
/-- S4, S5. -/
theorem test_tick_vblank_clear :
    (ppuAfter .tick (stateOf { ppuAt 226 1231 with vblankFlag := true })).map (fun p => (p.line, p.vblankFlag)) =
      some (227, false) ∧
    (ppuAfter .tick (stateAt 227 1231)).map (fun p => (p.line, p.cycle)) = some (0, 0) := by decide
/-- S6, S7, S8, S9. -/
theorem test_tick_hblank :
    ((ppuAt 100 1007).tick ref 0 State.reset.mem).q = [.dmaTrigger .hblank, .scheduleHBlankCommit 100] ∧
    ((ppuAt 200 1007).tick ref 0 State.reset.mem).q = [.scheduleHBlankCommit 200] ∧
    ((ppuAt 227 1007).tick ref 0 State.reset.mem).q = [.scheduleHBlankCommit 227] ∧
    ((ppuAt 50 1007).tick ref 0 State.reset.mem).q =
      [.dmaTrigger .hblank, .dmaTrigger .videoCapture, .scheduleHBlankCommit 50] ∧
    ((ppuAt 50 1007).tick ref 0 State.reset.mem).cycle = 1008 := by decide
/-- S16, its column not being composited in cycle 501 of these parameters. -/
theorem test_tick_idle : (ppuAt 10 501).tick ref 0 State.reset.mem = ppuAt 10 502 := by decide
/-- S10, S11: the commit and its request. -/
theorem test_hblank_commit :
    (ppuBegun (.hblankCommit 100) (stateOf (ppuWith 100 1010 fun r => { r with dispstat := 0x10 }))).map
      (fun p => (p.hblankFlag, p.q)) = some (true, [.irqRequest .hblank]) ∧
    (ppuBegun (.hblankCommit 100) (stateAt 100 1010)).map (fun p => (p.hblankFlag, p.q)) = some (true, []) ∧
    (ppuBegun (.hblankCommit 99) (stateAt 100 1010)).map Ppu.hblankFlag = some false := by decide
/-- S12, S13, S14. -/
theorem test_lyc_commit :
    (ppuBegun (.lycCommit 100) (stateOf (ppuWith 100 5 fun r => { r with dispstat := 0x6420 }))).map
      (fun p => (p.vcountFlag, p.q)) = some (true, [.irqRequest .vcount]) ∧
    (ppuBegun (.lycCommit 101)
      (stateOf { ppuWith 101 5 (fun r => { r with dispstat := 0x6420 }) with vcountFlag := true })).map
      (fun p => (p.vcountFlag, p.q)) = some (false, []) ∧
    (ppuBegun (.lycCommit 228) (stateOf (ppuWith 0 5 fun r => { r with dispstat := 0xE400 }))).map Ppu.vcountFlag =
      some false := by decide
/-- P4, lines 5-8: the commit is delivered at the start of the next tick, and no read before that tick sees its flag. -/
theorem test_commit_path :
    (afterAll [.hblankCommit 0, .r16 4] (stateOf (ppuWith 0 1008 fun r => { r with dispstat := 0x10 }))).map
      (fun s => (s.lastRead, s.ppu.q)) = some (some 0x0010, []) ∧
    (afterAll [.hblankCommit 0, .tick, .r16 4] (stateOf (ppuWith 0 1008 fun r => { r with dispstat := 0x10 }))).map
      (fun s => (s.lastRead, s.ppu.cycle, s.ppu.q, s.handed)) = some (some 0x0012, 1009, [.irqRequest .hblank], []) := by
  decide
/-- 30_encoding.md R111: a write between the commit and the tick is seen by the commit. -/
theorem test_commit_sees_write :
    (afterAll [.lycCommit 9, .wDispstat 0x0920] (stateAt 9 7)).map (fun s => (s.beginTick.ppu.vcountFlag,
      s.beginTick.ppu.q)) = some (true, [.irqRequest .vcount]) := by decide
/-- S16: the queue is emptied at the start of each cycle. -/
theorem test_queue_of_a_cycle :
    (ppuAfter .tick (stateOf { ppuAt 100 1010 with q := [.irqRequest .hblank] })).map Ppu.q = some [] := by decide
/-- S17. -/
theorem test_tick_enable :
    (ppuAfter .tick (stateOf { ppuWith 3 0 (fun r => { r with dispcnt := 0x0100 }) with bgCountdown := ⟨1, 0, 0, 0⟩ })).map
      (fun p => (p.bgCountdown.bg0, p.bgActive.bg0)) = some (0, true) := by decide
/-- S18. -/
theorem test_tick_swap :
    (ppuAfter .tick (stateOf { ppuAt 3 0 with
      strip0 := [(0, ⟨true, 1, 1, false, false⟩)], strip1 := [(7, ⟨true, 5, 0, false, false⟩)] })).map
      (fun p => (p.drawSel, p.strip1, p.strip0, stripAt p.drawStrip 7)) =
      some (true, [(7, ⟨true, 5, 0, false, false⟩)], [], ⟨true, 5, 0, false, false⟩) := by decide
/-- 60_exceptions.md R320: the evaluation buffer of drawSel 0 is SB[1]; writing EMPTY unlists the column. -/
theorem test_strip_write :
    (ppuAfter (.stripWrite 239 ⟨true, 5, 0, false, false⟩) State.reset).map (fun p => (p.strip0, p.strip1)) =
      some ([], [(239, ⟨true, 5, 0, false, false⟩)]) ∧
    (ppuAfter (.stripWrite 239 SpriteEntry.empty)
      (stateOf { ppuAt 0 1 with strip1 := [(239, ⟨true, 5, 0, false, false⟩)] })).map Ppu.strip1 = some [] := by decide
/-- R4v: from a state with everything changed. -/
theorem test_hard_reset :
    ppuAfter .hardReset (stateOf { ppuWith 100 500 (fun r => { r with dispcnt := 0xFFFF }) with
      vblankFlag := true, bgActive := .const true, fb := [(3, 5)], refused := true, drawSel := true }) =
      some Ppu.reset ∧
    readAfter (.r16 4) State.reset = some 0 ∧ readAfter (.r16 6) State.reset = some 0 := by decide

/-! ## The affine references and the line latch (95_test_vectors.md 2.2) -/

/-- A1. -/
theorem test_a1 : (ppuAfter .tick (stateOf { ppuWith 10 1231 (fun r => { r with bgpb := ⟨0x0100, 0⟩ }) with
    ix := ⟨0x100, 0⟩ })).map (fun p => (p.ix.bg2, p.latch.bg2.x0)) = some (0x200, 0x200) := by decide
/-- A2. -/
theorem test_a2 : (ppuAfter .tick (stateOf { ppuWith 10 1231 (fun r => { r with bgpb := ⟨0xFF00, 0⟩ }) with
    ix := ⟨0x100, 0⟩ })).map (·.ix.bg2) = some 0 := by decide
/-- A3. -/
theorem test_a3 : (ppuAfter .tick (stateOf { ppuWith 10 1231 (fun r => { r with bgx := ⟨0x1000, 0⟩, bgpb := ⟨0x0100, 0⟩ })
    with ix := ⟨0x5000, 0⟩, pendX := ⟨true, false⟩ })).map (fun p => (p.ix.bg2, p.pendX.bg2)) =
    some (0x1000, false) := by decide
/-- A4. -/
theorem test_a4 : (ppuAfter .tick (stateOf { ppuWith 159 1231 (fun r => { r with bgx := ⟨0x1000, 0⟩ }) with
    ix := ⟨0x5000, 0⟩ })).map (·.ix.bg2) = some 0x1000 := by decide
/-- A5. -/
theorem test_a5 : (ppuAfter .tick (stateOf { ppuWith 200 1231 (fun r => { r with bgpb := ⟨0x0100, 0⟩ }) with
    ix := ⟨0x1000, 0⟩ })).map (·.ix.bg2) = some 0x1000 := by decide
/-- A6. -/
theorem test_a6 : (ppuAfter .tick (stateOf { ppuWith 5 1231 (fun r => { r with bgpb := ⟨0x0100, 0⟩ }) with
    ix := ⟨0x7FFFF00, 0⟩ })).map (·.ix.bg2.toInt) = some (-0x8000000) := by decide
/-- A7. -/
theorem test_a7 : (ppuAfter .tick (stateOf
    { ppuWith 2 1231 (fun r => { r with mosaic := 0x0010, bgcnt := ⟨0, 0, 0x0040, 0⟩ }) with
      ix := ⟨0x300, 0⟩, mix := ⟨0x200, 0⟩ })).map (fun p => (p.mix.bg2, p.latch.bg2.x0)) = some (0x200, 0x200) := by decide
/-- A8. -/
theorem test_a8 : (ppuAfter .tick (stateOf
    (ppuWith 2 1231 fun r => { r with mosaic := 0x0003, bgcnt := ⟨0, 0, 0x0040, 0⟩ }))).map (·.latch.bg2.mh) =
    some 4 := by decide

/-! ## Background sampling (95_test_vectors.md 2.4, 2.5) -/

/-- BG0CNT with map base 0x4000, and more bits. -/
def textRegs (more : Half) : Regs := { Regs.reset with bgcnt := ⟨0x0800 ||| more, 0, 0, 0⟩ }

/-- Palette entry k has colour k + 30, so that colours name their index. -/
def palette (l : List Nat) : List (Space × Nat × Half) := l.map fun k => (.pal, 2 * k, BitVec.ofNat 16 (k + 30))

/-- X1, X2, X3. -/
theorem test_text_4bit :
    sampleText ref 0 (memOf ([(.vram, 0x4000, 0x0001), (.vram, 0x20, 0x0021)] ++ palette [1, 2])) (textRegs 0) .bg0 0 0 =
      .solid 31 ∧
    sampleText ref 0 (memOf ([(.vram, 0x4000, 0x0001), (.vram, 0x20, 0x0021)] ++ palette [1, 2])) (textRegs 0) .bg0 1 0 =
      .solid 32 ∧
    sampleText ref 0 (memOf ([(.vram, 0x4000, 0x0001), (.vram, 0x20, 0x0021)] ++ palette [1, 2])) (textRegs 0) .bg0 2 0 =
      .transparent := by decide
/-- X4, X5. -/
theorem test_text_flips :
    sampleText ref 0 (memOf ([(.vram, 0x4000, 0x0401), (.vram, 0x22, 0x3000)] ++ palette [3])) (textRegs 0) .bg0 0 0 =
      .solid 33 ∧
    sampleText ref 0 (memOf ([(.vram, 0x4000, 0x0801), (.vram, 0x3C, 0x0005)] ++ palette [5])) (textRegs 0) .bg0 0 0 =
      .solid 35 := by decide
/-- X6, X7. -/
theorem test_text_bank_and_8bit :
    sampleText ref 0 (memOf ([(.vram, 0x4000, 0x2001), (.vram, 0x20, 0x0001)] ++ palette [33])) (textRegs 0) .bg0 0 0 =
      .solid 63 ∧
    sampleText ref 0 (memOf ([(.vram, 0x4000, 0x0002), (.vram, 0x8A, 0x4000)] ++ palette [0x40])) (textRegs 0x80) .bg0 3 1 =
      .solid 94 := by decide
/-- X8, X9, X10: the map entry's offset. -/
theorem test_text_map :
    (textRegs 0).textEntryOffset .bg0 255 0 = 0x4000 + 2 * 31 ∧
    (textRegs 0xC000).textEntryOffset .bg0 300 260 = 0x4000 + 0x180A ∧
    (textRegs 0x8000).textW .bg0 = 256 ∧ (textRegs 0x8000).textH .bg0 = 512 ∧
    (textRegs 0x8000).textEntryOffset .bg0 0 (559 % 512) = 0x4000 + 2 * 32 * 5 := by decide
/-- X11, X12. -/
theorem test_text_mosaic :
    ({ textRegs 0x40 with mosaic := 0x0003 } : Regs).mosaicX .bg0 7 = 4 ∧
    ({ textRegs 0x40 with mosaic := 0x0020 } : Regs).mosaicY .bg0 5 = 3 := by decide
/-- X13: a character read above 0x10000 is a draw, here low nibble 0xF of 0xBEEF, bank 0. -/
theorem test_text_obj_vram :
    sampleText ref 0 (memOf ([(.vram, 0x4000, 0x03FF)] ++ palette [15])) (textRegs 0x000C) .bg0 0 0 = .solid 45 := by decide

/-- F1, F2, F5, F6. -/
theorem test_affine_coord :
    (⟨0x0180, 0, 0x0080, 0, 1⟩ : LineLatch).coord 2 = (2, 0) ∧
    (⟨0xFFFFF80, 0, 0, 0, 1⟩ : LineLatch).coord 0 = (-1, 0) ∧
    (⟨0, 0, 0, 0x0100, 1⟩ : LineLatch).coord 77 = (0, 77) ∧
    (⟨0, 0, 0x0100, 0, 4⟩ : LineLatch).coord 6 = (4, 0) := by decide
/-- F3, F4. -/
theorem test_affine_overflow : affineTexel false 128 (-1, 0) = none ∧ affineTexel true 128 (-1, 0) = some (127, 0) ∧
    affineTexel false 128 (128, 0) = none ∧ affineTexel true 128 (128, 0) = some (0, 0) := by decide
/-- F7, with map base 0x800, tile 2 and character base 0x4000. -/
theorem test_affine_sample :
    sampleAffine ref 0 (memOf ([(.vram, 0x820, 0x0200), (.vram, 0x4088, 0x0700)] ++ palette [7]))
      { Regs.reset with bgcnt := ⟨0, 0, 0x0104, 0⟩ } ⟨0x900, 0x1100, 0, 0, 1⟩ .bg2 0 = .solid 37 := by decide
/-- F8, F9, F13. -/
theorem test_bitmap3 :
    sampleBitmap3 (memOf [(.vram, 10, 0xFFFF)]) ⟨0, 0, 0x0100, 0, 1⟩ 5 = .solid 0x7FFF ∧
    sampleBitmap3 (memOf []) ⟨0, 0, 0x0100, 0, 1⟩ 5 = .solid 0 ∧
    sampleBitmap3 (memOf [(.vram, 0x12BFE, 0x1234)]) ⟨0, 0x9F00, 0x0100, 0, 1⟩ 239 = .solid 0x1234 ∧
    sampleBitmap3 (memOf []) ⟨0xFFFFF00, 0, 0x0100, 0, 1⟩ 0 = .transparent ∧
    sampleBitmap3 (memOf [(.vram, 0, 5)]) ⟨0xFFFFF00, 0, 0x0100, 0, 1⟩ 1 = .solid 5 := by decide
/-- F10. -/
theorem test_bitmap4 :
    sampleBitmap4 (memOf [(.vram, 0, 0x0001)]) { Regs.reset with dispcnt := 0x0014 } ⟨0, 0, 0x0100, 0, 1⟩ 0 = .transparent ∧
    sampleBitmap4 (memOf ([(.vram, 0xA000, 0x0009)] ++ palette [9])) { Regs.reset with dispcnt := 0x0014 }
      ⟨0, 0, 0x0100, 0, 1⟩ 0 = .solid 39 := by decide
/-- F11, F12. -/
theorem test_bitmap5 :
    sampleBitmap5 (memOf []) { Regs.reset with dispcnt := 0x0005 } ⟨0, 0, 0x0100, 0, 1⟩ 200 = .transparent ∧
    sampleBitmap5 (memOf [(.vram, 0x13FFE, 0x0777)]) { Regs.reset with dispcnt := 0x0015 } ⟨0, 0x7F00, 0x0100, 0, 1⟩ 159 =
      .solid 0x0777 := by decide

/-! ## Windows (95_test_vectors.md 2.6) -/

/-- N1v, N2v. -/
theorem test_window_extent :
    [19, 20, 119, 120].map (inExtent 0x1478) = [false, true, true, false] ∧
    [39, 40, 199, 200].map (inExtent 0xC828) = [true, false, false, true] := by decide
/-- N3v, N4v, N5v, N6v. -/
theorem test_window_edges :
    [0, 49, 50, 239].map (inExtent 0x3232) = [false, false, false, false] ∧
    [0, 239].map (inExtent 0x00FF) = [true, true] ∧ [0, 239].map (inExtent 0xF0FF) = [false, false] ∧
    [9, 10, 79, 80].map (inExtent 0x0A50) = [false, true, true, false] := by decide
/-- Both rectangular windows enabled and covering the screen. -/
def bothWindows (r : Regs) : Regs :=
  { r with dispcnt := 0x6000, win0h := 0x00FF, win0v := 0x00FF, win1h := 0x00FF, win1v := 0x00FF, winin := 0x0A15 }
/-- N7v, N10v. -/
theorem test_window_class_win0 :
    (ppuWith 0 0 bothWindows).windowClass 50 50 = .win0 ∧ (ppuWith 0 0 bothWindows).enableSetAt 50 50 = 0b010101 ∧
    (ppuAt 0 0).windowClass 50 50 = .none ∧ (ppuAt 0 0).enableSetAt 50 50 = 0b111111 := by decide
/-- N8v, N9v. -/
theorem test_window_class_obj :
    ({ ppuWith 0 0 (fun r => { r with dispcnt := 0x8000 }) with strip0 := [(30, ⟨false, 0, 3, false, true⟩)] } :
      Ppu).windowClass 30 9 = .outside ∧
    ({ ppuWith 0 0 (fun r => { r with dispcnt := 0x9000, winout := 0x1300 }) with
      strip0 := [(30, ⟨false, 0, 3, false, true⟩)] } : Ppu).windowClass 30 9 = .objWin ∧
    ({ ppuWith 0 0 (fun r => { r with dispcnt := 0x9000, winout := 0x1300 }) with
      strip0 := [(30, ⟨false, 0, 3, false, true⟩)] } : Ppu).enableSetAt 30 9 = 0b010011 := by decide

/-! ## Priority and effects (95_test_vectors.md 2.7, 2.8) -/

/-- First and second place when the given layers are opaque, by ascending index. -/
def places (bgs : List (BgId × Nat)) (sprite : Option Nat) : LayerId × LayerId :=
  let start : TopTwo := ⟨⟨.bd, 4, 0, false⟩, ⟨.bd, 4, 0, false⟩⟩
  let t : TopTwo := bgs.foldl (fun t l => t.addBg ⟨.bg l.1, l.2, 0, false⟩) start
  let t : TopTwo := match sprite with
    | some prio => t.addSprite ⟨.obj, prio, 0, false⟩
    | none => t
  (t.first.id, t.second.id)

/-- P1v-P4v. -/
theorem test_places_backgrounds :
    places [] none = (.bd, .bd) ∧ places [(.bg2, 1)] none = (.bg .bg2, .bd) ∧
    places [(.bg0, 0), (.bg1, 0)] none = (.bg .bg0, .bg .bg1) ∧
    places [(.bg1, 2), (.bg3, 0)] none = (.bg .bg3, .bg .bg1) := by decide
/-- P5v-P10v. -/
theorem test_places_sprite :
    places [(.bg0, 1)] (some 1) = (.obj, .bg .bg0) ∧ places [(.bg0, 1), (.bg1, 0)] (some 1) = (.bg .bg1, .obj) ∧
    places [(.bg0, 2)] (some 3) = (.bg .bg0, .obj) ∧ places [(.bg0, 3)] (some 3) = (.obj, .bg .bg0) ∧
    places [(.bg0, 0), (.bg1, 1)] (some 2) = (.bg .bg0, .bg .bg1) ∧ places [] (some 3) = (.obj, .bd) := by decide
/-- P11v, P12v: neither a window-only column nor a disabled sprite layer merges. -/
theorem test_sprite_not_merged :
    (({ ppuWith 0 0 (fun r => { r with dispcnt := 0x1000 }) with strip0 := [(0, ⟨false, 0, 0, false, true⟩)] } :
      Ppu).mergeSprite (memOf []) 0b111111 0 ⟨⟨.bg .bg0, 0, 1, false⟩, backdrop (memOf [])⟩).first.id = .bg .bg0 ∧
    (({ ppuAt 0 0 with strip0 := [(0, ⟨true, 0, 0, false, false⟩)] } :
      Ppu).mergeSprite (memOf []) 0b111111 0 ⟨⟨.bg .bg0, 0, 1, false⟩, backdrop (memOf [])⟩).first.id = .bg .bg0 := by
  decide

/-- E1-E6, E8 under PerTermFloor and under SumThenFloor. -/
theorem test_alpha :
    [alphaChannel .perTermFloor 8 8 20 10, alphaChannel .perTermFloor 8 8 21 11, alphaChannel .perTermFloor 8 8 1 1,
      alphaChannel .perTermFloor 16 16 31 31, alphaChannel .perTermFloor 16 0 31 0, alphaChannel .perTermFloor 7 9 15 15,
      alphaChannel .perTermFloor 16 16 0 0] = [15, 15, 0, 31, 31, 14, 0] ∧
    [alphaChannel .sumThenFloor 8 8 20 10, alphaChannel .sumThenFloor 8 8 21 11, alphaChannel .sumThenFloor 8 8 1 1,
      alphaChannel .sumThenFloor 16 16 31 31, alphaChannel .sumThenFloor 16 0 31 0, alphaChannel .sumThenFloor 7 9 15 15,
      alphaChannel .sumThenFloor 16 16 0 0] = [15, 16, 1, 31, 31, 15, 0] := by decide
/-- E9-E16. -/
theorem test_brightness :
    [brightenChannel 8 10, brightenChannel 16 0, brightenChannel 3 5, brightenChannel 7 31] = [20, 31, 9, 31] ∧
    [darkenChannel 8 31, darkenChannel 16 31, darkenChannel 3 7, darkenChannel 15 1] = [16, 0, 6, 1] := by decide
/-- E7, E17: stored coefficients above 16. -/
theorem test_coefficients : ({ Regs.reset with bldalpha := 0x0014 } : Regs).eva = 16 ∧
    ({ Regs.reset with bldy := 31 } : Regs).evy = 16 := by decide
/-- E18, E19, E20. -/
theorem test_whole_colours : alpha .perTermFloor 8 8 0x7FFF 0 = 0x3DEF ∧ brighten 16 0 = 0x7FFF ∧
    darken 8 0x7FFF = 0x4210 := by decide

/-- BLDCNT as given, coefficients 8. -/
def blendRegs (bldcnt : Half) : Regs := { Regs.reset with bldcnt := bldcnt, bldalpha := 0x0808, bldy := 8 }
/-- BG0, red 31. -/
def layer0 : Layer := ⟨.bg .bg0, 0, 0x001F, false⟩
/-- BG1, blue 31. -/
def layer1 : Layer := ⟨.bg .bg1, 0, 0x7C00, false⟩
/-- The backdrop, black. -/
def layerBd : Layer := ⟨.bd, 4, 0, false⟩
/-- A semi-transparent sprite, red 31. -/
def layerObj : Layer := ⟨.obj, 0, 0x001F, true⟩

/-- E21-E26. -/
theorem test_effect_selection :
    effectColor ref (blendRegs 0x0241) ⟨layer0, layer1⟩ true = 0x3C0F ∧
    effectColor ref (blendRegs 0x0241) ⟨layer1, layer0⟩ true = 0x7C00 ∧
    effectColor ref (blendRegs 0x0241) ⟨layer0, layerBd⟩ true = 0x001F ∧
    effectColor ref (blendRegs 0x0241) ⟨layer0, layer1⟩ false = 0x001F ∧
    effectColor ref (blendRegs 0x00A0) ⟨layerBd, layerBd⟩ true = 0x3DEF ∧
    effectColor ref (blendRegs 0x00C1) ⟨layer0, layer1⟩ true = 0x0010 := by decide
/-- E27-E31, E28 and E29 under both values of their parameter. -/
theorem test_effect_semi :
    effectColor ref (blendRegs 0x0200) ⟨layerObj, layer1⟩ true = 0x3C0F ∧
    effectColor ref (blendRegs 0x0000) ⟨layerObj, layer1⟩ true = 0x001F ∧
    effectColor { ref with semiRequiresSecondTarget := false } (blendRegs 0x0000) ⟨layerObj, layer1⟩ true = 0x3C0F ∧
    effectColor ref (blendRegs 0x0200) ⟨layerObj, layer1⟩ false = 0x001F ∧
    effectColor { ref with semiIgnoresWindowEffect := true } (blendRegs 0x0200) ⟨layerObj, layer1⟩ false = 0x3C0F ∧
    effectColor ref (blendRegs 0x0090) ⟨layerObj, layerBd⟩ true = 0x3DFF ∧
    effectColor ref (blendRegs 0x0200) ⟨layer1, layerObj⟩ true = 0x7C00 := by decide

/-! ## Pixels (95_test_vectors.md 2.9 and the pixels its programs name) -/

/-- 41_register_access.md R184: with the refusal mark set the tick composites a free value (here that of these parameters). -/
theorem test_refused_pixel :
    (({ ppuAt 1 8 with refused := true } : Ppu).tick ref 0 (memOf [(.pal, 0, 0x1234)])).fbAt 1 1 = 0x1555 ∧
    ((ppuAt 1 8).tick ref 0 (memOf [(.pal, 0, 0x1234)])).fbAt 1 1 = 0x1234 := by decide
/-- 10_state.md R22: dispCycle at both ends of the render window and outside it. -/
theorem test_disp_cycle : (ppuAt 0 4).dispCycle = some 0 ∧ (ppuAt 159 1006).dispCycle = some 1002 ∧
    (ppuAt 0 3).dispCycle = none ∧ (ppuAt 0 1007).dispCycle = none ∧ (ppuAt 160 4).dispCycle = none := by decide
/-- R1v, R2v, R3v. -/
theorem test_pixel_write :
    (ppuWith 3 0 fun r => { r with dispcnt := 0x0080 }).pixelColor ref 0 (memOf []) 5 3 = 0x7FFF ∧
    (ppuWith 3 0 fun r => { r with dispcnt := 0x0006 }).pixelColor ref 0 (memOf []) 5 3 = 0x2AAA ∧
    (ppuAt 3 0).pixelColor ref 0 (memOf [(.pal, 0, 0x1234)]) 5 3 = 0x1234 := by decide
/-- P1: pixel (1, 1) of a mode 3 bitmap, rendered by its own tick (column 1 is cycle 8 of these parameters). -/
theorem test_program_p1_pixel :
    (({ ppuWith 1 8 (fun r => { r with dispcnt := 0x0403 }) with
      bgActive := ⟨false, false, true, false⟩, latch := ⟨⟨0, 0x100, 0x100, 0, 1⟩, .reset⟩ } : Ppu).tick ref 0
        (memOf [(.vram, 0, 0x001F), (.vram, 0x1E2, 0x7C00)])).fb = [(241, 0x7C00)] := by decide
/-- The registers of P3. -/
def programP3 (r : Regs) : Regs :=
  { r with dispcnt := 0x2000, win0h := 0x0A14, win0v := 0x0508, winin := 0x20, bldcnt := 0xA0, bldy := 8 }
/-- P3: inside and outside the window. -/
theorem test_program_p3_pixel :
    (ppuWith 5 0 programP3).pixelColor ref 0 (memOf [(.pal, 0, 0x0010)]) 10 5 = 0x3DF7 ∧
    (ppuWith 5 0 programP3).pixelColor ref 0 (memOf [(.pal, 0, 0x0010)]) 20 5 = 0x0010 := by decide
/-- P5: FB[1][0] with BG0 active, then inactive. -/
theorem test_program_p5_pixel :
    ({ ppuWith 1 0 (fun r => { r with dispcnt := 0x1100, bgcnt := ⟨0x0801, 0, 0, 0⟩, bldcnt := 0x0100, bldalpha := 0x0808 })
      with bgActive := ⟨true, false, false, false⟩, strip0 := [(0, ⟨true, 1, 0, true, false⟩)] } : Ppu).pixelColor ref 0
        (memOf [(.pal, 2, 0x7C00), (.pal, 0x202, 0x001F), (.vram, 0x20, 1), (.vram, 0x24, 1), (.vram, 0x4000, 1)]) 0 1 =
      0x3C0F ∧
    ({ ppuWith 1 0 (fun r => { r with dispcnt := 0x1100, bgcnt := ⟨0x0801, 0, 0, 0⟩, bldcnt := 0x0100, bldalpha := 0x0808 })
      with strip0 := [(0, ⟨true, 1, 0, true, false⟩)] } : Ppu).pixelColor ref 0
        (memOf [(.pal, 2, 0x7C00), (.pal, 0x202, 0x001F), (.vram, 0x20, 1), (.vram, 0x24, 1), (.vram, 0x4000, 1)]) 0 1 =
      0x001F := by decide

/-! ## The agents around the block -/

/-- 60_exceptions.md R302: with HBLANK_FLAG_DELAY = 1 the commit lands at the start of the next cycle (P4, lines 4-7). -/
theorem test_delay_pipeline :
    ((stateAt 0 1007).schedulerCycle ref).pending = [⟨.hblank, 0, 1⟩] ∧
    ((({ stateAt 0 1008 with pending := [⟨.hblank, 0, 1⟩] } : State).setRegs
      fun r => { r with dispstat := 0x10 }).schedulerCycle ref).ppu =
      { ppuWith 0 1009 (fun r => { r with dispstat := 0x10 }) with
        hblankFlag := true, q := [.irqRequest .hblank] } := by decide
/-- 20_memory.md R77: the low half lands first, and none while the renderer is busy. -/
theorem test_split_write :
    ({ stateAt 0 1008 with splitWrites := wordHalves .vram 0x10 0xAABBCCDD } : State).landSplitWrite ref =
      { stateAt 0 1008 with
        splitWrites := [⟨.vram, 0x12, 0xAABB⟩], mem := ⟨[(0x10, 0xDD), (0x11, 0xCC)], [], []⟩ } ∧
    ({ stateAt 0 1008 with splitWrites := wordHalves .vram 0x10 0xAABBCCDD } : State).landSplitWrite
      { ref with rendererBusy := fun _ _ _ => true } =
      { stateAt 0 1008 with splitWrites := wordHalves .vram 0x10 0xAABBCCDD } := by decide
/-- 20_memory.md R61: a memory write is little-endian; outside the region and misaligned it stops (notes/assumptions/15.md). -/
theorem test_memory_write :
    (nextOf (step { State.reset with inbox := [.writeHalf .pal 2 0x1234] })).map (·.mem.pal) =
      some [(2, 0x34), (3, 0x12)] ∧
    nextOf (step { State.reset with inbox := [.writeHalf .oam 0x400 1] }) = none ∧
    nextOf (step { State.reset with inbox := [.writeHalf .vram 1 1] }) = none := by decide
/-- 70_reset_and_hazards.md R331: a request waits for the frame boundary, where the next tick, the scheduler's or an operation's,
begins in the reset block, whose first tick is that of (0, 0); a register write made in the window is reset with the block, and
a request made there is served there (notes/assumptions/12.md). -/
theorem test_reset_request :
    (({ stateAt 159 1231 with resetRequested := true } : State).schedulerCycle ref).ppu.line = 160 ∧
    ({ stateAt 160 0 with resetRequested := true } : State).schedulerCycle ref = (stateAt 0 0).schedulerCycle ref ∧
    afterAll [.tick] { stateAt 160 0 with resetRequested := true } = afterAll [.tick] State.reset ∧
    (afterAll [.tick, .wDispstat 8, .tick] { stateAt 159 1231 with resetRequested := true }).map
      (fun s => (s.ppu.line, s.ppu.cycle, s.ppu.regs.dispstat, s.resetRequested)) = some (0, 1, 0, false) ∧
    (nextOf (step { stateAt 160 0 with inbox := [.requestReset] })).map (·.resetDue) = some true := by decide
/-- 60_exceptions.md R323: the inputs standing in the inbox are performed on the way to the vertical-blank edge; the framebuffer
is that of the tick, and no edge in the given steps gives none. -/
theorem test_advance_frame :
    ((State.advanceFrame 3 { stateOf { ppuAt 159 1230 with fb := [(3, 5)] } with
      inbox := [.op 0x10000004 0x0008, .op 0x80000000 0, .op 0x80000000 0, .op 0xC0000000 0] }).map
      fun r => (r.1, r.2.ppu.line, r.2.ppu.regs.dispstat, r.2.inbox)) =
      some ([(3, 5)], 160, 0x0008, [.op 0xC0000000 0]) ∧
    State.advanceFrame 1 { stateAt 159 1230 with inbox := [.op 0x80000000 0] } = none := by decide
/-- The placed operation is the one the next step runs. -/
theorem test_with_fetch_word :
    (nextOf (step (State.reset.withFetchWord 64 0x0000_0080_1000_0000))).map (·.ppu.regs.dispcnt) = some 0x0080 := by decide
/-- 10_state.md R37: a saved block comes back. -/
theorem test_save_restore : (stateAt 9 9).restore (stateAt 3 4).save = stateAt 3 4 := by decide

/-- 00_scope.md R7: the layers are BG_COUNT many. -/
theorem test_bg_count : BgId.all.length = Config.bgCount := by decide
/-- 20_memory.md R60: the bus addresses of the first and the last bytes of the regions. -/
theorem test_bus_addresses : Space.vram.busAddress 0x17FFF = 0x06017FFF ∧ Space.pal.busAddress 0x3FF = 0x050003FF ∧
    Space.oam.busAddress 0 = 0x07000000 := by decide
/-- Memory at reset is in canonical form. -/
theorem reset_memory_wf : State.reset.mem.wf = true := by decide

/-! ## Witnesses: for every statement with premises, a state and operands that meet them

Where a statement has several clauses, one part for each, at a value of the edge of its range. -/

theorem witness_DecodeOfEncodeIsTheOperation : (Instr.w16Odd 0x057 0xFFFF).wellFormed = true ∧
    (Instr.stripWrite 239 ⟨true, 255, 3, true, true⟩).wellFormed = true ∧ (Instr.lycCommit 227).wellFormed = true := by
  decide
theorem witness_DecodedWordIsTheEncodedWord :
    decode 0xB00000EF 0x1FFF = .ok (.stripWrite 239 ⟨true, 255, 3, true, true⟩) ∧
    decode 0xB00000EF 0 = .ok (.stripWrite 239 ⟨false, 0, 0, false, false⟩) := ⟨rfl, rfl⟩
theorem witness_IllegalSelectorsSelectNothing :
    (0x10000400 : OpWord).extractLsb' 10 18 ≠ 0 ∧
    (((0x30000000 : OpWord).extractLsb' 30 2 = 0 ∨ (0x30000000 : OpWord).extractLsb' 30 2 = 1) ∧
      (0x30000000 : OpWord).extractLsb' 28 2 = 3) ∧
    (((0x50000058 : OpWord).extractLsb' 30 2 = 0 ∨ (0x50000058 : OpWord).extractLsb' 30 2 = 1) ∧
      0x058 ≤ ((0x50000058 : OpWord).extractLsb' 0 10).toNat) ∧
    ((0xB00000F0 : OpWord).extractLsb' 30 2 = 2 ∧ (0xB00000F0 : OpWord).extractLsb' 28 2 = 3 ∧
      240 ≤ ((0xB00000F0 : OpWord).extractLsb' 0 10).toNat) := by decide
/-- No effect on a write; a read of each width code. -/
theorem witness_SelectingNothingHasNoEffect :
    (decode 0x10000058 0 = .error .offsetRange ∧ owKind 0x10000058 ≠ 1) ∧
    (decode 0x40000058 0 = .error .offsetRange ∧ owKind 0x40000058 = 1 ∧ owCode 0x40000058 = 0) ∧
    (decode 0x50000058 0 = .error .offsetRange ∧ owKind 0x50000058 = 1 ∧ owCode 0x50000058 = 1) ∧
    (decode 0x60000056 0 = .error .misalignedWord ∧ owKind 0x60000056 = 1 ∧ owCode 0x60000056 = 2) ∧
    (decode 0x70000000 0 = .error .widthCode ∧ owKind 0x70000000 = 1 ∧ owCode 0x70000000 = 3) := by
  refine ⟨⟨rfl, ?_⟩, ⟨rfl, ?_, ?_⟩, ⟨rfl, ?_, ?_⟩, ⟨rfl, ?_, ?_⟩, ⟨rfl, ?_, ?_⟩⟩ <;> decide
theorem witness_StepRunsTheDecodedOperation :
    (({ State.reset with inbox := [.op 0x80000000 0] } : State).inbox = .op 0x80000000 0 :: [] ∧
      decode 0x80000000 0 = .ok .tick) ∧
    State.reset.inbox = [] ∧ ({ State.reset with inbox := [.cycle] } : State).inbox = .cycle :: [] := ⟨⟨rfl, rfl⟩, rfl, rfl⟩
theorem witness_OddHalfwordWriteGoesToTheEvenOffset : (Instr.w16Odd 0x001 0x8001).wellFormed = true ∧
    (Instr.w16Odd 0x057 0x8001).wellFormed = true := by decide
/-- An even and an odd offset, at both ends. -/
theorem witness_ByteWriteMergesWithTheStoredHalfword : (Instr.w8 0x000 0xFF).wellFormed = true ∧
    (Instr.w8 0x057 0xFF).wellFormed = true := by decide
theorem witness_WordWriteIsLowHalfThenHighHalf : (Instr.w32 0x000 0x80000001).wellFormed = true ∧
    (Instr.w32 0x054 0x80000001).wellFormed = true := by decide
/-- An even and an odd offset. -/
theorem witness_ByteWriteKeepsTheOtherByte : (Instr.w8 0x048 0xFF).wellFormed = true ∧
    (Instr.w8 0x057 0xFF).wellFormed = true ∧ State.reset.ppu.regs.Stored :=
  ⟨by decide, by decide, by constructor <;> decide⟩
theorem witness_RegisterWritesKeepTheRest : IsRegisterWrite (.wDispcnt 0xFFFF) ∧ IsRegisterWrite (.w16Odd 0x057 1) ∧
    IsRegisterWrite (.w8 0x057 1) ∧ IsRegisterWrite (.w32 0x054 1) := by
  unfold IsRegisterWrite
  decide
/-- An even and an odd offset. -/
theorem witness_HalfwordReadReturnsTheTable : (Instr.r16 0x056).wellFormed = true ∧
    (Instr.r16 0x057).wellFormed = true := by decide
/-- An even and an odd offset. -/
theorem witness_ByteReadReturnsTheAddressedByte : (Instr.r8 0x000).wellFormed = true ∧
    (Instr.r8 0x057).wellFormed = true := by decide
theorem witness_WordReadReturnsBothHalves : (Instr.r32 0x054).wellFormed = true := by decide
/-- Each flag bit, the two zero bits and a stored bit. -/
theorem witness_DispstatReadsFlagsAndStoredBits : ∀ k ∈ [0, 1, 2, 3, 6, 7, 15], k < 16 := by decide

/-- No column is composited before cycle 4 (92_eei_decisions.md D4). -/
theorem four_le_renderCycle (x : Nat) : 4 ≤ Config.params.renderCycle x := Nat.le_add_left 4 _

/-- A state with no reset due and nothing handed over, though a request stands; a line below the visible area, and a visible
line in a cycle of no column. -/
theorem witness_IdleTickOnlyCounts :
    (({ stateAt 160 1 with resetRequested := true } : State).resetDue = false ∧ (stateAt 160 1).handed = []) ∧
    ((stateAt 160 5).ppu.cycle ≠ 0 ∧ (stateAt 160 5).ppu.cycle ≠ 1007 ∧ (stateAt 160 5).ppu.cycle ≠ 1231 ∧
      160 ≤ (stateAt 160 5).ppu.line) ∧
    ((stateAt 159 3).ppu.cycle ≠ 0 ∧ (stateAt 159 3).ppu.cycle ≠ 1007 ∧ (stateAt 159 3).ppu.cycle ≠ 1231 ∧
      ∀ x, x < 240 → Config.params.renderCycle x ≠ (stateAt 159 3).ppu.cycle) :=
  ⟨by decide, by decide, by decide, by decide, by decide, fun x _ h => by
    have := four_le_renderCycle x
    rw [h] at this
    exact absurd this (by decide)⟩
/-- The last line of the frame, and a reset due at the frame boundary. -/
theorem witness_CycleZeroCommitsAndSwaps : (stateAt 227 0).beginTick.ppu.cycle = 0 ∧
    ({ stateAt 160 0 with resetRequested := true } : State).beginTick.ppu.cycle = 0 := by decide
theorem witness_RenderTickWritesOnePixel :
    239 < 240 ∧ (stateAt 159 (Config.params.renderCycle 239)).ppu.line < 160 ∧
    (stateAt 159 (Config.params.renderCycle 239)).ppu.cycle = Config.params.renderCycle 239 ∧
    (stateAt 159 (Config.params.renderCycle 239)).Trusted ∧
    Sparse.wf (0 : Color15) 38400 0 (stateAt 159 (Config.params.renderCycle 239)).ppu.fb = true :=
  ⟨by decide, by decide, rfl, rfl, rfl⟩
/-- The last line with the HBlank DMA trigger and the first without. -/
theorem witness_HBlankTickEmitsItsEvents : ((stateAt 159 1007).ppu.cycle = 1007 ∧ (stateAt 159 1007).ppu.line ≤ 159) ∧
    (stateAt 160 1007).ppu.cycle = 1007 ∧ ¬(stateAt 160 1007).ppu.line ≤ 159 := by decide
/-- The transitions into lines 160, 227 and 0, and one into another line. -/
theorem witness_LineEndTickEntersTheNextLine :
    ∀ l ∈ [159, 226, 227, 5], (stateAt l 1231).ppu.cycle = 1231 := by decide
/-- The reload at line 160, the reload after a write, the step after a visible line, and no change. -/
theorem witness_LineEndUpdatesTheInternalReferences :
    ((stateAt 159 1231).ppu.cycle = 1231 ∧ ((stateAt 159 1231).ppu.line + 1) % 228 = 160) ∧
    ((stateOf { ppuAt 10 1231 with pendX := .const true, pendY := .const true }).ppu.cycle = 1231 ∧
      (stateOf { ppuAt 10 1231 with pendX := .const true, pendY := .const true }).ppu.pendX.get .bg3 = true) ∧
    ((stateAt 158 1231).ppu.cycle = 1231 ∧ (stateAt 158 1231).ppu.line ≤ 159) ∧
    (stateAt 160 1231).ppu.cycle = 1231 ∧ ¬(stateAt 160 1231).ppu.line ≤ 159 := by decide
/-- Into the last visible line, the first line below, and line 0. -/
theorem witness_LineEndTakesTheLineLatch :
    ((stateAt 158 1231).ppu.cycle = 1231 ∧ ((stateAt 158 1231).ppu.line + 1) % 228 ≤ 159) ∧
    ((stateAt 159 1231).ppu.cycle = 1231 ∧ ¬((stateAt 159 1231).ppu.line + 1) % 228 ≤ 159) ∧
    (stateAt 227 1231).ppu.cycle = 1231 ∧ ((stateAt 227 1231).ppu.line + 1) % 228 ≤ 159 := by decide
/-- A commit of the current line and one of another, each after one handed over before. -/
theorem witness_HBlankCommitSetsTheFlag :
    ({ stateAt 227 1010 with handed := [⟨.lyc, 227⟩, ⟨.hblank, 227⟩] } : State).handed =
      [⟨.lyc, 227⟩] ++ [⟨.hblank, (227 : Byte).toNat⟩] ∧
    ({ stateAt 227 1010 with handed := [⟨.lyc, 227⟩, ⟨.hblank, 0⟩] } : State).handed =
      [⟨.lyc, 227⟩] ++ [⟨.hblank, (0 : Byte).toNat⟩] ∧ (stateAt 227 1010).resetDue = false := by decide
theorem witness_LycCommitComparesTheLine :
    ((Instr.lycCommit 0).wellFormed = true ∧
      ({ stateAt 0 9 with handed := [⟨.lyc, 0⟩] } : State).handed = [] ++ [⟨.lyc, (0 : Byte).toNat⟩]) ∧
    ((Instr.lycCommit 227).wellFormed = true ∧
      ({ stateAt 0 9 with handed := [⟨.lyc, 0⟩, ⟨.lyc, 227⟩] } : State).handed =
        [⟨.lyc, 0⟩] ++ [⟨.lyc, (227 : Byte).toNat⟩]) ∧ (stateAt 0 9).resetDue = false := by decide
theorem witness_StripWriteSetsOneEvaluationColumn :
    (Instr.stripWrite 239 ⟨true, 5, 0, false, false⟩).wellFormed = true ∧
    Sparse.wf SpriteEntry.empty 240 0 State.reset.ppu.evalStrip = true := by decide
theorem witness_NoOperationWritesMemory : exec (.wVcount 5) State.reset = .next State.reset := rfl
/-- Line 5 under forced blank, in the cycle of column 0. -/
def blankState : State := stateOf (ppuWith 5 (Config.params.renderCycle 0) fun r => { r with dispcnt := 0x0080 })

/-- A tick under forced blank changes the pixel at (0, 5) from 0 to white. -/
theorem witness_FramebufferChangesOnlyWhereRendered : 0 < 240 ∧ blankState.Trusted ∧ Instr.tick ≠ .hardReset ∧
    (Instr.tick = .tick → blankState.resetDue = false) ∧ ∃ t, exec .tick blankState = .next t ∧ t.ppu.fbAt 0 5 ≠ blankState.ppu.fbAt 0 5 := by
  have hd : blankState.resetDue = false := rfl
  refine ⟨by decide, rfl, by decide, fun _ => hd, _, rfl, ?_⟩
  have h1006 : Config.params.renderCycle 0 ≤ 1006 := by
    show min 763 _ + 0 + 4 ≤ 1006
    omega
  have hc : blankState.ppu.columnNow Config.params = some 0 := by
    rw [Ppu_columnNow_eq, if_pos (show blankState.ppu.line < 160 ∧ 4 ≤ blankState.ppu.cycle ∧
      blankState.ppu.cycle ≤ 1006 from ⟨by decide, four_le_renderCycle 0, h1006⟩)]
    simp [renderColumn, List.range_eq_range', List.range'_succ (n := 239), blankState, stateOf, ppuWith, ppuAt]
  rw [State_beginTick_eq hd, State_runTick_ppu]
  rw [Ppu_tick_render (show Ppu.columnNow Config.params blankState.openCycle.ppu = some 0 from hc)]
  show (Sparse.read 0 [(240 * 5 + 0, (0x7FFF : Color15))] (240 * 5 + 0) : Color15) ≠ 0
  decide
/-- A tick of another cycle, and an operation that is no tick. -/
theorem witness_DrawBufferIsFixedDuringALine :
    (exec (.wVcount 5) State.reset = .next State.reset ∧ Instr.wVcount 5 ≠ .hardReset ∧
      (Instr.wVcount 5 = .tick → State.reset.ppu.cycle ≠ 0)) ∧
    ((∃ t, exec .tick (stateAt 0 1) = .next t) ∧ Instr.tick ≠ .hardReset ∧
      (Instr.tick = .tick → (stateAt 0 1).ppu.cycle ≠ 0)) :=
  ⟨⟨rfl, by decide, by decide⟩, ⟨_, rfl⟩, by decide, by decide⟩
/-- A state with something in each part that the invariant speaks of, in vertical blank. -/
def busyState : State where
  ppu := { ppuWith 226 1231 (fun r => { r with dispcnt := 0x0100, dispstat := 0xFF38, winin := 0x3F3F }) with
    vblankFlag := true
    bgActive := ⟨true, false, false, false⟩
    strip0 := [(239, ⟨true, 5, 0, false, false⟩)]
    fb := [(38399, 0x7FFF)]
    q := [.irqRequest .vcount, .scheduleLycCompare 227] }
  mem := ⟨[(0x17FFF, 1)], [(0, 1)], []⟩
  pending := [⟨.lyc, 227, 1232⟩]
  handed := [⟨.hblank, 226⟩]
  splitWrites := [⟨.pal, 0x3FE, 0xFFFF⟩]
  resetRequested := true
  inbox := [.op 0xB00000EF 1]
  lastRead := none
  draws := 7

theorem witness_StepKeepsTheInvariant : busyState.Inv Config.params ∧ ∃ t, step busyState = .next t := by
  refine ⟨⟨⟨by decide, by decide, by constructor <;> decide, by decide, fun i => ⟨?_, ?_, ?_⟩, ?_, by decide, by decide,
    by decide, ?_⟩, by decide, ?_, ?_⟩, _, rfl⟩
  · cases i <;> exact Nat.zero_le _
  · cases i <;> decide
  · cases i <;> decide
  · intro b
    cases b <;> decide
  · simp [busyState, PpuEvent.OfFrame]
  · simp [busyState, PendingCommit.Ok]
  · simp [busyState, HalfWrite.InRegion, Space.size]
/-- The first clause with a tick, a tick that a reset is due at, a reset and another operation; the second at the last cycle of
a frame. -/
theorem witness_PositionMovesOneCycleATickThroughTheFrame :
    (∃ t, exec .tick (stateAt 227 1231) = .next t) ∧
    (∃ t, exec .tick { stateAt 160 0 with resetRequested := true } = .next t) ∧ (∃ t, exec .hardReset (stateAt 227 1231) = .next t) ∧
    (∃ t, exec (.wVcount 0) (stateAt 227 1231) = .next t) ∧
    (stateAt 227 1231).ppu.line < 228 ∧ (stateAt 227 1231).ppu.cycle < 1232 ∧
    (stateAt 227 1231).resetRequested = false :=
  ⟨⟨_, rfl⟩, ⟨_, rfl⟩, ⟨_, rfl⟩, ⟨_, rfl⟩, by decide, by decide, rfl⟩
theorem witness_VisibleLineIsFullyRewritten : (stateAt 159 0).ppu.line < 160 ∧ (stateAt 159 0).ppu.cycle = 0 ∧
    (stateAt 159 0).Trusted ∧ Sparse.wf (0 : Color15) 38400 0 (stateAt 159 0).ppu.fb = true :=
  ⟨by decide, rfl, rfl, by decide⟩
/-- Two blocks that differ in the framebuffer, the position, the queue and another column of the draw buffer, and two
memories that differ in OAM. -/
theorem witness_PixelDependsOnlyOnVisibleState :
    ({ ppuAt 9 9 with fb := [(0, 1)], strip0 := [(7, ⟨true, 1, 1, true, true⟩)] } : Ppu).regs = (ppuAt 3 4).regs ∧
    ({ ppuAt 9 9 with fb := [(0, 1)], strip0 := [(7, ⟨true, 1, 1, true, true⟩)] } : Ppu).bgActive = (ppuAt 3 4).bgActive ∧
    ({ ppuAt 9 9 with fb := [(0, 1)], strip0 := [(7, ⟨true, 1, 1, true, true⟩)] } : Ppu).latch = (ppuAt 3 4).latch ∧
    stripAt ({ ppuAt 9 9 with fb := [(0, 1)], strip0 := [(7, ⟨true, 1, 1, true, true⟩)] } : Ppu).drawStrip 239 =
      stripAt (ppuAt 3 4).drawStrip 239 ∧
    (∀ a, (⟨[], [], [(0, 1)]⟩ : Memory).readByte .vram a = (⟨[], [], []⟩ : Memory).readByte .vram a) ∧
    (∀ a, (⟨[], [], [(0, 1)]⟩ : Memory).readByte .pal a = (⟨[], [], []⟩ : Memory).readByte .pal a) :=
  ⟨rfl, rfl, rfl, rfl, fun _ => rfl, fun _ => rfl⟩
/-- The first and the last pixel of a 16 x 16 cell. -/
theorem witness_MosaicCellSamplesItsTopLeftPixel :
    (({ Regs.reset with bgcnt := .const 0x40, mosaic := 0x00FF } : Regs).bgcnt.get .bg3).getLsbD 6 = true ∧
    16 / ((({ Regs.reset with bgcnt := .const 0x40, mosaic := 0x00FF } : Regs).mosaic.extractLsb' 0 4).toNat + 1) =
      31 / ((({ Regs.reset with bgcnt := .const 0x40, mosaic := 0x00FF } : Regs).mosaic.extractLsb' 0 4).toNat + 1) ∧
    144 / ((({ Regs.reset with bgcnt := .const 0x40, mosaic := 0x00FF } : Regs).mosaic.extractLsb' 4 4).toNat + 1) =
      159 / ((({ Regs.reset with bgcnt := .const 0x40, mosaic := 0x00FF } : Regs).mosaic.extractLsb' 4 4).toNat + 1) := by
  decide
/-- An opaque sample of each bitmap. -/
theorem witness_BitmapTransparency :
    sampleBitmap3 (memOf []) ⟨0, 0, 0x0100, 0, 1⟩ 239 = .solid 0 ∧
    sampleBitmap5 (memOf []) { Regs.reset with dispcnt := 0x0015 } ⟨0, 0, 0x0100, 0, 1⟩ 159 = .solid 0 ∧
    sampleBitmap4 (memOf [(.vram, 0, 0x0001), (.pal, 2, 5)]) Regs.reset ⟨0, 0, 0x0100, 0, 1⟩ 0 = .solid 5 := by decide
/-- The smallest and the largest side of an affine layer, and an affine layer with each number. -/
theorem witness_AffineWrapAndOverflow : 0 < ({ Regs.reset with bgcnt := .const 0x0000 } : Regs).affS .bg2 ∧
    ({ Regs.reset with bgcnt := .const 0xC000 } : Regs).affS .bg2 = 1024 ∧ 0 < 1024 ∧
    (ppuWith 0 0 fun r => { r with dispcnt := 1 }).kindOf AffId.bg2.toBg = .affine ∧
    (ppuWith 0 0 fun r => { r with dispcnt := 2 }).kindOf AffId.bg3.toBg = .affine := by decide
/-- Every class of pixel. -/
theorem witness_WindowExtentAndPrecedence :
    (ppuAt 0 0).windowClass 50 50 = .none ∧ (ppuWith 0 0 bothWindows).windowClass 50 50 = .win0 ∧
    (ppuWith 0 0 fun r => { bothWindows r with win0h := 0x3232 }).windowClass 50 50 = .win1 ∧
    ({ ppuWith 0 0 (fun r => { r with dispcnt := 0x9000 }) with strip0 := [(30, ⟨false, 0, 3, false, true⟩)] } :
      Ppu).windowClass 30 9 = .objWin ∧
    (ppuWith 0 0 fun r => { r with dispcnt := 0x8000 }).windowClass 30 9 = .outside := by decide
/-- Both ends of EVY, and each channel. -/
theorem witness_EffectsWorkChannelByChannel : 0 ≤ 16 ∧ 16 ≤ 16 ∧ ∀ ch ∈ [red, green, blue],
    ch = red ∨ ch = green ∨ ch = blue := by
  refine ⟨by decide, by decide, fun ch h => ?_⟩
  simpa using h
/-- Mode 0, BG0 and BG1 active and opaque in column 0, as in E21. -/
def twoLayers : Ppu :=
  { ppuWith 0 0 (fun r => { r with bgcnt := ⟨0x0800, 0x0900, 0, 0⟩ }) with bgActive := ⟨true, true, false, false⟩ }
/-- Their map entries and tiles, as in program P2. -/
def twoLayersMem : Memory :=
  memOf [(.pal, 2, 0x0015), (.pal, 4, 0x000B), (.vram, 0x20, 1), (.vram, 0x40, 2), (.vram, 0x4000, 1), (.vram, 0x4800, 2)]

/-- P2: two layers of equal priority; with the window admitting one of them, one opaque layer; with none, no layer; and a layer
of each kind. -/
theorem witness_FrontBackgroundHasLowestPriorityValue :
    (twoLayers.bgSelected 0b111111 .bg1 = true ∧ twoLayers.sampleBg ref 0 twoLayersMem .bg1 0 0 = .solid 0x000B) ∧
    (∀ i, twoLayers.bgSelected 0b111101 i = true → i = .bg0) ∧ (∀ i, ¬twoLayers.bgSelected 0b000000 i = true) ∧
    twoLayers.kindOf .bg3 = .text ∧ (ppuWith 0 0 fun r => { r with dispcnt := 3 }).kindOf .bg2 = .bitmap3 ∧
    (ppuWith 0 0 fun r => { r with dispcnt := 4 }).kindOf .bg2 = .bitmap4 ∧
    (ppuWith 0 0 fun r => { r with dispcnt := 5 }).kindOf .bg2 = .bitmap5 := by
  refine ⟨by decide, fun i => ?_, fun i => ?_, by decide, by decide, by decide, by decide⟩ <;> cases i <;> decide
/-- Forced blank; the two reserved modes; the last mode that is none. -/
theorem witness_ForcedBlankIsWhiteAndResetShowsTheBackdrop :
    (0x0080 : Half).getLsbD 7 = true ∧
    ((0x0006 : Half).getLsbD 7 = false ∧ (0x0006 : Half).extractLsb' 0 3 = 6) ∧
    ((0x0007 : Half).getLsbD 7 = false ∧ (0x0007 : Half).extractLsb' 0 3 = 7) ∧
    ((0x0005 : Half).getLsbD 7 = false ∧ (0x0005 : Half).extractLsb' 0 3 ≠ 6 ∧ (0x0005 : Half).extractLsb' 0 3 ≠ 7) := by
  decide
/-- The longest delay, and none with a request standing in another cycle. -/
theorem witness_ScheduledCommitRunsToCompletion :
    ((⟨.lyc, 227, 1231 + 1⟩ : PendingCommit) ∈ ({ State.reset with pending := [⟨.lyc, 227, 1232⟩] } : State).pending ∧
      ∀ j, j ≤ 1231 → (State.cycles j { State.reset with pending := [⟨.lyc, 227, 1232⟩] }).resetDue = false) ∧
    (⟨.hblank, 0, 0 + 1⟩ : PendingCommit) ∈
      ({ State.reset with pending := [⟨.hblank, 0, 1⟩], resetRequested := true } : State).pending ∧
    ∀ j, j ≤ 0 →
      (State.cycles j { State.reset with pending := [⟨.hblank, 0, 1⟩], resetRequested := true }).resetDue = false :=
  ⟨⟨by decide, fun j _ => State_cycles_request rfl j⟩, by decide, fun j h => by rw [Nat.le_zero.mp h]; rfl⟩
/-- A state in which an HBlank and a LYC commit fall due, both interrupts enabled and LYC matching. -/
def dueState : State :=
  { stateOf (ppuWith 227 1230 fun r => { r with dispstat := 0xE330 }) with
    pending := [⟨.hblank, 227, 1⟩, ⟨.lyc, 227, 1⟩, ⟨.lyc, 0, 2⟩] }

theorem witness_DueHBlankCommitSetsTheFlag :
    (⟨.hblank, dueState.ppu.line, 1⟩ ∈ dueState.pending ∧ dueState.resetDue = false ∧ dueState.ppu.cycle ≠ 1231 ∧
      dueState.ppu.regs.dispstat.getLsbD 4 = true) ∧
    227 < 228 ∧ ⟨.lyc, 227, 1⟩ ∈ dueState.pending ∧
    (∀ c ∈ dueState.pending, c.kind = .lyc → c.left ≤ 1 → c.line = 227) ∧
    227 = (dueState.ppu.regs.dispstat.extractLsb' 8 8).toNat ∧ dueState.ppu.regs.dispstat.getLsbD 5 = true := by decide
/-- The frame boundary, and the cycle after it. -/
theorem witness_RequestedResetWaitsForTheFrameBoundary :
    (({ stateAt 160 0 with resetRequested := true } : State).resetRequested = true ∧
      (stateAt 160 0).ppu.line = 160 ∧ (stateAt 160 0).ppu.cycle = 0) ∧
    ({ stateAt 160 1 with resetRequested := true } : State).resetRequested = true ∧
      ¬((stateAt 160 1).ppu.line = 160 ∧ (stateAt 160 1).ppu.cycle = 0) := by decide
/-- The last halfword of VRAM, and the first address past the end of OAM. -/
theorem witness_MemoryWriteIsReadBack :
    (({ State.reset with inbox := [.writeHalf .vram 0x17FFE 0xABCD] } : State).inbox = [.writeHalf .vram 0x17FFE 0xABCD] ∧
      0x17FFE % 2 = 0 ∧ 0x17FFE + 2 ≤ Space.size .vram ∧
      ({ State.reset with inbox := [.writeHalf .vram 0x17FFE 0xABCD] } : State).mem.wf = true) ∧
    ({ State.reset with inbox := [.writeHalf .oam 0x3FF 1] } : State).inbox = [.writeHalf .oam 0x3FF 1] ∧
      Space.size .oam < 0x3FF + 2 := by decide

end Sys2Proof.Tests
end

