-- ==== Sys2Proof/Proofs/PixelVisibleState.lean ====
section
/-! PROOFS. The colour of a pixel is a function of the visible state (00_scope.md R17, 44_compositing_blending.md R265): each
layer of the pixel's definition, from a byte read up to the composed colour, answers the same for two memories that agree on
VRAM and palette RAM and two blocks that agree on what that layer reads. -/

namespace Sys2Proof.Machine

section Memories
variable {m m' : Memory}

theorem Memory.readHalf_congr {s : Space} (h : ∀ a, m'.readByte s a = m.readByte s a) (a : Nat) :
    m'.readHalf s a = m.readHalf s a := by
  simp only [Memory.readHalf, h]

section Palette
variable (hpal : ∀ a, m'.readByte .pal a = m.readByte .pal a)
include hpal

theorem Memory.bgColor_congr (k : Nat) : m'.bgColor k = m.bgColor k := by
  simp only [Memory.bgColor, Memory.readHalf_congr hpal]

theorem Memory.objColor_congr (k : Nat) : m'.objColor k = m.objColor k := by
  simp only [Memory.objColor, Memory.readHalf_congr hpal]

theorem Memory.paletteSample_congr (k index : Nat) : m'.paletteSample k index = m.paletteSample k index := by
  simp only [Memory.paletteSample, Memory.bgColor_congr hpal]

theorem backdrop_congr : backdrop m' = backdrop m := by
  simp only [backdrop, Memory.bgColor_congr hpal]

theorem spriteLayer_congr (o : SpriteEntry) : spriteLayer m' o = spriteLayer m o := by
  simp only [spriteLayer, Memory.objColor_congr hpal]

end Palette

section Vram
variable (hvram : ∀ a, m'.readByte .vram a = m.readByte .vram a)
include hvram

theorem bgVramHalf_congr (P : Params) (n : Nat) (i : BgId) (slot : SampleSlot) (a : Nat) :
    bgVramHalf P n m' i slot a = bgVramHalf P n m i slot a := by
  simp only [bgVramHalf, Memory.readHalf_congr hvram]

theorem bgVramByte_congr (P : Params) (n : Nat) (i : BgId) (slot : SampleSlot) (a : Nat) :
    bgVramByte P n m' i slot a = bgVramByte P n m i slot a := by
  simp only [bgVramByte, hvram]

theorem sampleBitmap3_congr (l : LineLatch) (x : Nat) : sampleBitmap3 m' l x = sampleBitmap3 m l x := by
  simp only [sampleBitmap3, Memory.readHalf_congr hvram]

theorem sampleBitmap5_congr (r : Regs) (l : LineLatch) (x : Nat) :
    sampleBitmap5 m' r l x = sampleBitmap5 m r l x := by
  simp only [sampleBitmap5, Memory.readHalf_congr hvram]

variable (hpal : ∀ a, m'.readByte .pal a = m.readByte .pal a)
include hpal

theorem sampleBitmap4_congr (r : Regs) (l : LineLatch) (x : Nat) :
    sampleBitmap4 m' r l x = sampleBitmap4 m r l x := by
  simp only [sampleBitmap4, hvram, Memory.paletteSample_congr hpal]

theorem textTexel_congr (P : Params) (n : Nat) (r : Regs) (i : BgId) (e : Half) (px py : Nat) :
    textTexel P n m' r i e px py = textTexel P n m r i e px py := by
  simp only [textTexel, bgVramByte_congr hvram, Memory.paletteSample_congr hpal]

theorem sampleText_congr (P : Params) (n : Nat) (r : Regs) (i : BgId) (x y : Nat) :
    sampleText P n m' r i x y = sampleText P n m r i x y := by
  simp only [sampleText, bgVramHalf_congr hvram, textTexel_congr hvram hpal]

theorem sampleAffine_congr (P : Params) (n : Nat) (r : Regs) (l : LineLatch) (i : BgId) (x : Nat) :
    sampleAffine P n m' r l i x = sampleAffine P n m r l i x := by
  simp only [sampleAffine, bgVramByte_congr hvram, Memory.paletteSample_congr hpal]

end Vram
end Memories

section Blocks
variable {p p' : Ppu} (hregs : p'.regs = p.regs)
include hregs

theorem Ppu.kindOf_congr (i : BgId) : p'.kindOf i = p.kindOf i := by
  rw [Ppu.kindOf, Ppu.kindOf, hregs]

theorem Ppu.bgSelected_congr (hact : p'.bgActive = p.bgActive) (e : BitVec 6) (i : BgId) :
    p'.bgSelected e i = p.bgSelected e i := by
  rw [Ppu.bgSelected, Ppu.bgSelected, Ppu.kindOf_congr hregs, hact]

theorem Ppu.inObjWindow_congr {x : Nat} (hstrip : stripAt p'.drawStrip x = stripAt p.drawStrip x) :
    p'.inObjWindow x = p.inObjWindow x := by
  rw [Ppu.inObjWindow, Ppu.inObjWindow, hregs, hstrip]

theorem Ppu.windowClass_congr {x : Nat} (hstrip : stripAt p'.drawStrip x = stripAt p.drawStrip x) (y : Nat) :
    p'.windowClass x y = p.windowClass x y := by
  rw [Ppu.windowClass, Ppu.windowClass, Ppu.inObjWindow_congr hregs hstrip, hregs]

theorem Ppu.enableSetAt_congr {x : Nat} (hstrip : stripAt p'.drawStrip x = stripAt p.drawStrip x) (y : Nat) :
    p'.enableSetAt x y = p.enableSetAt x y := by
  rw [Ppu.enableSetAt, Ppu.enableSetAt, Ppu.windowClass_congr hregs hstrip, hregs]

end Blocks

theorem Ppu.latchOf_congr {p p' : Ppu} (hlatch : p'.latch = p.latch) (i : BgId) : p'.latchOf i = p.latchOf i := by
  cases i <;> simp only [Ppu.latchOf, hlatch]

section BlocksAndMemories
variable {m m' : Memory} {p p' : Ppu}
  (hpal : ∀ a, m'.readByte .pal a = m.readByte .pal a) (hregs : p'.regs = p.regs)

include hpal hregs in
theorem Ppu.mergeSprite_congr {x : Nat} (hstrip : stripAt p'.drawStrip x = stripAt p.drawStrip x) (e : BitVec 6)
    (t : TopTwo) : p'.mergeSprite m' e x t = p.mergeSprite m e x t := by
  simp only [Ppu.mergeSprite, hregs, hstrip, spriteLayer_congr hpal]

variable (hvram : ∀ a, m'.readByte .vram a = m.readByte .vram a) (hlatch : p'.latch = p.latch)
include hpal hregs hvram hlatch

theorem Ppu.sampleBg_congr (P : Params) (n : Nat) (i : BgId) (x y : Nat) :
    p'.sampleBg P n m' i x y = p.sampleBg P n m i x y := by
  unfold Ppu.sampleBg
  rw [Ppu.kindOf_congr hregs, Ppu.latchOf_congr hlatch, hregs]
  cases p.kindOf i with
  | absent => rfl
  | text => exact sampleText_congr hvram hpal ..
  | affine => exact sampleAffine_congr hvram hpal ..
  | bitmap3 => exact sampleBitmap3_congr hvram ..
  | bitmap4 => exact sampleBitmap4_congr hvram hpal ..
  | bitmap5 => exact sampleBitmap5_congr hvram ..

variable (hact : p'.bgActive = p.bgActive)
include hact

theorem Ppu.mergeBg_congr (P : Params) (n : Nat) (e : BitVec 6) (x y : Nat) :
    p'.mergeBg P n m' e x y = p.mergeBg P n m e x y := by
  funext t i
  rw [Ppu.mergeBg, Ppu.mergeBg, Ppu.bgSelected_congr hregs hact, Ppu.sampleBg_congr hpal hregs hvram hlatch, hregs]

theorem Ppu.topBgs_congr (P : Params) (n : Nat) (e : BitVec 6) (x y : Nat) :
    p'.topBgs P n m' e x y = p.topBgs P n m e x y := by
  rw [Ppu.topBgs, Ppu.topBgs, Ppu.mergeBg_congr hpal hregs hvram hlatch hact, backdrop_congr hpal]

theorem Ppu.topTwo_congr {x : Nat} (hstrip : stripAt p'.drawStrip x = stripAt p.drawStrip x) (P : Params) (n : Nat)
    (e : BitVec 6) (y : Nat) : p'.topTwo P n m' e x y = p.topTwo P n m e x y := by
  rw [Ppu.topTwo, Ppu.topTwo, Ppu.topBgs_congr hpal hregs hvram hlatch hact, Ppu.mergeSprite_congr hpal hregs hstrip]

end BlocksAndMemories

/-- Settles O46: the registers fix forced blank, the mode and the effect; the enable set reads the draw buffer's column; the
top two are those of two memories with the same VRAM and palette bytes. -/
theorem pixelDependsOnlyOnVisibleState : Obligations.PixelDependsOnlyOnVisibleState := by
  intro P n m m' p p' x y hregs hact hlatch hstrip hvram hpal
  rw [Ppu.pixelColor, Ppu.pixelColor, Ppu.enableSetAt_congr hregs hstrip,
    Ppu.topTwo_congr hpal hregs hvram hlatch hact hstrip, hregs]

end Sys2Proof.Machine
end

