-- ==== Sys2Proof/Proofs/StepInvariant.lean ====
section
/-! PROOFS. Every step keeps the machine's invariant (10_state.md R21-R33). The block first: a register write, a commit, a
tick and a strip write keep `Ppu.Inv`. Then the agents around it: a tick's start, a cycle of the scheduler, an operation and
an input keep `State.Inv`, and a step is one of these. -/

namespace Sys2Proof.Machine

/-! ## The parts of the block's invariant -/

/-- The enable delay of a layer speaks of DISPCNT and of that layer's delay alone. -/
theorem Ppu_enableOk_congr {P : Params} {p q : Ppu} {i : BgId} (h : p.EnableOk P i)
    (hd : q.regs.dispcnt = p.regs.dispcnt) (hc : q.bgCountdown = p.bgCountdown) (ha : q.bgActive = p.bgActive) :
    q.EnableOk P i where
  bounded := by rw [hc]; exact h.bounded
  counting := by rw [hc, hd]; exact h.counting
  active := by rw [ha, hd]; exact h.active

/-- A new cycle, hblankFlag, vcountFlag, framebuffer and queue: commits and the ticks inside a line that leave the strips alone
change no more than these, and keep the invariant where the new values are legal. -/
theorem Ppu_inv_within_line {P : Params} {p : Ppu} (h : p.Inv P) {c : Nat} {hb vc : Bool} {f : Framebuffer}
    {es : List PpuEvent} (hc : c < 1232) (hf : Sparse.wf (0 : Color15) 38400 0 f = true) (hq : ∀ e ∈ es, e.OfFrame) :
    Ppu.Inv P { p with cycle := c, hblankFlag := hb, vcountFlag := vc, fb := f, q := es } where
  line := h.line
  cycle := hc
  stored := h.stored
  vblank := h.vblank
  enable i := Ppu_enableOk_congr (h.enable i) rfl rfl rfl
  cell := h.cell
  strip0 := h.strip0
  strip1 := h.strip1
  fb := hf
  queue := hq

/-- The reset block meets the invariant (70_reset_and_hazards.md R330). -/
theorem Ppu_reset_inv (P : Params) : Ppu.reset.Inv P where
  line := by decide
  cycle := by decide
  stored := by constructor <;> decide
  vblank := rfl
  enable i := by cases i <;> exact ⟨Nat.zero_le _, fun h => absurd rfl h, fun h => nomatch h⟩
  cell b := by cases b <;> decide
  strip0 := rfl
  strip1 := rfl
  fb := rfl
  queue _ h := nomatch h

/-! ## Register writes -/

/-- A value masked to one set of bits has none of a disjoint set. -/
theorem and_mask_disjoint (v : Half) {keep drop : Half} (h : keep &&& drop = 0) : v &&& keep &&& drop = 0 := by
  rw [BitVec.and_assoc, h]
  exact BitVec.and_zero

/-- Storing BGX[b] changes that register, its internal reference and its reload mark (41_register_access.md R171, R172). -/
theorem Ppu_storeBgx_eq (P : Params) (b : AffId) (v : S28) (p : Ppu) :
    p.storeBgx P b v =
      { p with
        regs := { p.regs with bgx := p.regs.bgx.set b v }
        ix := (p.storeBgx P b v).ix
        pendX := (p.storeBgx P b v).pendX } := by
  unfold Ppu.storeBgx
  split <;> rfl

/-- Storing BGY[b] changes that register, its internal reference and its reload mark (41_register_access.md R171, R172). -/
theorem Ppu_storeBgy_eq (P : Params) (b : AffId) (v : S28) (p : Ppu) :
    p.storeBgy P b v =
      { p with
        regs := { p.regs with bgy := p.regs.bgy.set b v }
        iy := (p.storeBgy P b v).iy
        pendY := (p.storeBgy P b v).pendY } := by
  unfold Ppu.storeBgy
  split <;> rfl

/-- Writing BGCNT keeps bit 13 clear for BG0 and BG1 (41_register_access.md R164). -/
theorem Ppu_writeBgcnt_stored {p : Ppu} (h : p.regs.Stored) (i : BgId) (v : Half) :
    (p.writeBgcnt i v).regs.Stored := by
  have hv : v &&& 0xDFFF &&& 0x2000 = 0 := and_mask_disjoint v rfl
  cases i
  case bg0 => exact ⟨h.dispstat, hv, h.bg1cnt, h.winin, h.winout, h.bldcnt, h.bldalpha⟩
  case bg1 => exact ⟨h.dispstat, h.bg0cnt, hv, h.winin, h.winout, h.bldcnt, h.bldalpha⟩
  case bg2 => exact ⟨h.dispstat, h.bg0cnt, h.bg1cnt, h.winin, h.winout, h.bldcnt, h.bldalpha⟩
  case bg3 => exact ⟨h.dispstat, h.bg0cnt, h.bg1cnt, h.winin, h.winout, h.bldcnt, h.bldalpha⟩

/-- A register write sets stored bits alone (10_state.md R23). -/
theorem Ppu_writeReg_stored {p : Ppu} (h : p.regs.Stored) (P : Params) (r : HalfReg) (v : Half) :
    (p.writeReg P r v).regs.Stored := by
  have hcnt := fun i => Ppu_writeBgcnt_stored h i v
  obtain ⟨hstat, h0, h1, hin, hout, hbld, halpha⟩ := h
  cases r
  case dispstat => exact ⟨and_mask_disjoint v rfl, h0, h1, hin, hout, hbld, halpha⟩
  case winin => exact ⟨hstat, h0, h1, and_mask_disjoint v rfl, hout, hbld, halpha⟩
  case winout => exact ⟨hstat, h0, h1, hin, and_mask_disjoint v rfl, hbld, halpha⟩
  case bldcnt => exact ⟨hstat, h0, h1, hin, hout, and_mask_disjoint v rfl, halpha⟩
  case bldalpha => exact ⟨hstat, h0, h1, hin, hout, hbld, and_mask_disjoint v rfl⟩
  case bgcnt i => exact hcnt i
  case dispcnt =>
    rw [Ppu.writeReg, Ppu_writeDispcnt_eq]
    exact ⟨hstat, h0, h1, hin, hout, hbld, halpha⟩
  case greenswap =>
    rw [Ppu.writeReg, Ppu.writeGreenswap]
    split <;> exact ⟨hstat, h0, h1, hin, hout, hbld, halpha⟩
  case bgxL b =>
    rw [Ppu.writeReg, Ppu.writeBgxL, Ppu_storeBgx_eq]
    exact ⟨hstat, h0, h1, hin, hout, hbld, halpha⟩
  case bgxH b =>
    rw [Ppu.writeReg, Ppu.writeBgxH, Ppu_storeBgx_eq]
    exact ⟨hstat, h0, h1, hin, hout, hbld, halpha⟩
  case bgyL b =>
    rw [Ppu.writeReg, Ppu.writeBgyL, Ppu_storeBgy_eq]
    exact ⟨hstat, h0, h1, hin, hout, hbld, halpha⟩
  case bgyH b =>
    rw [Ppu.writeReg, Ppu.writeBgyH, Ppu_storeBgy_eq]
    exact ⟨hstat, h0, h1, hin, hout, hbld, halpha⟩
  all_goals exact ⟨hstat, h0, h1, hin, hout, hbld, halpha⟩

/-- Writing DISPCNT keeps the enable delays legal: a cleared bit stops its layer at once, a rising one starts the countdown
(41_register_access.md R161). -/
theorem Ppu_writeDispcnt_enableOk {P : Params} {p : Ppu} {i : BgId} (h : p.EnableOk P i) (v : Half) :
    (p.writeDispcnt P v).EnableOk P i := by
  obtain ⟨hact, hcnt⟩ := Ppu_writeDispcnt_get P v p i
  have hbit : (p.writeDispcnt P v).regs.dispcnt = v := by rw [Ppu_writeDispcnt_eq]
  cases hv : bgEnableBit v i
  case false =>
    rw [if_pos hv] at hact hcnt
    exact ⟨by rw [hcnt]; exact Nat.zero_le _, fun hc => absurd hcnt hc, fun ha => by rw [hact] at ha; cases ha⟩
  case true =>
    refine ⟨?_, fun _ => by rw [hbit, hv], fun _ => by rw [hbit, hv]⟩
    rw [hcnt, if_neg (by simp [hv])]
    split
    · exact Nat.le_refl _
    · exact h.bounded

/-- No register but DISPCNT touches DISPCNT or an enable delay. -/
theorem Ppu_writeReg_enable {r : HalfReg} (hr : r ≠ .dispcnt) (P : Params) (v : Half) (p : Ppu) :
    (p.writeReg P r v).regs.dispcnt = p.regs.dispcnt ∧ (p.writeReg P r v).bgCountdown = p.bgCountdown ∧
      (p.writeReg P r v).bgActive = p.bgActive := by
  cases r
  case dispcnt => exact absurd rfl hr
  case greenswap =>
    rw [Ppu.writeReg, Ppu.writeGreenswap]
    split <;> exact ⟨rfl, rfl, rfl⟩
  case bgxL b => rw [Ppu.writeReg, Ppu.writeBgxL, Ppu_storeBgx_eq]; exact ⟨rfl, rfl, rfl⟩
  case bgxH b => rw [Ppu.writeReg, Ppu.writeBgxH, Ppu_storeBgx_eq]; exact ⟨rfl, rfl, rfl⟩
  case bgyL b => rw [Ppu.writeReg, Ppu.writeBgyL, Ppu_storeBgy_eq]; exact ⟨rfl, rfl, rfl⟩
  case bgyH b => rw [Ppu.writeReg, Ppu.writeBgyH, Ppu_storeBgy_eq]; exact ⟨rfl, rfl, rfl⟩
  all_goals exact ⟨rfl, rfl, rfl⟩

/-- A register write keeps the enable delays legal (10_state.md R25). -/
theorem Ppu_writeReg_enableOk {P : Params} {p : Ppu} {i : BgId} (h : p.EnableOk P i) (r : HalfReg) (v : Half) :
    (p.writeReg P r v).EnableOk P i := by
  by_cases hr : r = .dispcnt
  · rw [hr]
    exact Ppu_writeDispcnt_enableOk h v
  · obtain ⟨hd, hc, ha⟩ := Ppu_writeReg_enable hr P v p
    exact Ppu_enableOk_congr h hd hc ha

/-- A register write keeps the invariant: what it may change is the stored registers and the enable delays. -/
theorem Ppu_writeReg_inv {P : Params} {p : Ppu} (h : p.Inv P) (r : HalfReg) (v : Half) : (p.writeReg P r v).Inv P := by
  have hw := Ppu_writeReg_regWritten P r v p
  exact
    { line := by rw [hw.line]; exact h.line
      cycle := by rw [hw.cycle]; exact h.cycle
      stored := Ppu_writeReg_stored h.stored P r v
      vblank := by rw [hw.vblankFlag, hw.line]; exact h.vblank
      enable := fun i => Ppu_writeReg_enableOk (h.enable i) r v
      cell := by rw [hw.latch]; exact h.cell
      strip0 := by rw [hw.strip0]; exact h.strip0
      strip1 := by rw [hw.strip1]; exact h.strip1
      fb := by rw [hw.fb]; exact h.fb
      queue := by rw [hw.queue]; exact h.queue }

/-- So does a run of register writes. -/
theorem Ppu_writes_inv {P : Params} {p : Ppu} (h : p.Inv P) (ws : List (HalfReg × Half)) :
    (ws.foldl (fun q w => q.writeReg P w.1 w.2) p).Inv P := by
  induction ws generalizing p with
  | nil => exact h
  | cons w t ih => exact ih (Ppu_writeReg_inv h w.1 w.2)

/-! ## Commits, strip writes and the parts of a tick -/

/-- The queue is emptied (10_state.md R33). -/
theorem Ppu_beginCycle_inv {P : Params} {p : Ppu} (h : p.Inv P) : p.beginCycle.Inv P :=
  Ppu_inv_within_line h h.cycle h.fb (fun _ he => nomatch he)

/-- Commits set flags and request interrupts, which name no line (60_exceptions.md R300, R301). -/
theorem Ppu_applyCommits_inv {P : Params} {p : Ppu} (h : p.Inv P) (l : List Commit) :
    (l.foldl Ppu.applyCommit p).Inv P := by
  obtain ⟨es, hq, hirq⟩ := Ppu_applyCommits_queue l p
  rw [Ppu_applyCommits_eq, hq]
  refine Ppu_inv_within_line h h.cycle h.fb fun e he => ?_
  rcases List.mem_append.mp he with he | he
  · exact h.queue e he
  · obtain ⟨source, rfl⟩ := hirq e he
    trivial

/-- A strip write keeps both strips canonical: a column above 239 is no operation (60_exceptions.md R306, R320). -/
theorem Ppu_stripWrite_inv {P : Params} {p : Ppu} (h : p.Inv P) (x : Nat) (e : SpriteEntry) :
    (p.stripWrite x e).Inv P := by
  rw [Ppu.stripWrite]
  split
  case isFalse => exact h
  case isTrue hx =>
    have heval : Sparse.wf SpriteEntry.empty 240 0 p.evalStrip = true := by
      rw [Ppu.evalStrip]
      split
      · exact h.strip0
      · exact h.strip1
    have hnew := Sparse.wf_write heval e (Nat.zero_le x) hx
    exact
      { line := h.line
        cycle := h.cycle
        stored := h.stored
        vblank := h.vblank
        enable := fun i => Ppu_enableOk_congr (h.enable i) rfl rfl rfl
        cell := h.cell
        strip0 := by
          rw [Ppu_setEvalStrip_strip0]
          split
          · exact hnew
          · exact h.strip0
        strip1 := by
          rw [Ppu_setEvalStrip_strip1]
          split
          · exact h.strip1
          · exact hnew
        fb := h.fb
        queue := h.queue }

/-- The enable commit counts down, and a layer becomes active only by its enable bit (40_scanline_events.md R131). -/
theorem Ppu_commitBgEnables_enableOk {P : Params} {p : Ppu} {i : BgId} (h : p.EnableOk P i) :
    p.commitBgEnables.EnableOk P i := by
  obtain ⟨hcnt, hact⟩ := Ppu_commitBgEnables_get p i
  have hbit : p.commitBgEnables.regs.dispcnt = p.regs.dispcnt := by rw [Ppu_commitBgEnables_eq]
  refine ⟨?_, fun hc => ?_, fun ha => ?_⟩
  · rw [hcnt]
    exact Nat.le_trans (Nat.sub_le _ _) h.bounded
  · rw [hbit]
    exact h.counting (by omega)
  · rw [hbit]
    rw [hact] at ha
    split at ha
    · exact ha
    · exact h.active ha

/-- TICK_COMMIT keeps the invariant: the enable commit, and the swap, which clears one strip (40_scanline_events.md R132). -/
theorem Ppu_tick_commit_inv {P : Params} {p : Ppu} (h : p.Inv P) :
    Ppu.Inv P { p.commitBgEnables.swapStrips with cycle := 1 } := by
  rw [Ppu_swapStrips_eq]
  exact
    { line := h.line
      cycle := (by decide : 1 < 1232)
      stored := h.stored
      vblank := h.vblank
      enable := fun i => Ppu_enableOk_congr (Ppu_commitBgEnables_enableOk (h.enable i)) rfl rfl rfl
      cell := h.cell
      strip0 := by
        dsimp only
        split
        · exact h.strip0
        · rfl
      strip1 := by
        dsimp only
        split
        · rfl
        · exact h.strip1
      fb := h.fb
      queue := h.queue }

/-- A column of a visible line lies inside the framebuffer (10_state.md R32). -/
theorem fbIndex_lt {x y : Nat} (hx : x < 240) (hy : y < 160) : fbIndex x y < 38400 := by
  rw [fbIndex]
  omega

/-- A BG horizontal cell size is 1..16 (30_encoding.md R103). -/
theorem Regs_mosaicH_range (r : Regs) : 1 ≤ r.mosaicH ∧ r.mosaicH ≤ 16 := by
  have hlt : field r.mosaic 3 0 < 2 ^ (3 - 0 + 1) := (r.mosaic.extractLsb 3 0).isLt
  rw [Regs.mosaicH]
  omega

/-- The latched cell is 1..16 after a line transition (10_state.md R29, 40_scanline_events.md R148). -/
theorem Ppu_lineEnd_cell {p : Ppu} {b : AffId} (h : 1 ≤ (p.latch.get b).mh ∧ (p.latch.get b).mh ≤ 16) :
    1 ≤ (p.lineEnd.latch.get b).mh ∧ (p.lineEnd.latch.get b).mh ≤ 16 := by
  obtain ⟨-, -, hl⟩ := Ppu_lineEnd_latch p b
  rw [hl]
  split
  · dsimp only
    split
    · exact Regs_mosaicH_range p.regs
    · decide
  · exact h

/-- The VBlank edges keep vblankFlag true exactly on lines 160-226 (40_scanline_events.md R146). -/
theorem vblankAfter_next {line : Nat} (h : line < 228) :
    vblankAfter ((line + 1) % 228) (decide (160 ≤ line) && decide (line ≤ 226)) =
      (decide (160 ≤ (line + 1) % 228) && decide ((line + 1) % 228 ≤ 226)) := by
  rw [Bool.eq_iff_iff]
  simp only [vblankAfter, Config.vblankSetLine, Config.vblankClearLine]
  split
  · simp only [Bool.and_eq_true, decide_eq_true_eq, true_iff]
    omega
  · split
    · simp only [Bool.and_eq_true, decide_eq_true_eq, Bool.false_eq_true, false_iff]
      omega
    · simp only [Bool.and_eq_true, decide_eq_true_eq]
      omega

/-- The VBlank edges name no line (60_exceptions.md R300). -/
theorem vblankEvents_ofFrame (irq : Bool) (line : Nat) : ∀ e ∈ vblankEvents irq line, e.OfFrame := by
  intro e he
  rw [vblankEvents] at he
  split at he
  · rcases List.mem_append.mp he with he | he
    · cases irq
      · cases he
      · rw [List.mem_singleton.mp he]
        trivial
    · rw [List.mem_singleton.mp he]
      trivial
  · cases he

/-- TICK_LINE_END keeps the invariant (40_scanline_events.md R145). -/
theorem Ppu_lineEnd_inv {P : Params} {p : Ppu} (h : p.Inv P) : p.lineEnd.Inv P := by
  have hline : (p.line + 1) % 228 < 228 := Nat.mod_lt _ (by decide)
  have hcell := fun b => Ppu_lineEnd_cell (h.cell b)
  rw [Ppu_lineEnd_eq]
  exact
    { line := hline
      cycle := (by decide : 0 < 1232)
      stored := h.stored
      vblank := by
        dsimp only
        rw [h.vblank]
        exact vblankAfter_next h.line
      enable := fun i => Ppu_enableOk_congr (h.enable i) rfl rfl rfl
      cell := hcell
      strip0 := h.strip0
      strip1 := h.strip1
      fb := h.fb
      queue := by
        intro e he
        simp only [List.mem_append, List.mem_singleton] at he
        rcases he with ((he | he) | rfl) | rfl
        · exact h.queue e he
        · exact vblankEvents_ofFrame _ _ e he
        · exact hline
        · exact hline }

/-- The events of TICK_HBLANK are of the current line (40_scanline_events.md R140). -/
theorem Ppu_hblankStart_queue {P : Params} {p : Ppu} (h : p.Inv P) : ∀ e ∈ (p.hblankStart P).q, e.OfFrame := by
  intro e he
  simp only [Ppu_hblankStart_eq, List.mem_append, List.mem_ite_nil_right, List.mem_singleton] at he
  rcases he with ((he | ⟨-, rfl⟩) | ⟨-, rfl⟩) | rfl
  · exact h.queue e he
  · trivial
  · trivial
  · exact h.line

/-- A tick keeps the invariant, class by class (30_encoding.md R110). -/
theorem Ppu_tick_inv {P : Params} {p : Ppu} (h : p.Inv P) (n : Nat) (m : Memory) : (p.tick P n m).Inv P := by
  rcases Ppu_tick_classes P p with hc | ⟨x, hx⟩ | hh | he | ⟨h0, hr, hh, he⟩
  · rw [Ppu_tick_commit hc]
    exact Ppu_tick_commit_inv h
  · obtain ⟨hline, -, hcycle, hcol, -⟩ := Ppu_columnNow_some hx
    rw [Ppu_tick_render hx]
    exact Ppu_inv_within_line h (by omega) (Sparse.wf_write h.fb _ (Nat.zero_le _) (fbIndex_lt hcol hline)) h.queue
  · rw [Ppu_tick_hblank hh]
    exact Ppu_inv_within_line h (by decide) h.fb (Ppu_hblankStart_queue h)
  · rw [Ppu_tick_lineEnd he]
    exact Ppu_lineEnd_inv h
  · rw [Ppu_tick_idle h0 hr hh he]
    have hcycle := h.cycle
    exact Ppu_inv_within_line h (by omega) h.fb h.queue

/-! ## The agents around the block -/

/-- An operation of the block that keeps its invariant keeps the machine's. -/
theorem State_onPpu_inv {P : Params} {s : State} (h : s.Inv P) {f : Ppu → Ppu} (hf : (f s.ppu).Inv P) :
    (s.onPpu f).Inv P :=
  ⟨hf, h.mem, h.pending, h.split⟩

/-- A register read keeps the invariant. -/
theorem State_answerRead_inv {P : Params} {s : State} (h : s.Inv P) (v : OpWord) : (s.answerRead v).Inv P :=
  ⟨h.ppu, h.mem, h.pending, h.split⟩

/-- A hard reset keeps the invariant: nothing is scheduled after it, and memory is not reset (70_reset_and_hazards.md R330,
R331). -/
theorem State_hardReset_inv {P : Params} {s : State} (h : s.Inv P) : s.hardReset.Inv P :=
  ⟨Ppu_reset_inv P, h.mem, fun _ hc => (nomatch hc), fun _ hw => (nomatch hw)⟩

/-- The start of a tick keeps the invariant (40_scanline_events.md R130, 70_reset_and_hazards.md R331). -/
theorem State_beginTick_inv {P : Params} {s : State} (h : s.Inv P) : s.beginTick.Inv P := by
  cases hd : s.resetDue
  · rw [State_beginTick_eq hd]
    exact ⟨Ppu_applyCommits_inv (Ppu_beginCycle_inv h.ppu) _, h.mem, h.pending, h.split⟩
  · rw [State_beginTick_reset hd]
    have hreset := State_hardReset_inv h
    exact ⟨hreset.ppu, hreset.mem, hreset.pending, hreset.split⟩

/-- The block's tick keeps the invariant. -/
theorem State_runTick_inv {P : Params} {s : State} (h : s.Inv P) : (s.runTick P).Inv P :=
  ⟨Ppu_tick_inv h.ppu _ _, h.mem, h.pending, h.split⟩

/-- A scheduled commit that is not due stays legal, one cycle nearer (60_exceptions.md R302). -/
theorem PendingCommit_countDown_ok {c : PendingCommit} (h : c.Ok) (hl : c.countDown.left ≠ 0) : c.countDown.Ok := by
  obtain ⟨hline, -, hle⟩ := h
  exact ⟨hline, Nat.pos_of_ne_zero hl, Nat.le_trans (Nat.sub_le _ _) hle⟩

/-- Delivering the commits that fall due keeps the invariant. -/
theorem State_deliverDue_inv {P : Params} {s : State} (h : s.Inv P) : (s.deliverDue P).Inv P := by
  refine ⟨Ppu_applyCommits_inv h.ppu _, h.mem, fun c hc => ?_, h.split⟩
  obtain ⟨hmem, hleft⟩ := List.mem_filter.mp (show c ∈ (s.pending.map PendingCommit.countDown).filter _ from hc)
  obtain ⟨d, hd, rfl⟩ := List.mem_map.mp hmem
  exact PendingCommit_countDown_ok (h.pending d hd) (of_decide_eq_true hleft)

/-- A halfword stored inside its region keeps memory canonical. -/
theorem State_storeHalf_inv {P : Params} {s : State} (h : s.Inv P) {w : HalfWrite} (hw : w.InRegion) :
    (s.storeHalf w).Inv P :=
  ⟨h.ppu, Memory.wf_writeHalf _ h.mem _ hw, h.pending, h.split⟩

/-- The landing of a split half keeps the invariant (20_memory.md R77). -/
theorem State_landSplitWrite_inv {P : Params} {s : State} (h : s.Inv P) : (s.landSplitWrite P).Inv P := by
  rw [State.landSplitWrite]
  split
  · exact h
  · rename_i w rest hs
    split
    · exact h
    · have hall : ∀ u ∈ w :: rest, u.InRegion := hs ▸ h.split
      have hrest : State.Inv P { s with splitWrites := rest } :=
        ⟨h.ppu, h.mem, h.pending, fun u hu => hall u (List.mem_cons_of_mem w hu)⟩
      exact State_storeHalf_inv hrest (hall w List.mem_cons_self)

/-- The delays of the machine's two commits are those of a scheduled commit (92_eei_decisions.md D21, D22). -/
theorem commitDelays_range :
    (1 ≤ Config.params.hblankFlagDelay ∧ Config.params.hblankFlagDelay ≤ 1232) ∧
      (1 ≤ Config.params.lycDelay ∧ Config.params.lycDelay ≤ 1232) := by
  simp only [Config.params, Config.hblankFlagDelay, Config.lycDelay]
  omega

/-- What an event of a line of the frame schedules is legal. -/
theorem PendingCommit_ofEvent_ok {e : PpuEvent} {c : PendingCommit} (he : e.OfFrame)
    (hc : PendingCommit.ofEvent Config.params e = some c) : c.Ok := by
  cases e
  case scheduleHBlankCommit line => cases hc; exact ⟨he, commitDelays_range.1⟩
  case scheduleLycCompare line => cases hc; exact ⟨he, commitDelays_range.2⟩
  all_goals cases hc

/-- Taking the commits that the cycle's events schedule keeps the invariant. -/
theorem State_takeSchedules_inv {s : State} (h : s.Inv Config.params) :
    (s.takeSchedules Config.params).Inv Config.params := by
  refine ⟨h.ppu, h.mem, fun c hc => ?_, h.split⟩
  rcases List.mem_append.mp hc with hc | hc
  · exact h.pending c hc
  · obtain ⟨e, he, hec⟩ := List.mem_filterMap.mp hc
    exact PendingCommit_ofEvent_ok (h.ppu.queue e he) hec

/-- A cycle of the scheduler keeps the invariant, part by part (20_memory.md R75). -/
theorem State_schedulerCycle_inv {s : State} (h : s.Inv Config.params) :
    (s.schedulerCycle Config.params).Inv Config.params :=
  State_takeSchedules_inv (State_runTick_inv (State_landSplitWrite_inv (State_deliverDue_inv (State_beginTick_inv h))))

/-! ## Operations, inputs and steps -/

/-- Every operation keeps the invariant. -/
theorem exec_inv {i : Instr} {s t : State} (h : s.Inv Config.params) (ht : exec i s = .next t) :
    t.Inv Config.params := by
  rcases exec_cases i s with ⟨ws, hi⟩ | ⟨v, hi⟩ | rfl | ⟨l, rfl⟩ | ⟨l, rfl⟩ | ⟨x, e, rfl⟩ | rfl
  · cases hi.symm.trans ht
    exact State_onPpu_inv h (Ppu_writes_inv h.ppu ws)
  · cases hi.symm.trans ht
    exact State_answerRead_inv h v
  · cases ht
    exact State_runTick_inv (State_beginTick_inv h)
  · cases ht
    exact ⟨h.ppu, h.mem, h.pending, h.split⟩
  · cases ht
    exact ⟨h.ppu, h.mem, h.pending, h.split⟩
  · cases ht
    exact State_onPpu_inv h (Ppu_stripWrite_inv h.ppu _ e)
  · cases ht
    exact State_hardReset_inv h

/-- A word that selects nothing answers a read at most, and keeps the invariant (30_encoding.md R112). -/
theorem selectsNothing_inv {P : Params} {s : State} (h : s.Inv P) (w : OpWord) : (selectsNothing w s).Inv P := by
  rw [selectsNothing]
  split
  · split <;> exact State_answerRead_inv h _
  · exact h

/-- An operation word keeps the invariant, whatever it selects. -/
theorem performOp_inv {w o : OpWord} {s t : State} (h : s.Inv Config.params) (ht : performOp w o s = .next t) :
    t.Inv Config.params := by
  rw [performOp] at ht
  split at ht
  · exact exec_inv h ht
  · cases ht
    exact selectsNothing_inv h w

/-- Both halves of a word inside its region lie inside it (70_reset_and_hazards.md R343). -/
theorem wordHalves_inRegion {space : Space} {offset : Nat} (hin : offset + 4 ≤ space.size) (v : OpWord) :
    ∀ w ∈ wordHalves space offset v, w.InRegion := by
  intro w hw
  simp only [wordHalves, List.mem_cons, List.not_mem_nil, or_false] at hw
  rcases hw with rfl | rfl
  · exact Nat.le_trans (Nat.add_le_add_left (by decide) offset) hin
  · exact hin

/-- Halves inside the region that wait behind those waiting keep the invariant. -/
theorem State_splitWrites_append_inv {P : Params} {s : State} (h : s.Inv P) {ws : List HalfWrite}
    (hws : ∀ w ∈ ws, w.InRegion) : State.Inv P { s with splitWrites := s.splitWrites ++ ws } :=
  ⟨h.ppu, h.mem, h.pending, fun w hw => (List.mem_append.mp hw).elim (h.split w) (hws w)⟩

/-- A 32-bit memory write that completes keeps the invariant (20_memory.md R77). -/
theorem State_writeWordInput_inv {P : Params} {s t : State} (h : s.Inv P) {space : Space} {offset : Nat} {v : OpWord}
    (ht : s.writeWordInput space offset v = .next t) : t.Inv P := by
  obtain ⟨hin, -, rfl⟩ := (guardWrite_next ..).mp ht
  have hhalves := wordHalves_inRegion hin v
  cases space
  case vram => exact State_splitWrites_append_inv h hhalves
  case pal => exact State_splitWrites_append_inv h hhalves
  case oam =>
    have hlow := State_storeHalf_inv h (hhalves _ List.mem_cons_self)
    exact State_storeHalf_inv hlow (hhalves _ (List.mem_cons_of_mem _ List.mem_cons_self))

/-- A 16-bit memory write that completes keeps the invariant (30_encoding.md R111). -/
theorem State_writeHalfInput_inv {P : Params} {s t : State} (h : s.Inv P) {space : Space} {offset : Nat} {v : Half}
    (ht : s.writeHalfInput space offset v = .next t) : t.Inv P := by
  obtain ⟨hin, -, rfl⟩ := (guardWrite_next ..).mp ht
  exact State_storeHalf_inv h hin

/-- Every input that completes keeps the invariant. -/
theorem performInput_inv {i : Input} {s t : State} (h : s.Inv Config.params) (ht : performInput i s = .next t) :
    t.Inv Config.params := by
  cases i
  case op w o => exact performOp_inv h ht
  case cycle =>
    cases ht
    exact State_schedulerCycle_inv h
  case writeHalf space offset v => exact State_writeHalfInput_inv h ht
  case writeWord space offset v => exact State_writeWordInput_inv h ht
  case requestReset =>
    cases ht
    exact ⟨h.ppu, h.mem, h.pending, h.split⟩

/-- Settles O42: a step is a cycle of the scheduler or the first input of the inbox, and each of them keeps the invariant. -/
theorem stepKeepsTheInvariant : Obligations.StepKeepsTheInvariant := by
  intro s t h ht
  rw [step, performNext] at ht
  split at ht
  · cases ht
    exact State_schedulerCycle_inv h
  · rename_i i rest _
    have hrest : State.Inv Config.params { s with inbox := rest } := ⟨h.ppu, h.mem, h.pending, h.split⟩
    exact performInput_inv hrest ht

end Sys2Proof.Machine
end

