-- ==== Sys2Proof/Proofs/Memory.lean ====
section
/-! PROOFS. Who writes what (20_memory.md sections 1 and 4). Of the block's operations none writes VRAM, palette RAM or OAM,
and none but a hard reset and the tick that composites a column writes the framebuffer. The memory system's halfword write
changes its two bytes of memory and leaves the block alone. -/

namespace Sys2Proof.Machine

/-! ## The three regions -/

/-- No operation changes the memory (20_memory.md R60). -/
theorem exec_mem {i : Instr} {s t : State} (ht : exec i s = .next t) : t.mem = s.mem := by
  rcases exec_cases i s with ⟨ws, hi⟩ | ⟨v, hi⟩ | rfl | ⟨l, rfl⟩ | ⟨l, rfl⟩ | ⟨x, e, rfl⟩ | rfl
  · cases hi.symm.trans ht
    rfl
  · cases hi.symm.trans ht
    rfl
  · cases ht
    exact (State_beginTick_around s).1
  all_goals
    cases ht
    rfl

/-- Settles O39: an operation keeps the memory, so every byte of it. -/
theorem noOperationWritesMemory : Obligations.NoOperationWritesMemory := by
  intro i s t ht space a
  rw [exec_mem ht]

/-- A memory write that leaves its region faults, aligned or not (notes/assumptions/15.md). -/
theorem guardWrite_outside {space : Space} {offset n : Nat} (h : space.size < offset + n) (t : State) :
    guardWrite space offset n t = .fault .memoryOutsideRegion :=
  if_pos h

/-- The step that takes a halfword write from the inbox (30_encoding.md R111). -/
theorem step_writeHalf {s : State} {space : Space} {a : Nat} {v : Half} {rest : List Input}
    (h : s.inbox = .writeHalf space a v :: rest) :
    step s = guardWrite space a 2 (({ s with inbox := rest } : State).storeHalf ⟨space, a, v⟩) := by
  rw [step, performNext, h]
  rfl

/-- Settles O60: inside its region the step stores the halfword, and the laws of the stored halfword say what reads back;
outside it the guard faults. -/
theorem memoryWriteIsReadBack : Obligations.MemoryWriteIsReadBack := by
  intro s space a v rest hinbox
  rw [step_writeHalf hinbox]
  refine ⟨fun heven hin hwf => ?_, fun hout => guardWrite_outside hout _⟩
  have hlow : a < space.size := by omega
  exact ⟨_, (guardWrite_next ..).mpr ⟨hin, heven, rfl⟩, Memory.readHalf_writeHalf_self s.mem hwf v hlow,
    fun _ _ hne => Memory.readByte_writeHalf_ne s.mem v hne, rfl⟩

/-! ## The framebuffer -/

/-- Two entries whose columns lie inside the line have one index only if they are one entry (10_state.md R32). -/
theorem fbIndex_inj {x y x' y' : Nat} (hx : x < 240) (hx' : x' < 240) (h : fbIndex x' y' = fbIndex x y) :
    x' = x ∧ y' = y := by
  simp only [fbIndex] at h
  omega

/-- Compositing a column changes that column's entry alone (44_compositing_blending.md R280). -/
theorem Ppu_renderPixel_fbAt_changed {P : Params} {n : Nat} {m : Memory} {p : Ppu} {x y x' y' : Nat} (hx : x < 240)
    (hx' : x' < 240) (h : (p.renderPixel P n m x y).fbAt x' y' ≠ p.fbAt x' y') : x' = x ∧ y' = y :=
  fbIndex_inj hx hx' (Decidable.byContradiction fun hne => h (Sparse.read_write_ne _ hne))

/-- A tick that composites no column leaves the framebuffer alone (40_scanline_events.md R135). -/
theorem Ppu_tick_fb {P : Params} {p : Ppu} (h : p.columnNow P = none) (n : Nat) (m : Memory) :
    (p.tick P n m).fb = p.fb := by
  rcases Ppu_tick_classes P p with hc | ⟨x, hx⟩ | hh | he | ⟨h0, hr, hh, he⟩
  · rw [Ppu_tick_commit hc, Ppu_swapStrips_eq, Ppu_commitBgEnables_eq]
  · cases h.symm.trans hx
  · rw [Ppu_tick_hblank hh]
  · rw [Ppu_tick_lineEnd he, Ppu_lineEnd_eq]
  · rw [Ppu_tick_idle h0 hr hh he]

/-- An entry that a tick changes is that of the column it composites, on the current line (20_memory.md R82). -/
theorem Ppu_tick_fbAt_changed {P : Params} {n : Nat} {m : Memory} {p : Ppu} {x y : Nat} (hx : x < 240)
    (h : (p.tick P n m).fbAt x y ≠ p.fbAt x y) : p.columnNow P = some x ∧ y = p.line := by
  cases hc : p.columnNow P with
  | none => exact absurd (by rw [Ppu.fbAt, Ppu_tick_fb hc, Ppu.fbAt]) h
  | some x' =>
    obtain ⟨-, -, -, hx', -⟩ := Ppu_columnNow_some hc
    rw [Ppu_tick_render hc] at h
    obtain ⟨rfl, rfl⟩ := Ppu_renderPixel_fbAt_changed hx' hx h
    exact ⟨rfl, rfl⟩

/-- No operation but a tick and a hard reset changes the framebuffer (20_memory.md R82). -/
theorem exec_fb {i : Instr} {s t : State} (htick : i ≠ .tick) (hreset : i ≠ .hardReset) (ht : exec i s = .next t) :
    t.ppu.fb = s.ppu.fb := by
  rcases exec_cases i s with ⟨ws, hi⟩ | ⟨v, hi⟩ | rfl | ⟨l, rfl⟩ | ⟨l, rfl⟩ | ⟨x, e, rfl⟩ | rfl
  · cases hi.symm.trans ht
    exact (Ppu_writes_regWritten Config.params ws s.ppu).fb
  · cases hi.symm.trans ht
    rfl
  · exact absurd rfl htick
  · cases ht
    rfl
  · cases ht
    rfl
  · cases ht
    rw [State_onPpu_ppu, Ppu.stripWrite]
    split <;> rfl
  · exact absurd rfl hreset

/-- Settles O40: the operation is a tick, since no other one changes the framebuffer; its start, no reset being due, keeps the
position and the framebuffer, and its own work changes the entry of the composited column alone. -/
theorem framebufferChangesOnlyWhereRendered : Obligations.FramebufferChangesOnlyWhereRendered := by
  intro i s t x y hx _ hreset hdue ht hchanged
  by_cases htick : i = .tick
  · subst htick
    obtain ⟨hb, vc, q, hexec⟩ := exec_tick_ppu (hdue rfl)
    cases hexec.symm.trans ht
    obtain ⟨hcol, hline⟩ := Ppu_tick_fbAt_changed hx hchanged
    obtain ⟨hvisible, -, -, -, hcycle⟩ := Ppu_columnNow_some hcol
    exact ⟨rfl, hline, hvisible, hcycle⟩
  · exact absurd (by rw [Ppu.fbAt, exec_fb htick hreset ht, Ppu.fbAt]) hchanged

end Sys2Proof.Machine
end

