-- ==== Sys2Proof/Proofs/Encoding.lean ====
section
/-! PROOFS. The decoder and the encoder (30_encoding.md section 3). The word's kind chooses one of four decoders; each of them
gives back an encoded operation, selects only operations whose word it was given, and refuses the selectors that R108 lists.
From there: what a word that selects nothing does (R112), and which operation a step runs (R111). -/

namespace Sys2Proof

/-! ## The kinds of operation word (30_encoding.md R108) -/

theorem owKind_cases (w : OpWord) : owKind w = 0 ∨ owKind w = 1 ∨ owKind w = 2 ∨ owKind w = 3 := by
  have h : owKind w < 4 := BitVec.isLt _
  omega

theorem decode_middleBits {w : OpWord} (hm : owMiddle w ≠ 0) (o : OpWord) : decode w o = .error .middleBits :=
  if_neg hm

section Kinds
variable {w : OpWord} (hm : owMiddle w = 0)
include hm

theorem decode_write (hk : owKind w = 0) (o : OpWord) : decode w o = decodeWrite (owCode w) (owLow w) o := by
  simp only [decode, hm, hk, if_true]

theorem decode_read (hk : owKind w = 1) (o : OpWord) : decode w o = decodeRead (owCode w) (owLow w) := by
  simp only [decode, hm, hk, if_true]

theorem decode_control (hk : owKind w = 2) (o : OpWord) : decode w o = decodeControl (owCode w) (owLow w) o := by
  simp only [decode, hm, hk, if_true]

theorem decode_reset (hk : owKind w = 3) (o : OpWord) :
    decode w o = if owCode w = 0 ∧ (owLow w).toNat = 0 then .ok .hardReset else .error .unusedKind := by
  simp only [decode, hm, hk, if_true]

end Kinds

theorem decode_regWriteWord (c : BitVec 2) (l : BitVec 10) (o : OpWord) :
    decode (regWriteWord c l) o = decodeWrite c.toNat l o := by
  rw [regWriteWord, decode_write (owMiddle_opWord ..) (owKind_opWord ..), owCode_opWord, owLow_opWord]

theorem decode_regReadWord (c : BitVec 2) (l : BitVec 10) (o : OpWord) :
    decode (regReadWord c l) o = decodeRead c.toNat l := by
  rw [regReadWord, decode_read (owMiddle_opWord ..) (owKind_opWord ..), owCode_opWord, owLow_opWord]

theorem decode_controlWord (c : BitVec 2) (l : BitVec 10) (o : OpWord) :
    decode (opWord 2 c l) o = decodeControl c.toNat l o := by
  rw [decode_control (owMiddle_opWord ..) (owKind_opWord ..), owCode_opWord, owLow_opWord]

theorem decode_hardResetWord (o : OpWord) : decode (opWord 3 0 0) o = .ok .hardReset := by
  rw [decode_reset (owMiddle_opWord ..) (owKind_opWord ..), owCode_opWord, owLow_opWord]
  rfl

/-! ## The operand word (notes/assumptions/1.md) -/

theorem byte_of_operand (v : Byte) : (v.setWidth 32).setWidth 8 = v := BitVec.setWidth_setWidth_of_le v (by decide)

theorem half_of_operand (v : Half) : (v.setWidth 32).setWidth 16 = v := BitVec.setWidth_setWidth_of_le v (by decide)

/-- The bits of the operand word that carries a sprite entry. -/
theorem getLsbD_operandOfEntry (e : SpriteEntry) (k : Nat) :
    (operandOfEntry e).getLsbD k =
      if k < 1 then e.isOpaque else if k < 9 then e.palIdx.getLsbD (k - 1) else if k < 11 then e.prio.getLsbD (k - 9)
      else if k < 12 then e.semi else if k < 13 then e.objWin else false := by
  simp only [operandOfEntry, BitVec.getLsbD_setWidth, BitVec.getLsbD_append, BitVec.getLsbD_ofBool]
  grind

theorem entryOfOperand_operandOfEntry (e : SpriteEntry) : entryOfOperand (operandOfEntry e) = e := by
  have hpal : (operandOfEntry e).extractLsb' 1 8 = e.palIdx := by
    apply BitVec.eq_of_getLsbD_eq
    intro k hk
    have h : 1 + k < 9 := by omega
    simp [getLsbD_operandOfEntry, h, hk]
  have hprio : (operandOfEntry e).extractLsb' 9 2 = e.prio := by
    apply BitVec.eq_of_getLsbD_eq
    intro k hk
    have h : 9 + k < 11 := by omega
    simp [getLsbD_operandOfEntry, h, hk]
  simp only [entryOfOperand, hpal, hprio, getLsbD_operandOfEntry]
  rfl

/-! ## The decoders of the kinds, width code by width code (30_encoding.md R108, R109) -/

/-- A check that guards an operation has passed where it is selected. -/
theorem guarded_ok {p : Prop} [Decidable p] {r : Reject} {i j : Instr}
    (h : (if p then .ok i else .error r : Except Reject Instr) = .ok j) : p ∧ i = j := by
  split at h
  case isTrue hp => exact ⟨hp, Except.ok.inj h⟩
  case isFalse => cases h

theorem decodeWrite_outside {l : BitVec 10} (hout : ¬offsetInBlock l = true) (c : Nat) (o : OpWord) :
    decodeWrite c l o = .error .offsetRange :=
  if_neg hout

theorem decodeRead_outside {l : BitVec 10} (hout : ¬offsetInBlock l = true) (c : Nat) :
    decodeRead c l = .error .offsetRange :=
  if_neg hout

section InBlock
variable {l : BitVec 10} (hin : offsetInBlock l = true)
include hin

theorem decodeWrite_byte (o : OpWord) : decodeWrite 0 l o = .ok (.w8 l (o.setWidth 8)) := if_pos hin

/-- Width code 01 selects the register's write, and at an odd offset W16_ODD (30_encoding.md R109). -/
theorem decodeWrite_half (o : OpWord) :
    decodeWrite 1 l o = .ok ((halfWriteAt l.toNat (o.setWidth 16)).getD (.w16Odd l (o.setWidth 16))) := by
  simp only [decodeWrite, hin, if_true]
  cases halfWriteAt l.toNat (o.setWidth 16) <;> rfl

theorem decodeWrite_word (o : OpWord) :
    decodeWrite 2 l o = if offsetWordAligned l then .ok (.w32 l o) else .error .misalignedWord :=
  if_pos hin

theorem decodeWrite_noWidth (n : Nat) (o : OpWord) : decodeWrite (n + 3) l o = .error .widthCode := if_pos hin

theorem decodeRead_byte : decodeRead 0 l = .ok (.r8 l) := if_pos hin

theorem decodeRead_half : decodeRead 1 l = .ok (.r16 l) := if_pos hin

theorem decodeRead_word :
    decodeRead 2 l = if offsetWordAligned l then .ok (.r32 l) else .error .misalignedWord :=
  if_pos hin

theorem decodeRead_noWidth (n : Nat) : decodeRead (n + 3) l = .error .widthCode := if_pos hin

end InBlock

/-! ## Halfword writes -/

/-- The map of halfword writes ends at 0x058 (30_encoding.md R90). -/
theorem halfWriteAt_inBlock {l : BitVec 10} {v : Half} {i : Instr} (h : halfWriteAt l.toNat v = some i) :
    offsetInBlock l = true := by
  rw [offsetInBlock, decide_eq_true_eq]
  unfold halfWriteAt at h
  split at h <;> first | omega | contradiction

theorem encode_halfWriteAt {l : BitVec 10} {v : Half} {i : Instr} (h : halfWriteAt l.toNat v = some i) :
    encode i = (regWriteWord 1 l, v.setWidth 32) := by
  have hl : BitVec.ofNat 10 l.toNat = l := BitVec.eq_of_toNat_eq (Nat.mod_eq_of_lt l.isLt)
  rw [← hl]
  generalize l.toNat = o at h
  unfold halfWriteAt at h
  split at h <;> cases h <;> rfl

/-- Which operation width code 01 selects depends on the offset alone, not on the value. -/
theorem halfWriteAt_ctorIdx (l : BitVec 10) (v v' : Half) :
    ((halfWriteAt l.toNat v).getD (.w16Odd l v)).ctorIdx = ((halfWriteAt l.toNat v').getD (.w16Odd l v')).ctorIdx := by
  unfold halfWriteAt
  split <;> rfl

/-! ## Decoding an encoded operation -/

/-- The words of a register's halfword write decode to it. -/
theorem decode_halfWriteAt {l : BitVec 10} {v : Half} {i : Instr} (h : halfWriteAt l.toNat v = some i) :
    decode (regWriteWord 1 l) (v.setWidth 32) = .ok i := by
  rw [decode_regWriteWord]
  refine (decodeWrite_half (halfWriteAt_inBlock h) _).trans ?_
  rw [half_of_operand, h]
  rfl

/-- Settles O1: the words of each family go to the family's decoder, which reads the fields and the operand back; the
halfword writes of the 44 registers are one family, the map's. -/
theorem decodeOfEncodeIsTheOperation : Obligations.DecodeOfEncodeIsTheOperation := by
  intro i hwf
  cases i
  case w16Odd l v =>
    simp only [Instr.wellFormed, Bool.and_eq_true, decide_eq_true_eq] at hwf
    obtain ⟨hin, hodd⟩ := hwf
    rw [encode, decode_regWriteWord]
    refine (decodeWrite_half hin _).trans ?_
    rw [halfWriteAt_odd _ _ hodd, half_of_operand]
    rfl
  case w8 l v =>
    have hin : offsetInBlock l = true := hwf
    rw [encode, decode_regWriteWord]
    exact (decodeWrite_byte hin _).trans (congrArg (fun b => Except.ok (Instr.w8 l b)) (byte_of_operand v))
  case w32 l v =>
    obtain ⟨hin, hal⟩ := Bool.and_eq_true_iff.mp hwf
    rw [encode, decode_regWriteWord]
    exact (decodeWrite_word hin v).trans (if_pos hal)
  case r8 l => exact (decode_regReadWord 0 l 0).trans (decodeRead_byte hwf)
  case r16 l => exact (decode_regReadWord 1 l 0).trans (decodeRead_half hwf)
  case r32 l =>
    obtain ⟨hin, hal⟩ := Bool.and_eq_true_iff.mp hwf
    rw [encode, decode_regReadWord]
    exact (decodeRead_word hin).trans (if_pos hal)
  case tick => exact decode_controlWord 0 0 0
  case hblankCommit line =>
    rw [encode, decode_controlWord]
    exact congrArg (fun b => Except.ok (Instr.hblankCommit b)) (byte_of_operand line)
  case lycCommit line =>
    rw [encode, decode_controlWord]
    exact congrArg (fun b => Except.ok (Instr.lycCommit b)) (byte_of_operand line)
  case stripWrite x e =>
    have hx : x.toNat < 240 := of_decide_eq_true hwf
    rw [encode, decode_controlWord]
    exact (if_pos hx).trans (congrArg (fun b => Except.ok (Instr.stripWrite x b)) (entryOfOperand_operandOfEntry e))
  case hardReset => exact decode_hardResetWord 0
  all_goals exact decode_halfWriteAt rfl

/-! ## Encoding a decoded operation -/

theorem encode_decodeWrite {c : Nat} {l : BitVec 10} {o : OpWord} {i : Instr} (h : decodeWrite c l o = .ok i) :
    (encode i).1 = regWriteWord (BitVec.ofNat 2 c) l := by
  by_cases hin : offsetInBlock l = true
  case neg => cases (decodeWrite_outside hin c o).symm.trans h
  match c with
  | 0 =>
    cases (decodeWrite_byte hin o).symm.trans h
    rfl
  | 1 =>
    cases (decodeWrite_half hin o).symm.trans h
    cases hv : halfWriteAt l.toNat (o.setWidth 16) with
    | none => rfl
    | some j => exact congrArg Prod.fst (encode_halfWriteAt hv)
  | 2 =>
    obtain ⟨-, rfl⟩ := guarded_ok ((decodeWrite_word hin o).symm.trans h)
    rfl
  | n + 3 => cases (decodeWrite_noWidth hin n o).symm.trans h

theorem encode_decodeRead {c : Nat} {l : BitVec 10} {i : Instr} (h : decodeRead c l = .ok i) :
    (encode i).1 = regReadWord (BitVec.ofNat 2 c) l := by
  by_cases hin : offsetInBlock l = true
  case neg => cases (decodeRead_outside hin c).symm.trans h
  match c with
  | 0 =>
    cases (decodeRead_byte hin).symm.trans h
    rfl
  | 1 =>
    cases (decodeRead_half hin).symm.trans h
    rfl
  | 2 =>
    obtain ⟨-, rfl⟩ := guarded_ok ((decodeRead_word hin).symm.trans h)
    rfl
  | n + 3 => cases (decodeRead_noWidth hin n).symm.trans h

theorem encode_decodeControl {c : Nat} {l : BitVec 10} {o : OpWord} {i : Instr} (hc : c < 4)
    (h : decodeControl c l o = .ok i) : (encode i).1 = opWord 2 (BitVec.ofNat 2 c) l := by
  have hcode : c = 3 ∨ c = 0 ∨ c = 1 ∨ c = 2 := by omega
  rcases hcode with rfl | hcode
  · obtain ⟨-, rfl⟩ := guarded_ok h
    rfl
  rcases hcode with rfl | rfl | rfl
  all_goals
    obtain ⟨hl, rfl⟩ := guarded_ok h
    have hzero : l = 0 := BitVec.eq_of_toNat_eq hl
    rw [hzero]
    rfl

/-- What a word decodes to has that word as its operation word (30_encoding.md R108). -/
theorem encode_decode {w o : OpWord} {i : Instr} (h : decode w o = .ok i) : (encode i).1 = w := by
  by_cases hm : owMiddle w = 0
  case neg => cases (decode_middleBits hm o).symm.trans h
  rw [eq_opWord w hm]
  rcases owKind_cases w with hk | hk | hk | hk
  · rw [decode_write hm hk] at h
    rw [encode_decodeWrite h, hk]
    rfl
  · rw [decode_read hm hk] at h
    rw [encode_decodeRead h, hk]
    rfl
  · rw [decode_control hm hk] at h
    rw [encode_decodeControl (BitVec.isLt _) h, hk]
    rfl
  · rw [decode_reset hm hk] at h
    obtain ⟨⟨hc, hl⟩, rfl⟩ := guarded_ok h
    have hlow : owLow w = 0 := BitVec.eq_of_toNat_eq hl
    rw [hk, hc, hlow]
    rfl

/-! ## One word, one constructor: the operand word chooses values, the operation word chooses the operation -/

theorem decodeWrite_ctorIdx (c : Nat) (l : BitVec 10) (o o' : OpWord) :
    (decodeWrite c l o).map Instr.ctorIdx = (decodeWrite c l o').map Instr.ctorIdx := by
  by_cases hin : offsetInBlock l = true
  case neg => rw [decodeWrite_outside hin, decodeWrite_outside hin]
  match c with
  | 0 => rw [decodeWrite_byte hin, decodeWrite_byte hin]; rfl
  | 1 =>
    rw [decodeWrite_half hin, decodeWrite_half hin]
    exact congrArg Except.ok (halfWriteAt_ctorIdx ..)
  | 2 =>
    rw [decodeWrite_word hin, decodeWrite_word hin]
    split <;> rfl
  | n + 3 => rw [decodeWrite_noWidth hin, decodeWrite_noWidth hin]

theorem decodeControl_ctorIdx (c : Nat) (l : BitVec 10) (o o' : OpWord) :
    (decodeControl c l o).map Instr.ctorIdx = (decodeControl c l o').map Instr.ctorIdx := by
  unfold decodeControl
  split <;> split <;> rfl

theorem decode_ctorIdx (w o o' : OpWord) : (decode w o).map Instr.ctorIdx = (decode w o').map Instr.ctorIdx := by
  by_cases hm : owMiddle w = 0
  case neg => rw [decode_middleBits hm, decode_middleBits hm]
  rcases owKind_cases w with hk | hk | hk | hk
  · rw [decode_write hm hk, decode_write hm hk, decodeWrite_ctorIdx]
  · rw [decode_read hm hk, decode_read hm hk]
  · rw [decode_control hm hk, decode_control hm hk, decodeControl_ctorIdx]
  · rw [decode_reset hm hk, decode_reset hm hk]

/-- Settles O2: each kind's decoder selects operations of its own words alone, and which one it selects does not depend on the
operand word. -/
theorem decodedWordIsTheEncodedWord : Obligations.DecodedWordIsTheEncodedWord := by
  refine ⟨fun w o i => encode_decode, fun w o o' i j hi hj => ?_⟩
  have h := decode_ctorIdx w o o'
  rw [hi, hj] at h
  exact Except.ok.inj h

/-! ## Words that select nothing -/

/-- A register write with width code 11 selects nothing, and so does one outside the block. -/
theorem decodeWrite_selectsNothing {c : Nat} {l : BitVec 10} (h : c = 3 ∨ 0x058 ≤ l.toNat) (o : OpWord) :
    ∃ reason, decodeWrite c l o = .error reason := by
  by_cases hin : offsetInBlock l = true
  case neg => exact ⟨_, decodeWrite_outside hin c o⟩
  have hlt : l.toNat < 0x058 := of_decide_eq_true hin
  obtain rfl := h.resolve_right (Nat.not_le_of_lt hlt)
  exact ⟨_, decodeWrite_noWidth hin 0 o⟩

/-- A register read with width code 11 selects nothing, and so does one outside the block. -/
theorem decodeRead_selectsNothing {c : Nat} {l : BitVec 10} (h : c = 3 ∨ 0x058 ≤ l.toNat) :
    ∃ reason, decodeRead c l = .error reason := by
  by_cases hin : offsetInBlock l = true
  case neg => exact ⟨_, decodeRead_outside hin c⟩
  have hlt : l.toNat < 0x058 := of_decide_eq_true hin
  obtain rfl := h.resolve_right (Nat.not_le_of_lt hlt)
  exact ⟨_, decodeRead_noWidth hin 0⟩

/-- A register access with width code 11 selects nothing, and so does one outside the block. -/
theorem decode_registerAccess_selectsNothing {w : OpWord} (hk : owKind w = 0 ∨ owKind w = 1)
    (h : owCode w = 3 ∨ 0x058 ≤ (owLow w).toNat) (o : OpWord) : ∃ reason, decode w o = .error reason := by
  by_cases hm : owMiddle w = 0
  case neg => exact ⟨_, decode_middleBits hm o⟩
  rcases hk with hk | hk
  · rw [decode_write hm hk]
    exact decodeWrite_selectsNothing h o
  · rw [decode_read hm hk]
    exact decodeRead_selectsNothing h

/-- A strip write beyond the last column selects nothing. -/
theorem decode_stripColumn_selectsNothing {w : OpWord} (hk : owKind w = 2) (hc : owCode w = 3)
    (hx : 240 ≤ (owLow w).toNat) (o : OpWord) : ∃ reason, decode w o = .error reason := by
  by_cases hm : owMiddle w = 0
  case neg => exact ⟨_, decode_middleBits hm o⟩
  rw [decode_control hm hk, hc]
  exact ⟨_, if_neg (Nat.not_lt_of_le hx)⟩

/-- Settles O3: middle bits are refused first, and the decoder of the word's kind refuses each of the other selectors. -/
theorem illegalSelectorsSelectNothing : Obligations.IllegalSelectorsSelectNothing := by
  intro w o h
  have hkind : (w.extractLsb' 30 2 = 0 ∨ w.extractLsb' 30 2 = 1) → owKind w = 0 ∨ owKind w = 1 :=
    Or.imp (congrArg BitVec.toNat) (congrArg BitVec.toNat)
  rcases h with hm | ⟨hk, hc⟩ | ⟨hk, hl⟩ | ⟨hk, hc, hx⟩
  · exact ⟨_, decode_middleBits (fun h0 => hm (BitVec.eq_of_toNat_eq h0)) o⟩
  · exact decode_registerAccess_selectsNothing (hkind hk) (Or.inl (congrArg BitVec.toNat hc)) o
  · exact decode_registerAccess_selectsNothing (hkind hk) (Or.inr hl) o
  · exact decode_stripColumn_selectsNothing (congrArg BitVec.toNat hk) (congrArg BitVec.toNat hc) hx o

/-! ## Words written out -/

/-- Settles O6: the decoder runs on each of the twelve words. -/
theorem writtenOutWordsDecode : Obligations.WrittenOutWordsDecode :=
  ⟨rfl, rfl, rfl, rfl, rfl, rfl, rfl, rfl, rfl, rfl, rfl, rfl⟩

end Sys2Proof

namespace Sys2Proof.Machine

/-! ## Performing a word -/

theorem performOp_ok {w o : OpWord} {i : Instr} (h : decode w o = .ok i) (s : State) : performOp w o s = exec i s := by
  rw [performOp, h]

theorem performOp_error {w o : OpWord} {reason : Reject} (h : decode w o = .error reason) (s : State) :
    performOp w o s = .next (selectsNothing w s) := by
  rw [performOp, h]

/-- Settles O4: the width code of a read is 00, 01, or one that gets the whole word. -/
theorem selectingNothingHasNoEffect : Obligations.SelectingNothingHasNoEffect := by
  intro w o s reason h
  rw [performOp_error h, selectsNothing]
  by_cases hk : owKind w = 1
  case neg => rw [if_neg hk, if_neg hk]
  rw [if_pos hk, if_pos hk]
  match owCode w with
  | 0 => rfl
  | 1 => rfl
  | n + 2 => rfl

/-- Settles O5: a step performs the first input of the inbox, or a cycle where there is none. -/
theorem stepRunsTheDecodedOperation : Obligations.StepRunsTheDecodedOperation := by
  intro s rest
  refine ⟨fun w o i hinbox hdec => ?_, fun hinbox => ?_, fun hinbox => ?_⟩
  · rw [step, performNext, hinbox]
    exact performOp_ok hdec _
  · rw [step, performNext, hinbox]
  · rw [step, performNext, hinbox]
    rfl

end Sys2Proof.Machine
end

