-- ==== Sys2Proof/Proofs/AssembledWrites.lean ====
section
/-! PROOFS. The writes of other shapes are halfword writes at even offsets (30_encoding.md R109): an odd one at the offset
below, a byte write of the stored halfword with one byte replaced, a word write of its two halves. -/

namespace Sys2Proof.Machine

/-- Every even offset of the block has its halfword write, whose meaning is WRITE16 (41_register_access.md R160). -/
theorem exec_halfWriteAt_write16 {o : Nat} (ho : o < 0x058) (he : o % 2 = 0) (v : Half) :
    ∃ i, halfWriteAt o v = some i ∧ ∀ s, exec i s = .next (s.onPpu (Ppu.write16 Config.params o v)) := by
  obtain ⟨r, hr⟩ := HalfReg_ofOffset_some ho he
  obtain ⟨i, hi, hexec⟩ := exec_halfWriteAt hr v
  refine ⟨i, hi, fun s => ?_⟩
  rw [hexec, State.onPpu, State.onPpu, Ppu.write16, hr]

theorem evenOffset_even (o : Nat) : evenOffset o % 2 = 0 := by
  rw [evenOffset]
  omega

theorem evenOffset_inBlock {o : Nat} (ho : o < 0x058) : evenOffset o < 0x058 :=
  Nat.lt_of_le_of_lt (Nat.sub_le o (o % 2)) ho

/-- A byte write inside the block is WRITE16 of the stored halfword with the addressed byte replaced. -/
theorem Ppu_write8_eq {o : Nat} (ho : o < 0x058) (P : Params) (v : Byte) (p : Ppu) :
    p.write8 P o v = p.write16 P (evenOffset o) (mergeByte (p.regs.storedTable (evenOffset o)) o v) := by
  obtain ⟨r, hr⟩ := HalfReg_ofOffset_some (evenOffset_inBlock ho) (evenOffset_even o)
  rw [← Regs_stored_table hr, Ppu.write8, Ppu.write16, hr]

/-- The merge of the stored halfword at the even offset, even and odd offsets apart. -/
theorem mergeByte_storedTable (r : Regs) (o : Nat) (v : Byte) :
    mergeByte (r.storedTable (evenOffset o)) o v =
      if o % 2 = 0 then (r.storedTable o).extractLsb' 8 8 ++ v else v ++ (r.storedTable (o - 1)).extractLsb' 0 8 := by
  rcases Nat.mod_two_eq_zero_or_one o with h | h
  · rw [mergeByte, evenOffset, if_pos h, if_pos h, h, Nat.sub_zero]
  · have hne : ¬o % 2 = 0 := by omega
    rw [mergeByte, evenOffset, if_neg hne, if_neg hne, h]

/-- Settles O16: the even offset below is where the odd write is performed. -/
theorem oddHalfwordWriteGoesToTheEvenOffset : Obligations.OddHalfwordWriteGoesToTheEvenOffset := by
  intro o v s hwf
  simp only [Instr.wellFormed, offsetInBlock, Bool.and_eq_true, decide_eq_true_eq] at hwf
  obtain ⟨hin, hodd⟩ := hwf
  have heven : evenOffset o.toNat = o.toNat - 1 := congrArg (o.toNat - ·) hodd
  obtain ⟨i, hi, hexec⟩ := exec_halfWriteAt_write16 (o := o.toNat - 1) (by omega) (by omega) v
  refine ⟨i, _, hi, hexec s, ?_⟩
  rw [exec, execW16Odd, heven]

/-- Settles O17: the byte write is WRITE16 of the merged halfword, which is what the halfword write at that offset does. -/
theorem byteWriteMergesWithTheStoredHalfword : Obligations.ByteWriteMergesWithTheStoredHalfword := by
  intro o v s hwf
  have hin : o.toNat < 0x058 := of_decide_eq_true hwf
  rw [← mergeByte_storedTable]
  obtain ⟨i, hi, hexec⟩ := exec_halfWriteAt_write16 (evenOffset_inBlock hin) (evenOffset_even o.toNat)
    (mergeByte (s.ppu.regs.storedTable (evenOffset o.toNat)) o.toNat v)
  refine ⟨i, _, hi, hexec s, ?_⟩
  rw [exec, execW8, State.onPpu, Ppu_write8_eq hin, State.onPpu]

/-- Settles O18: the word write is the WRITE16 of each half in turn, and both offsets are even ones of the block. -/
theorem wordWriteIsLowHalfThenHighHalf : Obligations.WordWriteIsLowHalfThenHighHalf := by
  intro o v s hwf
  simp only [Instr.wellFormed, offsetInBlock, offsetWordAligned, Bool.and_eq_true, decide_eq_true_eq] at hwf
  obtain ⟨hin, haligned⟩ := hwf
  obtain ⟨lo, hlo, hexecLo⟩ := exec_halfWriteAt_write16 hin (by omega) (v.extractLsb' 0 16)
  obtain ⟨hi, hhi, hexecHi⟩ :=
    exec_halfWriteAt_write16 (o := o.toNat + 2) (by omega) (by omega) (v.extractLsb' 16 16)
  refine ⟨lo, hi, _, _, hlo, hhi, hexecLo s, hexecHi _, ?_⟩
  rw [exec, execW32, State.onPpu, Ppu.write32, if_pos haligned]
  rfl

end Sys2Proof.Machine
end

