-- ==== Sys2Proof/Proofs/Parameters.lean ====
section
/-! PROOFS. The open parameters meet the constraints of 92_eei_decisions.md D4, D21 and D22, whatever their open parts are. -/

namespace Sys2Proof.Config

/-- The gaps add up, so their sum does not fall from one column to a later one. -/
theorem renderSlack_mono : Monotone renderSlack :=
  monotone_nat_of_le_succ fun x => Nat.le_add_right (renderSlack x) (renderGap (x + 1))

/-- Settles O32: a column's cycle is its number and 4, and at most 763 cycles of slack, which does not fall; the two delays are
remainders by their ranges. -/
theorem parametersAreAdmissible : Obligations.ParametersAreAdmissible where
  render_lower x _ := Nat.le_add_left 4 (min 763 (renderSlack x) + x)
  render_upper x hx := by
    have hslack : min 763 (renderSlack x) ≤ 763 := Nat.min_le_left ..
    show min 763 (renderSlack x) + x + 4 ≤ 1006
    omega
  render_increasing x y hxy _ := by
    have hslack : min 763 (renderSlack x) ≤ min 763 (renderSlack y) :=
      min_le_min_left 763 (renderSlack_mono hxy.le)
    show min 763 (renderSlack x) + x + 4 < min 763 (renderSlack y) + y + 4
    omega
  hblank_lower := Nat.le_add_left 1 (hblankDelaySeed % 224)
  hblank_upper := Nat.mod_lt hblankDelaySeed (by decide)
  lyc_lower := Nat.le_add_left 1 (lycDelaySeed % 1232)
  lyc_upper := Nat.mod_lt lycDelaySeed (by decide)

end Sys2Proof.Config
end

