-- ==== Sys2Proof/Proofs/TickClasses.lean ====
section
/-! PROOFS. The TICK operation, class by class (40_scanline_events.md sections 2 to 4): it is the block's tick in the state that
its start leaves, and that start touches two flags and the queue alone where no reset is due. -/

namespace Sys2Proof.Machine

/-! ## The start of a tick, and the tick -/

/-- TICK is the block's tick in the state it begins in, with the memory and the draw of the state before. -/
theorem exec_tick_eq (s : State) :
    exec .tick s = .next { s.beginTick with
      ppu := s.beginTick.ppu.tick Config.params s.draws s.mem
      draws := s.draws + 1 } := by
  obtain ⟨hmem, -, -, hdraws⟩ := State_beginTick_around s
  rw [← hmem, ← hdraws]
  rfl

section Begun
variable {s : State} (h : s.resetDue = false)
include h

theorem State_beginTick_line : s.beginTick.ppu.line = s.ppu.line := by rw [State_beginTick_ppu h]

theorem State_beginTick_cycle : s.beginTick.ppu.cycle = s.ppu.cycle := by rw [State_beginTick_ppu h]

theorem State_beginTick_regs : s.beginTick.ppu.regs = s.ppu.regs := by rw [State_beginTick_ppu h]

theorem State_beginTick_fb : s.beginTick.ppu.fb = s.ppu.fb := by rw [State_beginTick_ppu h]

theorem State_beginTick_refused : s.beginTick.ppu.refused = s.ppu.refused := by rw [State_beginTick_ppu h]

theorem State_beginTick_drawStrip : s.beginTick.ppu.drawStrip = s.ppu.drawStrip := by
  rw [State_beginTick_ppu h]
  rfl

theorem State_beginTick_columnNow (P : Params) : s.beginTick.ppu.columnNow P = s.ppu.columnNow P := by
  rw [State_beginTick_ppu h]
  rfl

/-- The start of a tick changes nothing that a pixel is composed from (44_compositing_blending.md R265). -/
theorem State_beginTick_pixelColor (P : Params) (n : Nat) (m : Memory) (x y : Nat) :
    s.beginTick.ppu.pixelColor P n m x y = s.ppu.pixelColor P n m x y :=
  pixelDependsOnlyOnVisibleState P n m m s.ppu s.beginTick.ppu x y (State_beginTick_regs h)
    (by rw [State_beginTick_ppu h]) (by rw [State_beginTick_ppu h]) (congrArg (stripAt · x) (State_beginTick_drawStrip h))
    (fun _ => rfl) (fun _ => rfl)

end Begun

/-! ## The parts of a tick -/

/-- The strip swap draws what has been evaluated (40_scanline_events.md R132, R133). -/
theorem Ppu_swapStrips_drawStrip (p : Ppu) : p.swapStrips.drawStrip = p.evalStrip := by
  rw [Ppu_swapStrips_eq]
  cases hsel : p.drawSel <;> simp [Ppu.drawStrip, Ppu.evalStrip, hsel]

theorem Ppu_swapStrips_evalStrip (p : Ppu) : p.swapStrips.evalStrip = [] :=
  Ppu_setEvalStrip_evalStrip ..

/-- No column is composited outside the visible lines, or in a cycle that is no column's (40_scanline_events.md R135). -/
theorem Ppu_columnNow_none {P : Params} {p : Ppu}
    (h : 160 ≤ p.line ∨ ∀ x, x < 240 → P.renderCycle x ≠ p.cycle) : p.columnNow P = none := by
  cases hcol : p.columnNow P with
  | none => rfl
  | some x =>
    obtain ⟨hline, -, -, hx, hcycle⟩ := Ppu_columnNow_some hcol
    rcases h with hbelow | hother
    · omega
    · exact absurd hcycle (hother x hx)

/-- On a visible line, RENDER_CYCLE(x) composites column x (92_eei_decisions.md D4, 40_scanline_events.md R135). -/
theorem Ppu_columnNow_renderCycle {p : Ppu} {x : Nat} (hx : x < 240) (hline : p.line < 160)
    (hcycle : p.cycle = Config.params.renderCycle x) : p.columnNow Config.params = some x := by
  have hlow := Config.parametersAreAdmissible.render_lower x hx
  have hhigh := Config.parametersAreAdmissible.render_upper x hx
  rw [Ppu_columnNow_eq, if_pos (by omega), hcycle]
  exact renderColumn_at Config.parametersAreAdmissible.render_increasing hx

/-- The colour composited, the refusal mark not being set, is what the framebuffer then holds there
(44_compositing_blending.md R280). -/
theorem Ppu_renderPixel_fbAt_self {p : Ppu} (hwf : Sparse.wf (0 : Color15) 38400 0 p.fb = true)
    (hrefused : p.refused = false) (P : Params) (n : Nat) (m : Memory) (x y : Nat) :
    (p.renderPixel P n m x y).fbAt x y = p.pixelColor P n m x y := by
  rw [Ppu.renderPixel, hrefused]
  exact Sparse.read_write_self hwf _ _

/-! ## The classes -/

/-- Settles O25: with nothing handed over and no reset due the start of the tick only empties the queue, and in a cycle of no
class the tick only steps the counter. -/
theorem idleTickOnlyCounts : Obligations.IdleTickOnlyCounts := by
  refine fun s => ⟨fun hdue hhanded => ?_, fun h0 hh he hcolumn => ?_⟩
  · rw [State_beginTick_eq hdue]
    cases s
    obtain rfl : _ = [] := hhanded
    rfl
  · have hdue := State_resetDue_cycle h0
    have hcycle := State_beginTick_cycle hdue
    have hnone := (State_beginTick_columnNow hdue Config.params).trans (Ppu_columnNow_none hcolumn)
    rw [← hcycle] at h0 hh he
    rw [exec_tick_eq, Ppu_tick_idle h0 hnone hh he, hcycle]

/-- Settles O26: the enable commit sets the two enable delays, and the strip swap makes the old evaluation buffer the draw
buffer and leaves the new one empty. -/
theorem cycleZeroCommitsAndSwaps : Obligations.CycleZeroCommitsAndSwaps := by
  intro s h0
  have htick := Ppu_tick_commit (P := Config.params) (n := s.draws) (m := s.mem) h0
  have hdraw := Ppu_swapStrips_drawStrip s.beginTick.ppu.commitBgEnables
  have heval := Ppu_swapStrips_evalStrip s.beginTick.ppu.commitBgEnables
  rw [Ppu_swapStrips_eq, Ppu_commitBgEnables_eq] at htick hdraw heval
  rw [exec_tick_eq, htick]
  exact ⟨_, rfl, rfl, fun x => congrArg (stripAt · x) hdraw, fun x => congrArg (stripAt · x) heval,
    Ppu_commitBgEnables_get s.beginTick.ppu⟩

/-- Settles O27: the tick composites column x of the line, and the framebuffer reads back what was written, there and
elsewhere. -/
theorem renderTickWritesOnePixel : Obligations.RenderTickWritesOnePixel := by
  intro s x hx hline hcycle htrusted hwf
  have hcol := Ppu_columnNow_renderCycle hx hline hcycle
  have hdue : s.resetDue = false := State_resetDue_cycle (by have := Ppu_columnNow_some hcol; omega)
  have htick := Ppu_tick_render (n := s.draws) (m := s.mem) ((State_beginTick_columnNow hdue Config.params).trans hcol)
  rw [State_beginTick_line hdue, State_beginTick_cycle hdue] at htick
  rw [exec_tick_eq, htick]
  refine ⟨_, rfl, rfl, ?_, fun x' y hx' hother => ?_⟩
  · rw [← State_beginTick_pixelColor hdue]
    rw [← State_beginTick_fb hdue] at hwf
    exact Ppu_renderPixel_fbAt_self hwf ((State_beginTick_refused hdue).trans htrusted) ..
  · rw [Ppu.fbAt, Ppu.fbAt, ← State_beginTick_fb hdue]
    refine Sparse.read_write_ne _ fun heq => ?_
    obtain ⟨rfl, rfl⟩ := fbIndex_inj hx hx' heq
    exact hother.elim (· rfl) (· rfl)

/-- Settles O28: the tick of cycle 1007 appends its events, of the line the tick begins on. -/
theorem hBlankTickEmitsItsEvents : Obligations.HBlankTickEmitsItsEvents := by
  intro s hcycle
  have hdue : s.resetDue = false := State_resetDue_cycle (by omega)
  rw [exec_tick_eq, Ppu_tick_hblank ((State_beginTick_cycle hdue).trans hcycle), ← State_beginTick_line hdue]
  simp only [decide_eq_true_eq, Nat.lt_succ_iff]

end Sys2Proof.Machine
end

