-- ==== Sys2Proof/Proofs/LineTransition.lean ====
section
/-! PROOFS. The tick of cycle 1231 enters the next line (40_scanline_events.md section 5): position, flags and events, then the
internal references, then the mosaic references and the line latch. -/

namespace Sys2Proof.Machine

/-- No reset is due at the end of a line (70_reset_and_hazards.md R331). -/
theorem State_resetDue_lineEnd {s : State} (he : s.ppu.cycle = 1231) : s.resetDue = false :=
  State_resetDue_cycle (by omega)

/-- TICK in cycle 1231 is the line transition of the block its start leaves (40_scanline_events.md R145). -/
theorem exec_tick_lineEnd {s : State} (he : s.ppu.cycle = 1231) :
    exec .tick s = .next { s.beginTick with ppu := s.beginTick.ppu.lineEnd, draws := s.draws + 1 } := by
  rw [exec_tick_eq, Ppu_tick_lineEnd ((State_beginTick_cycle (State_resetDue_lineEnd he)).trans he)]

/-- The internal reference, reload before step (40_scanline_events.md R147). -/
theorem nextReference_eq (old newLine : Nat) (pend : Bool) (written internal : S28) (step : Half) :
    nextReference old newLine pend written internal step =
      if newLine = 160 ∨ pend = true then written
      else if old ≤ 159 then BitVec.ofInt 28 (internal.toInt + step.toInt)
      else internal := by
  simp only [nextReference, ite_or, wrap28, Nat.lt_succ_iff]

/-- The mosaic references are captured on the first line of each cell of the visible area (40_scanline_events.md R148). -/
theorem Regs_capturesMosaic_iff (r : Regs) (newLine : Nat) :
    r.capturesMosaic newLine = true ↔
      newLine ≤ 159 ∧ newLine % ((r.mosaic.extractLsb' 4 4).toNat + 1) = 0 := by
  simp only [Regs.capturesMosaic, Bool.and_eq_true, decide_eq_true_eq, Nat.lt_succ_iff]
  rfl

/-- Settles O29: the line transition of the block that the start of the tick leaves, whose position, registers and vblankFlag
are those of before. -/
theorem lineEndTickEntersTheNextLine : Obligations.LineEndTickEntersTheNextLine := by
  intro s he
  have hdue := State_resetDue_lineEnd he
  have hvblank : s.beginTick.ppu.vblankFlag = s.ppu.vblankFlag := by rw [State_beginTick_ppu hdue]
  rw [exec_tick_lineEnd he, Ppu_lineEnd_eq, ← hvblank, ← State_beginTick_line hdue, ← State_beginTick_regs hdue,
    List.append_assoc _ [_] [_]]
  exact ⟨_, rfl, rfl⟩

/-- Settles O30: the internal references of the line transition, whose inputs the start of the tick leaves alone. -/
theorem lineEndUpdatesTheInternalReferences : Obligations.LineEndUpdatesTheInternalReferences := by
  intro s he
  refine ⟨_, exec_tick_lineEnd he, fun b => ?_⟩
  obtain ⟨hx, hy⟩ := Ppu_lineEnd_reference s.beginTick.ppu b
  rw [nextReference_eq] at hx hy
  rw [State_beginTick_ppu (State_resetDue_lineEnd he)] at hx hy ⊢
  exact ⟨hx, hy, PerAff_get_const b false, PerAff_get_const b false⟩

/-- Settles O31: the latch of the line transition, entering a visible line and entering a later one. -/
theorem lineEndTakesTheLineLatch : Obligations.LineEndTakesTheLineLatch := by
  intro s he
  refine ⟨_, exec_tick_lineEnd he, fun b => ?_⟩
  obtain ⟨hmix, hmiy, hlatch⟩ := Ppu_lineEnd_latch s.beginTick.ppu b
  simp only [Regs_capturesMosaic_iff] at hmix hmiy
  rw [State_beginTick_ppu (State_resetDue_lineEnd he)] at hmix hmiy hlatch ⊢
  dsimp only
  split
  · rename_i hvisible
    simp only [hvisible, true_and] at hmix hmiy
    rw [if_pos (Nat.lt_succ_of_le hvisible)] at hlatch
    exact ⟨hmix, hmiy, hlatch⟩
  · rename_i hbelow
    simp only [hbelow, false_and, if_false] at hmix hmiy
    rw [if_neg fun hvisible => hbelow (Nat.le_of_lt_succ hvisible)] at hlatch
    exact ⟨hmix, hmiy, hlatch⟩

end Sys2Proof.Machine
end

