-- ==== Sys2Proof/Proofs/Commits.lean ====
section
/-! PROOFS. The commits of the delay pipeline (40_scanline_events.md section 6): handed over by an operation, or falling due in
a cycle of the scheduler. Of a run of commits only the flags, the registers and the position matter, and a commit changes no
register and no position. -/

namespace Sys2Proof.Machine

/-! ## One commit -/

/-- An HBlank commit, as an equation (40_scanline_events.md R150). -/
theorem Ppu_applyCommit_hblank (p : Ppu) (line : Nat) :
    p.applyCommit ⟨.hblank, line⟩ =
      { p with
        hblankFlag := if line = p.line then true else p.hblankFlag
        q := p.q ++ (if line = p.line ∧ p.regs.dispstat.getLsbD 4 = true then [.irqRequest .hblank] else []) } := by
  rw [Ppu.applyCommit, Ppu.hblankCommit]
  by_cases h : line = p.line
  · simp only [h, if_true, true_and]
    rfl
  · simp only [h, if_false, false_and, List.append_nil]

/-- The LYC compare of a line of the frame is with the upper byte of DISPSTAT (30_encoding.md R93, 40_scanline_events.md
R151). -/
theorem Ppu_lycMatches_eq {line : Nat} (h : line < 228) (p : Ppu) :
    p.lycMatches line = decide (line = (p.regs.dispstat.extractLsb' 8 8).toNat) := by
  rw [Ppu.lycMatches, decide_eq_true h, Bool.true_and]
  rfl

/-- An LYC commit of a line of the frame, as an equation (40_scanline_events.md R151). -/
theorem Ppu_applyCommit_lyc {line : Nat} (h : line < 228) (p : Ppu) :
    p.applyCommit ⟨.lyc, line⟩ =
      { p with
        vcountFlag := decide (line = (p.regs.dispstat.extractLsb' 8 8).toNat)
        q := p.q ++ (if line = (p.regs.dispstat.extractLsb' 8 8).toNat ∧ p.regs.dispstat.getLsbD 5 = true then
          [.irqRequest .vcount] else []) } := by
  rw [Ppu.applyCommit, Ppu.lycCommit, Ppu.emitIf, Ppu_lycMatches_eq h]
  simp only [Bool.and_eq_true, decide_eq_true_eq]
  rfl

/-! ## Commits handed over -/

/-- Where no reset is due, the commit handed over last is applied last in the start of the tick. -/
theorem State_beginTick_handed {s : State} {before : List Commit} {c : Commit} (hlast : s.handed = before ++ [c])
    (hdue : s.resetDue = false) :
    s.beginTick =
      (State.beginTick { s with handed := before }).onPpu fun p => p.applyCommit c := by
  have hs : s = State.hand c { s with handed := before } := by rw [State.hand, ← hlast]
  have hdue' : State.resetDue { s with handed := before } = false := hdue
  conv_lhs => rw [hs, State_beginTick_hand, hdue']
  rfl

/-- The commits that come before do not touch what the last commit of the run reads. -/
theorem State_beginTick_handed_reads {s : State} (hdue : s.resetDue = false) (before : List Commit) :
    (State.beginTick { s with handed := before }).ppu.line = s.ppu.line ∧
      (State.beginTick { s with handed := before }).ppu.regs = s.ppu.regs :=
  have hdue' : State.resetDue { s with handed := before } = false := hdue
  ⟨State_beginTick_line hdue', State_beginTick_regs hdue'⟩

/-- Settles O33: the operation is `State.hand`, and the start of the tick applies the commit last. -/
theorem hBlankCommitSetsTheFlag : Obligations.HBlankCommitSetsTheFlag := by
  refine fun l => ⟨fun _ => rfl, fun s before hlast hdue => ?_⟩
  obtain ⟨hline, hregs⟩ := State_beginTick_handed_reads hdue before
  rw [State_beginTick_handed hlast hdue, State.onPpu, Ppu_applyCommit_hblank, ← hline, ← hregs]

/-- Settles O34: the operation is `State.hand`, and the start of the tick applies the commit last. -/
theorem lycCommitComparesTheLine : Obligations.LycCommitComparesTheLine := by
  refine fun l hwf => ⟨fun _ => rfl, fun s before hlast hdue => ?_⟩
  have hframe : l.toNat < 228 := of_decide_eq_true hwf
  obtain ⟨-, hregs⟩ := State_beginTick_handed_reads hdue before
  rw [State_beginTick_handed hlast hdue, State.onPpu, Ppu_applyCommit_lyc hframe, ← hregs]
  simp only [BitVec.toNat_inj]

/-! ## Commits that fall due -/

/-- A commit of a run is applied to a block with the same position and registers, and some commits of the run follow it. -/
theorem Ppu_applyCommits_split {l : List Commit} {c : Commit} (hc : c ∈ l) (p : Ppu) :
    ∃ (p' : Ppu) (later : List Commit), p'.line = p.line ∧ p'.regs = p.regs ∧ (∀ d ∈ later, d ∈ l) ∧
      l.foldl Ppu.applyCommit p = later.foldl Ppu.applyCommit (p'.applyCommit c) := by
  obtain ⟨earlier, later, rfl⟩ := List.append_of_mem hc
  refine ⟨earlier.foldl Ppu.applyCommit p, later, ?_, ?_, fun d hd => by simp [hd], List.foldl_append⟩
  · rw [Ppu_applyCommits_eq]
  · rw [Ppu_applyCommits_eq]

/-- A run of commits keeps what the queue holds (60_exceptions.md R305). -/
theorem Ppu_applyCommits_mem_queue {p : Ppu} {e : PpuEvent} (he : e ∈ p.q) (l : List Commit) :
    e ∈ (l.foldl Ppu.applyCommit p).q := by
  obtain ⟨es, hq, -⟩ := Ppu_applyCommits_queue l p
  rw [hq]
  exact List.mem_append_left es he

/-- So does a tick. -/
theorem Ppu_tick_mem_queue {p : Ppu} {e : PpuEvent} (he : e ∈ p.q) (P : Params) (n : Nat) (m : Memory) :
    e ∈ (p.tick P n m).q := by
  obtain ⟨es, hq⟩ := Ppu_tick_queue P n m p
  rw [hq]
  exact List.mem_append_left es he

/-- A run with an HBlank commit of the current line sets hblankFlag and requests the interrupt where it is enabled. -/
theorem Ppu_applyCommits_hblank_mem {l : List Commit} {p : Ppu} (hc : ⟨.hblank, p.line⟩ ∈ l) :
    (l.foldl Ppu.applyCommit p).hblankFlag = true ∧
      (p.regs.dispstat.getLsbD 4 = true → .irqRequest .hblank ∈ (l.foldl Ppu.applyCommit p).q) := by
  obtain ⟨p', later, hline, hregs, -, hfold⟩ := Ppu_applyCommits_split hc p
  rw [hfold, Ppu_applyCommit_hblank, ← hline]
  refine ⟨Ppu_applyCommits_hblank later _ (if_pos rfl), fun hirq => Ppu_applyCommits_mem_queue ?_ later⟩
  exact List.mem_append_right _ (List.mem_ite_nil_right.mpr ⟨⟨rfl, hregs ▸ hirq⟩, List.mem_cons_self⟩)

/-- A run in which every LYC commit is of one line of the frame keeps a vcountFlag that compares that line. -/
theorem Ppu_applyCommits_vcount {line : Nat} (hline : line < 228) {l : List Commit}
    (hl : ∀ c ∈ l, c.kind = .lyc → c.line = line) {p : Ppu}
    (hp : p.vcountFlag = decide (line = (p.regs.dispstat.extractLsb' 8 8).toNat)) :
    (l.foldl Ppu.applyCommit p).vcountFlag = decide (line = (p.regs.dispstat.extractLsb' 8 8).toNat) := by
  induction l generalizing p with
  | nil => exact hp
  | cons c t ih =>
    have ht : ∀ d ∈ t, d.kind = .lyc → d.line = line := fun d hd => hl d (List.mem_cons_of_mem c hd)
    obtain ⟨kind, commitLine⟩ := c
    rw [List.foldl_cons]
    cases kind with
    | hblank =>
      rw [Ppu_applyCommit_hblank]
      exact ih ht hp
    | lyc =>
      obtain rfl : commitLine = line := hl _ List.mem_cons_self rfl
      rw [Ppu_applyCommit_lyc hline]
      exact ih ht rfl

/-- A run with an LYC commit of one line of the frame and of no other compares that line, and requests the interrupt where it
matches and is enabled. -/
theorem Ppu_applyCommits_lyc_mem {line : Nat} (hline : line < 228) {l : List Commit} (hc : ⟨.lyc, line⟩ ∈ l)
    (hl : ∀ c ∈ l, c.kind = .lyc → c.line = line) (p : Ppu) :
    (l.foldl Ppu.applyCommit p).vcountFlag = decide (line = (p.regs.dispstat.extractLsb' 8 8).toNat) ∧
      (line = (p.regs.dispstat.extractLsb' 8 8).toNat → p.regs.dispstat.getLsbD 5 = true →
        .irqRequest .vcount ∈ (l.foldl Ppu.applyCommit p).q) := by
  obtain ⟨p', later, -, hregs, hlater, hfold⟩ := Ppu_applyCommits_split hc p
  rw [hfold, Ppu_applyCommit_lyc hline, ← hregs]
  refine ⟨Ppu_applyCommits_vcount hline (fun d hd => hl d (hlater d hd)) rfl, fun hmatch hirq =>
    Ppu_applyCommits_mem_queue ?_ later⟩
  exact List.mem_append_right _ (List.mem_ite_nil_right.mpr ⟨⟨hmatch, hirq⟩, List.mem_cons_self⟩)

/-- Where no reset is due, a cycle of the scheduler applies to the block that its start leaves the commits with one cycle left,
and no others, and then ticks it (60_exceptions.md R302). -/
theorem State_schedulerCycle_due {s : State} (hdue : s.resetDue = false) (P : Params) :
    ∃ due : List Commit, (∀ c, c ∈ due ↔ ∃ d ∈ s.pending, d.left ≤ 1 ∧ d.commit = c) ∧
      (s.schedulerCycle P).ppu =
        (due.foldl Ppu.applyCommit s.beginTick.ppu).tick P s.beginTick.draws (s.schedulerCycle P).mem := by
  obtain ⟨due, hperm, hppu⟩ := State_schedulerCycle_ppu P s
  refine ⟨due, fun c => ?_, hppu⟩
  rw [hperm.mem_iff, State_beginTick_eq hdue]
  simp only [State_openCycle_pending, List.mem_map, List.mem_filter, decide_eq_true_eq, and_assoc]

/-- Settles O58: the due commits, among them the one named, are applied to a block with the position and the registers of
before, and the tick after them keeps vcountFlag and the queue, and hblankFlag but at the line end. -/
theorem dueHBlankCommitSetsTheFlag : Obligations.DueHBlankCommitSetsTheFlag := by
  refine ⟨fun s hpend hdue => ?_, fun s line hline hpend hdue hone => ?_⟩
  · obtain ⟨due, hmem, hppu⟩ := State_schedulerCycle_due hdue Config.params
    have hc : ⟨.hblank, s.beginTick.ppu.line⟩ ∈ due :=
      (hmem _).mpr ⟨_, hpend, Nat.le_refl 1, by rw [State_beginTick_line hdue]; rfl⟩
    obtain ⟨hflag, hirq⟩ := Ppu_applyCommits_hblank_mem hc
    rw [State_beginTick_regs hdue] at hirq
    rw [hppu]
    refine ⟨fun hcycle => ?_, fun henabled => Ppu_tick_mem_queue (hirq henabled) ..⟩
    rw [Ppu_tick_hblankFlag, Ppu_applyCommits_eq, if_neg (by rwa [State_beginTick_cycle hdue])]
    exact hflag
  · obtain ⟨due, hmem, hppu⟩ := State_schedulerCycle_due hdue Config.params
    have hc : ⟨.lyc, line⟩ ∈ due := (hmem _).mpr ⟨_, hpend, Nat.le_refl 1, rfl⟩
    have honly : ∀ c ∈ due, c.kind = .lyc → c.line = line := by
      intro c hcd hkind
      obtain ⟨d, hd, hleft, rfl⟩ := (hmem c).mp hcd
      exact hone d hd hkind hleft
    obtain ⟨hflag, hirq⟩ := Ppu_applyCommits_lyc_mem hline hc honly s.beginTick.ppu
    rw [State_beginTick_regs hdue] at hflag hirq
    rw [hppu]
    obtain ⟨hvcount, -⟩ := Ppu_tick_keeps Config.params s.beginTick.draws (s.schedulerCycle Config.params).mem
      (due.foldl Ppu.applyCommit s.beginTick.ppu)
    exact ⟨hvcount.trans hflag, fun hmatch henabled => Ppu_tick_mem_queue (hirq hmatch henabled) ..⟩

end Sys2Proof.Machine
end

