-- ==== Sys2Proof/Proofs/LinesAndFrames.lean ====
section
/-! PROOFS. What holds over a line and over a frame (40_scanline_events.md sections 2, 3 and 7): the draw buffer is fixed between
two ticks of cycle 0, the position moves one cycle a tick, and the ticks of a visible line rewrite its row. -/

namespace Sys2Proof.Machine

/-! ## The draw buffer -/

/-- A tick of another cycle than 0 leaves the draw buffer alone (40_scanline_events.md R132, R133). -/
theorem Ppu_tick_drawStrip {p : Ppu} (h0 : p.cycle ≠ 0) (P : Params) (n : Nat) (m : Memory) :
    (p.tick P n m).drawStrip = p.drawStrip := by
  rcases Ppu_tick_classes P p with hc | ⟨x, hx⟩ | hh | he | ⟨-, hr, hh, he⟩
  · exact absurd hc h0
  · rw [Ppu_tick_render hx]
    rfl
  · rw [Ppu_tick_hblank hh]
    rfl
  · rw [Ppu_tick_lineEnd he, Ppu_lineEnd_eq]
    rfl
  · rw [Ppu_tick_idle h0 hr hh he]
    rfl

/-- Settles O41, by the kinds of operation: a register write reaches no strip, and a strip write the evaluation buffer alone. -/
theorem drawBufferIsFixedDuringALine : Obligations.DrawBufferIsFixedDuringALine := by
  intro i s t ht hreset hcycle
  rcases exec_cases i s with ⟨ws, hi⟩ | ⟨v, hi⟩ | rfl | ⟨l, rfl⟩ | ⟨l, rfl⟩ | ⟨x, e, rfl⟩ | rfl
  · cases hi.symm.trans ht
    have hw := Ppu_writes_regWritten Config.params ws s.ppu
    rw [State_onPpu_ppu, Ppu.drawStrip, hw.drawSel, hw.strip0, hw.strip1, Ppu.drawStrip]
  · cases hi.symm.trans ht
    rfl
  · have hdue := State_resetDue_cycle (hcycle rfl)
    cases (exec_tick_eq s).symm.trans ht
    exact (Ppu_tick_drawStrip (by rw [State_beginTick_cycle hdue]; exact hcycle rfl) ..).trans
      (State_beginTick_drawStrip hdue)
  · cases ht
    rfl
  · cases ht
    rfl
  · cases ht
    rw [State_onPpu_ppu, Ppu.stripWrite]
    split
    · exact Ppu_setEvalStrip_drawStrip ..
    · rfl
  · exact absurd rfl hreset

/-! ## The position -/

/-- The ticks of a run, the last one split off. -/
theorem State_ticks_succ (n : Nat) (s : State) :
    State.ticks (n + 1) s = (State.ticks n s).beginTick.runTick Config.params := by
  induction n generalizing s with
  | zero => rfl
  | succ n ih => exact ih _

/-- A TICK moves the position by one cycle, and where a reset is due it is the tick of (0, 0) (40_scanline_events.md R130,
R145; 70_reset_and_hazards.md R331). -/
theorem State_tick_position (s : State) :
    ((s.beginTick.runTick Config.params).ppu.line, (s.beginTick.runTick Config.params).ppu.cycle) =
      if s.resetRequested = true ∧ s.ppu.line = 160 ∧ s.ppu.cycle = 0 then (0, 1)
      else if s.ppu.cycle = 1231 then ((s.ppu.line + 1) % 228, 0) else (s.ppu.line, s.ppu.cycle + 1) := by
  rw [State_runTick_ppu]
  obtain ⟨hline, hcycle⟩ := Ppu_tick_position Config.params s.beginTick.draws s.beginTick.mem s.beginTick.ppu
  rw [hline, hcycle]
  by_cases hdue : s.resetDue = true
  · rw [if_pos ((State_resetDue_iff s).mp hdue), State_beginTick_reset hdue]
    rfl
  · rw [if_neg (mt (State_resetDue_iff s).mpr hdue)]
    rw [Bool.not_eq_true] at hdue
    rw [State_beginTick_line hdue, State_beginTick_cycle hdue]
    split <;> rfl

/-- No operation but a tick and a hard reset moves the position (40_scanline_events.md R152). -/
theorem exec_position {i : Instr} {s t : State} (htick : i ≠ .tick) (hreset : i ≠ .hardReset) (ht : exec i s = .next t) :
    t.ppu.line = s.ppu.line ∧ t.ppu.cycle = s.ppu.cycle := by
  rcases exec_cases i s with ⟨ws, hi⟩ | ⟨v, hi⟩ | rfl | ⟨l, rfl⟩ | ⟨l, rfl⟩ | ⟨x, e, rfl⟩ | rfl
  · cases hi.symm.trans ht
    have hw := Ppu_writes_regWritten Config.params ws s.ppu
    exact ⟨hw.line, hw.cycle⟩
  · cases hi.symm.trans ht
    exact ⟨rfl, rfl⟩
  · exact absurd rfl htick
  · cases ht
    exact ⟨rfl, rfl⟩
  · cases ht
    exact ⟨rfl, rfl⟩
  · cases ht
    rw [State_onPpu_ppu, Ppu.stripWrite]
    split <;> exact ⟨rfl, rfl⟩
  · exact absurd rfl hreset

/-- A tick with no reset requested moves the position by one cycle of the frame, and requests none. -/
theorem State_tick_frame {s : State} (hline : s.ppu.line < 228) (hcycle : s.ppu.cycle < 1232)
    (hrequest : s.resetRequested = false) :
    let t := s.beginTick.runTick Config.params
    t.ppu.line < 228 ∧ t.ppu.cycle < 1232 ∧ t.resetRequested = false ∧
      1232 * t.ppu.line + t.ppu.cycle = (1232 * s.ppu.line + s.ppu.cycle + 1) % 280896 := by
  have hdue : s.resetDue = false := by rw [State.resetDue, hrequest, Bool.false_and]
  have hkept : (s.beginTick.runTick Config.params).resetRequested = false := by
    rw [State_runTick_resetRequested, State_beginTick_eq hdue, State_openCycle_resetRequested, hrequest]
  have hpos := State_tick_position s
  rw [if_neg fun h => Bool.eq_false_iff.mp hdue ((State_resetDue_iff s).mpr h)] at hpos
  split at hpos
  all_goals
    obtain ⟨hline', hcycle'⟩ := Prod.mk.inj hpos
    exact ⟨by omega, by omega, hkept, by omega⟩

/-- Settles O44: operation by operation, and by induction on the ticks, each of which moves the position by one cycle of the
frame. -/
theorem positionMovesOneCycleATickThroughTheFrame : Obligations.PositionMovesOneCycleATickThroughTheFrame := by
  refine ⟨fun i s t ht => ?_, fun n => ?_⟩
  · by_cases htick : i = .tick
    · subst htick
      cases ht
      rw [if_pos rfl]
      exact State_tick_position s
    · rw [if_neg htick]
      by_cases hreset : i = .hardReset
      · subst hreset
        cases ht
        rfl
      · obtain ⟨hline, hcycle⟩ := exec_position htick hreset ht
        rw [if_neg hreset, hline, hcycle]
  · induction n with
    | zero =>
      intro s hline hcycle _
      rw [State.ticks]
      omega
    | succ n ih =>
      intro s hline hcycle hrequest
      obtain ⟨hline', hcycle', hrequest', hnext⟩ := State_tick_frame hline hcycle hrequest
      have hrest := ih _ hline' hcycle' hrequest'
      rw [hnext] at hrest
      rw [State.ticks]
      omega

/-! ## The row of a visible line -/

/-- What the ticks of cycles 0 to 1006 of line `l` keep: the line, the refusal mark not set, and the framebuffer canonical. -/
structure State.AtLine (l c : Nat) (s : State) : Prop where
  line : s.ppu.line = l
  cycle : s.ppu.cycle = c
  trusted : s.Trusted
  wf : Sparse.wf (0 : Color15) 38400 0 s.ppu.fb = true

theorem State_resetDue_atLine {l c : Nat} {s : State} (hl : l < 160) (h : s.AtLine l c) : s.resetDue = false := by
  rw [← Bool.not_eq_true, State_resetDue_iff]
  have hline := h.line
  omega

/-- A tick keeps the framebuffer canonical (10_state.md R32). -/
theorem Ppu_tick_wf {p : Ppu} (h : Sparse.wf (0 : Color15) 38400 0 p.fb = true) (P : Params) (n : Nat) (m : Memory) :
    Sparse.wf (0 : Color15) 38400 0 (p.tick P n m).fb = true := by
  cases hcol : p.columnNow P with
  | none =>
    rw [Ppu_tick_fb hcol]
    exact h
  | some x =>
    obtain ⟨hline, -, -, hx, -⟩ := Ppu_columnNow_some hcol
    rw [Ppu_tick_render hcol]
    exact Sparse.wf_write h _ (Nat.zero_le _) (fbIndex_lt hx hline)

/-- A tick before the end of a visible line goes to the next cycle of that line. -/
theorem State_tick_atLine {l c : Nat} {s : State} (hl : l < 160) (hc : c < 1231) (h : s.AtLine l c) :
    (s.beginTick.runTick Config.params).AtLine l (c + 1) := by
  obtain ⟨hline, hcycle, htrusted, hwf⟩ := h
  have hdue := State_resetDue_atLine hl ⟨hline, hcycle, htrusted, hwf⟩
  have hpos := State_tick_position s
  rw [if_neg (by omega), if_neg (by omega), hline, hcycle] at hpos
  obtain ⟨hline', hcycle'⟩ := Prod.mk.inj hpos
  refine ⟨hline', hcycle', ?_, Ppu_tick_wf (by rwa [State_beginTick_fb hdue]) ..⟩
  obtain ⟨-, hrefused⟩ := Ppu_tick_keeps Config.params s.beginTick.draws s.beginTick.mem s.beginTick.ppu
  exact hrefused.trans ((State_beginTick_refused hdue).trans htrusted)

/-- From cycle 0 of a visible line, `k` ticks lead to cycle `k` of it. -/
theorem State_ticks_atLine {l : Nat} {s : State} (hl : l < 160) (h : s.AtLine l 0) {k : Nat} (hk : k ≤ 1007) :
    (State.ticks k s).AtLine l k := by
  induction k with
  | zero => exact h
  | succ k ih =>
    rw [State_ticks_succ]
    exact State_tick_atLine hl (by omega) (ih (by omega))

/-- An entry whose column is composited in none of the ticks from `j` to `k` of a line is the same after them. -/
theorem State_ticks_fbAt_kept {l : Nat} {s : State} (hl : l < 160) (h : s.AtLine l 0) {x y : Nat} (hx : x < 240) {j k : Nat}
    (hjk : j ≤ k) (hk : k ≤ 1007) (hother : ∀ i, j ≤ i → i < k → y = l → Config.params.renderCycle x ≠ i) :
    (State.ticks k s).ppu.fbAt x y = (State.ticks j s).ppu.fbAt x y := by
  induction k, hjk using Nat.le_induction with
  | base => rfl
  | succ k hjk ih =>
    have hat := State_ticks_atLine hl h (show k ≤ 1007 by omega)
    rw [← ih (by omega) fun i hji hik => hother i hji (by omega), State_ticks_succ]
    by_contra hchanged
    obtain ⟨-, hy, -, hcycle⟩ := framebufferChangesOnlyWhereRendered .tick (State.ticks k s) _ x y hx hat.trusted
      (by decide) (fun _ => State_resetDue_atLine hl hat) rfl hchanged
    exact hother k hjk (Nat.lt_succ_self k) (hy.trans hat.line) (hcycle.trans hat.cycle)

/-- Settles O45: each column of the row is composited in the tick of its RENDER_CYCLE and kept in the ticks after it, and no
entry of another row changes. -/
theorem visibleLineIsFullyRewritten : Obligations.VisibleLineIsFullyRewritten := by
  intro s hl hcycle htrusted hwf
  have h : s.AtLine s.ppu.line 0 := ⟨rfl, hcycle, htrusted, hwf⟩
  have hend := State_ticks_atLine hl h (Nat.le_refl 1007)
  refine ⟨fun x hx => ?_, fun x y hx hy => ?_, hend.line, hend.cycle⟩
  · have hlast := Config.parametersAreAdmissible.render_upper x hx
    have hat := State_ticks_atLine hl h (show Config.params.renderCycle x ≤ 1007 by omega)
    have hkept := State_ticks_fbAt_kept hl h hx (y := s.ppu.line) (j := Config.params.renderCycle x + 1)
      (by omega) (Nat.le_refl 1007) (fun i hi _ _ => by omega)
    obtain ⟨t, ht, -, hpixel, -⟩ := renderTickWritesOnePixel _ x hx (hat.line.trans_lt hl) hat.cycle hat.trusted hat.wf
    cases ht
    rw [hkept, State_ticks_succ]
    rw [hat.line] at hpixel
    exact hpixel
  · exact State_ticks_fbAt_kept hl h hx (Nat.zero_le 1007) (Nat.le_refl 1007) fun _ _ _ hline => absurd hline hy

end Sys2Proof.Machine
end

