-- ==== Sys2Proof/Proofs/RegisterWrites.lean ====
section
/-! PROOFS. What a register write stores and what it leaves alone (41_register_access.md section 1): the exact effect of each
halfword write, the byte that a byte write does not address, and the frame of the writes of every width. -/

namespace Sys2Proof.Machine

/-! ## DISPCNT and the reference points -/

/-- Settles O7: DISPCNT and the enable delays change, and each layer's delay follows the edge of its enable bit. -/
theorem writeDispcnt : Obligations.WriteDispcnt := fun v s =>
  ⟨s.onPpu (Ppu.writeDispcnt Config.params v), rfl,
    congrArg (fun p => { s with ppu := p }) (Ppu_writeDispcnt_eq Config.params v s.ppu),
    Ppu_writeDispcnt_get Config.params v s.ppu⟩

/-- Storing a horizontal reference has the reload effect of the policy (41_register_access.md R172). -/
theorem State_storeBgx_reloaded (s : State) (b : AffId) (v : S28) :
    s.ReloadedX { s with ppu := s.ppu.storeBgx Config.params b v } b v where
  written := congrArg (fun p => { s with ppu := p }) (Ppu_storeBgx_eq Config.params b v s.ppu)
  pend := by
    rw [Ppu.storeBgx]
    cases Config.params.affineWritePolicy <;> rfl
  reload := by
    rw [Ppu.storeBgx]
    cases Config.params.affineWritePolicy <;> rfl

/-- Storing a vertical reference has the reload effect of the policy (41_register_access.md R172). -/
theorem State_storeBgy_reloaded (s : State) (b : AffId) (v : S28) :
    s.ReloadedY { s with ppu := s.ppu.storeBgy Config.params b v } b v where
  written := congrArg (fun p => { s with ppu := p }) (Ppu_storeBgy_eq Config.params b v s.ppu)
  pend := by
    rw [Ppu.storeBgy]
    cases Config.params.affineWritePolicy <;> rfl
  reload := by
    rw [Ppu.storeBgy]
    cases Config.params.affineWritePolicy <;> rfl

/-- Settles O12: each of the eight halves stores the reference with that half replaced. -/
theorem writeReference : Obligations.WriteReference := fun _ s =>
  ⟨⟨_, rfl, State_storeBgx_reloaded s .bg2 _⟩, ⟨_, rfl, State_storeBgx_reloaded s .bg2 _⟩,
    ⟨_, rfl, State_storeBgy_reloaded s .bg2 _⟩, ⟨_, rfl, State_storeBgy_reloaded s .bg2 _⟩,
    ⟨_, rfl, State_storeBgx_reloaded s .bg3 _⟩, ⟨_, rfl, State_storeBgx_reloaded s .bg3 _⟩,
    ⟨_, rfl, State_storeBgy_reloaded s .bg3 _⟩, ⟨_, rfl, State_storeBgy_reloaded s .bg3 _⟩⟩

/-! ## The registers without a side effect: the write rule is the statement -/

/-- Settles O8. -/
theorem writeDispstat : Obligations.WriteDispstat := fun _ _ => rfl

/-- Settles O9. -/
theorem writeBgcnt : Obligations.WriteBgcnt := fun _ _ => ⟨rfl, rfl, rfl, rfl⟩

/-- Settles O10: the nine low bits are what narrowing keeps. -/
theorem writeScroll : Obligations.WriteScroll := by
  intro v s
  rw [← BitVec.setWidth_eq_extractLsb' (by decide)]
  exact ⟨rfl, rfl, rfl, rfl, rfl, rfl, rfl, rfl⟩

/-- Settles O11. -/
theorem writeMatrix : Obligations.WriteMatrix := fun _ _ => ⟨rfl, rfl, rfl, rfl, rfl, rfl, rfl, rfl⟩

/-- Settles O13. -/
theorem writeWindow : Obligations.WriteWindow := fun _ _ => ⟨rfl, rfl, rfl, rfl, rfl, rfl⟩

/-- Settles O14: BLDY keeps the five low bits, which is what narrowing keeps. -/
theorem writeMosaicAndBlend : Obligations.WriteMosaicAndBlend := by
  intro v s
  rw [← BitVec.setWidth_eq_extractLsb' (by decide)]
  exact ⟨rfl, rfl, rfl, rfl⟩

/-- Settles O15: bit 0 of a green-swap write decides whether the refusal mark is set; the other writes are ignored. -/
theorem ignoredWritesAndGreenswap : Obligations.IgnoredWritesAndGreenswap := by
  intro v s
  refine ⟨rfl, rfl, rfl, ?_⟩
  rw [exec, execWGreenswap, State.onPpu, Ppu.writeGreenswap, bit]
  split <;> rfl

/-! ## The bits a register stores (10_state.md R23) -/

/-- The bits of a halfword that its register stores. -/
def HalfReg.storedMask : HalfReg → Half
  | .greenswap | .vcount | .unused04E | .unused056 => 0
  | .dispstat => 0xFF38
  | .bgcnt .bg0 | .bgcnt .bg1 => 0xDFFF
  | .bghofs _ | .bgvofs _ => (BitVec.allOnes 9).setWidth 16
  | .bgxH _ | .bgyH _ => (BitVec.allOnes 12).setWidth 16
  | .winin | .winout => 0x3F3F
  | .bldcnt => 0x3FFF
  | .bldalpha => 0x1F1F
  | .bldy => (BitVec.allOnes 5).setWidth 16
  | _ => BitVec.allOnes 16

/-- Narrowing a halfword to its low bits and widening it again masks it. -/
theorem setWidth_setWidth_eq_and {w : Nat} (v : Half) :
    (v.setWidth w).setWidth 16 = v &&& (BitVec.allOnes w).setWidth 16 := by
  ext i hi
  simp [hi, Bool.and_comm]

/-- A widened value has no bit above its own width. -/
theorem setWidth_and_allOnes {w : Nat} (x : BitVec w) :
    x.setWidth 16 &&& (BitVec.allOnes w).setWidth 16 = x.setWidth 16 := by
  rw [← BitVec.setWidth_and, BitVec.and_allOnes]

/-- A value with none of the bits of `drop` is unchanged by a mask that keeps all the others. -/
theorem and_eq_self_of_dropped {x drop keep : Half} (hx : x &&& drop = 0) (hk : keep = ~~~drop) : x &&& keep = x :=
  calc x &&& keep = x &&& drop ||| x &&& ~~~drop := by rw [hx, hk]; exact BitVec.zero_or.symm
    _ = x := by rw [← BitVec.and_or_distrib_left, BitVec.or_not_self, BitVec.and_allOnes]

/-- A written low half is stored whole (41_register_access.md R171). -/
theorem refLow_low (old : S28) (v : Half) : (refLow old v).extractLsb' 0 16 = v := by
  rw [refLow, BitVec.extractLsb'_append_eq_of_add_le (by decide), BitVec.extractLsb'_eq_self]

/-- A written high half loses its bits 15:12 (41_register_access.md R171). -/
theorem refHigh_high (old : S28) (v : Half) : (refHigh old v).extractLsb' 16 12 = v.setWidth 12 := by
  rw [refHigh, BitVec.extractLsb'_append_eq_of_le (by decide), BitVec.extractLsb'_eq_self,
    BitVec.setWidth_eq_extractLsb' (by decide)]

/-- After a register write the stored halfword is the written value in the bits the register stores. -/
theorem Ppu_writeReg_storedHalf (P : Params) (r : HalfReg) (v : Half) (p : Ppu) :
    (p.writeReg P r v).regs.stored r = v &&& r.storedMask := by
  cases r
  case dispcnt =>
    rw [Ppu.writeReg, Ppu_writeDispcnt_eq]
    exact BitVec.and_allOnes.symm
  case greenswap | vcount | unused04E | unused056 => exact BitVec.and_zero.symm
  case bgcnt i => cases i <;> first | rfl | exact BitVec.and_allOnes.symm
  case bghofs i =>
    rw [HalfReg.storedMask, ← setWidth_setWidth_eq_and, Ppu.writeReg, Ppu.writeBghofs, Regs.stored, PerBg_get_set_self]
  case bgvofs i =>
    rw [HalfReg.storedMask, ← setWidth_setWidth_eq_and, Ppu.writeReg, Ppu.writeBgvofs, Regs.stored, PerBg_get_set_self]
  case bgpa b | bgpb b | bgpc b | bgpd b => exact (PerAff_get_set_self _ b v).trans BitVec.and_allOnes.symm
  case bgxL b =>
    rw [Ppu.writeReg, Ppu.writeBgxL, Ppu_storeBgx_eq, Regs.stored, PerAff_get_set_self, refLow_low]
    exact BitVec.and_allOnes.symm
  case bgyL b =>
    rw [Ppu.writeReg, Ppu.writeBgyL, Ppu_storeBgy_eq, Regs.stored, PerAff_get_set_self, refLow_low]
    exact BitVec.and_allOnes.symm
  case bgxH b =>
    rw [Ppu.writeReg, Ppu.writeBgxH, Ppu_storeBgx_eq, Regs.stored, PerAff_get_set_self, refHigh_high]
    exact setWidth_setWidth_eq_and v
  case bgyH b =>
    rw [Ppu.writeReg, Ppu.writeBgyH, Ppu_storeBgy_eq, Regs.stored, PerAff_get_set_self, refHigh_high]
    exact setWidth_setWidth_eq_and v
  case bldy => exact setWidth_setWidth_eq_and v
  case dispstat | winin | winout | bldcnt | bldalpha => rfl
  case win0h | win1h | win0v | win1v | mosaic => exact BitVec.and_allOnes.symm

/-- Where only stored bits are set, the mask changes nothing. -/
theorem Regs_stored_and_mask {r : Regs} (h : r.Stored) (reg : HalfReg) :
    r.stored reg &&& reg.storedMask = r.stored reg := by
  cases reg
  case greenswap | vcount | unused04E | unused056 => exact BitVec.and_zero
  case dispstat => exact and_eq_self_of_dropped h.dispstat rfl
  case bgcnt i =>
    cases i
    case bg0 => exact and_eq_self_of_dropped h.bg0cnt rfl
    case bg1 => exact and_eq_self_of_dropped h.bg1cnt rfl
    case bg2 | bg3 => exact BitVec.and_allOnes
  case winin => exact and_eq_self_of_dropped h.winin rfl
  case winout => exact and_eq_self_of_dropped h.winout rfl
  case bldcnt => exact and_eq_self_of_dropped h.bldcnt rfl
  case bldalpha => exact and_eq_self_of_dropped h.bldalpha rfl
  case bghofs | bgvofs | bgxH | bgyH | bldy => exact setWidth_and_allOnes _
  all_goals exact BitVec.and_allOnes

/-! ## The byte that a byte write does not address -/

/-- A write at an even offset keeps the high byte, where the mask changes nothing of the halfword merged with. -/
theorem mergeByte_and_mask_even {o : Nat} (ho : o % 2 = 0) (v : Byte) {old mask : Half} (h : old &&& mask = old) :
    (mergeByte old o v &&& mask).extractLsb' 8 8 = old.extractLsb' 8 8 := by
  rw [mergeByte, if_pos ho, BitVec.extractLsb'_and, BitVec.extractLsb'_append_eq_of_le (by decide),
    BitVec.extractLsb'_eq_self, ← BitVec.extractLsb'_and, h]

/-- A write at an odd offset keeps the low byte, where the mask changes nothing of the halfword merged with. -/
theorem mergeByte_and_mask_odd {o : Nat} (ho : ¬o % 2 = 0) (v : Byte) {old mask : Half} (h : old &&& mask = old) :
    (mergeByte old o v &&& mask).extractLsb' 0 8 = old.extractLsb' 0 8 := by
  rw [mergeByte, if_neg ho, BitVec.extractLsb'_and, BitVec.extractLsb'_append_eq_of_add_le (by decide),
    BitVec.extractLsb'_eq_self, ← BitVec.extractLsb'_and, h]

/-- After a byte write the stored halfword at the even offset is the merged one, in the bits the register stores. -/
theorem Ppu_write8_storedTable {o : Nat} (ho : o < 0x058) (P : Params) (v : Byte) {p : Ppu} (h : p.regs.Stored) :
    ∃ mask, p.regs.storedTable (evenOffset o) &&& mask = p.regs.storedTable (evenOffset o) ∧
      (p.write8 P o v).regs.storedTable (evenOffset o) =
        mergeByte (p.regs.storedTable (evenOffset o)) o v &&& mask := by
  obtain ⟨r, hr⟩ := HalfReg_ofOffset_some (evenOffset_inBlock ho) (evenOffset_even o)
  refine ⟨r.storedMask, ?_, ?_⟩
  · rw [← Regs_stored_table hr, Regs_stored_and_mask h]
  · rw [Ppu_write8_eq ho, Ppu.write16, hr, ← Regs_stored_table hr, Ppu_writeReg_storedHalf]

/-- Settles O19: the written halfword is the merge, less bits that are not stored and that the state does not hold. -/
theorem byteWriteKeepsTheOtherByte : Obligations.ByteWriteKeepsTheOtherByte := by
  intro o v s hwf hstored
  have hin : o.toNat < 0x058 := of_decide_eq_true hwf
  obtain ⟨mask, hmask, hwritten⟩ := Ppu_write8_storedTable hin Config.params v hstored
  refine ⟨_, rfl, ?_⟩
  rw [State_onPpu_ppu]
  split
  case isTrue heven =>
    rw [evenOffset, heven, Nat.sub_zero] at hmask hwritten
    rw [hwritten, mergeByte_and_mask_even heven v hmask]
  case isFalse hodd =>
    have heven : evenOffset o.toNat = o.toNat - 1 := congrArg (o.toNat - ·) (Nat.mod_two_ne_zero.mp hodd)
    rw [heven] at hmask hwritten
    rw [hwritten, mergeByte_and_mask_odd hodd v hmask]

/-! ## The frame of a register write -/

/-- An operation whose word has a kind other than 00 is no register write (30_encoding.md R108). -/
theorem not_isRegisterWrite {i : Instr} {k c : BitVec 2} {l : BitVec 10} (hi : (encode i).1 = opWord k c l) (hk : k ≠ 0) :
    ¬IsRegisterWrite i := by
  rw [IsRegisterWrite, hi, owKind_opWord]
  exact fun h => hk (BitVec.eq_of_toNat_eq h)

/-- A register write draws nothing, so it is no register read (notes/assumptions/6.md). -/
theorem exec_registerWrite_draws {i : Instr} (hi : IsRegisterWrite i) {s t : State} (h : exec i s = .next t) :
    t.draws = s.draws := by
  cases i
  case r8 | r16 | r32 | tick => exact absurd hi (not_isRegisterWrite rfl (by decide))
  all_goals cases h; rfl

/-- A register write of any width is a run of halfword register writes. -/
theorem exec_registerWrite_run {i : Instr} (hi : IsRegisterWrite i) (s : State) :
    ∃ ws : List (HalfReg × Half),
      exec i s = .next (s.onPpu fun p => ws.foldl (fun q w => q.writeReg Config.params w.1 w.2) p) := by
  obtain hrun | ⟨v, hread⟩ | rfl | ⟨l, rfl⟩ | ⟨l, rfl⟩ | ⟨x, e, rfl⟩ | rfl := exec_cases i s
  · exact hrun
  · exact absurd (exec_registerWrite_draws hi hread) (Nat.succ_ne_self s.draws)
  all_goals exact absurd hi (not_isRegisterWrite rfl (by decide))

/-- Settles O20: each halfword write of the run keeps the rest of the block, and nothing outside the block is written. -/
theorem registerWritesKeepTheRest : Obligations.RegisterWritesKeepTheRest := by
  intro i s hi
  obtain ⟨ws, hrun⟩ := exec_registerWrite_run hi s
  exact ⟨_, hrun, Ppu_writes_regWritten Config.params ws s.ppu, ⟨rfl, rfl, rfl, rfl, rfl, rfl, rfl, rfl⟩⟩

end Sys2Proof.Machine
end

