-- ==== Sys2Proof/Proofs/RegisterReads.lean ====
section
/-! PROOFS. What a register read returns (41_register_access.md section 2): the read table by offset, its bytes and its words.
A read changes the handed-over result and the draw counter alone. -/

namespace Sys2Proof.Machine

/-- No halfword of the block lies at an odd offset (30_encoding.md R90). -/
theorem HalfReg_ofOffset_odd {o : Nat} (ho : ¬o % 2 = 0) : HalfReg.ofOffset o = none := by
  unfold HalfReg.ofOffset
  split <;> first | rfl | exact absurd rfl ho

/-- The read table says what the halfword at an offset reads as; where the block has no halfword it has no entry. -/
theorem Ppu_readTable_eq (p : Ppu) (o : Nat) : p.readTable o = (HalfReg.ofOffset o).bind p.readReg := by
  unfold HalfReg.ofOffset
  split
  case h_45 => -- no offset of the map
    simp (disch := assumption) only [Ppu.readTable, if_neg, Option.bind_none]
  all_goals rfl

/-- READ16 is the read table's value, or the operation's OPEN_BUS draw. -/
theorem State_read16_eq (s : State) (slot : BusSlot) (o : Nat) :
    s.ppu.read16 Config.params s.draws slot o = s.tableRead slot o := by
  rw [State.tableRead, Ppu_readTable_eq, Ppu.read16]
  split
  case h_1 r hr => rw [hr, Option.bind_some]
  case h_2 hnone => rw [hnone, Option.bind_none, Option.getD_none]

theorem State_tableRead_odd (s : State) (slot : BusSlot) {o : Nat} (ho : ¬o % 2 = 0) :
    s.tableRead slot o = Config.params.openBus s.draws slot := by
  rw [State.tableRead, Ppu_readTable_eq, HalfReg_ofOffset_odd ho, Option.bind_none, Option.getD_none]

/-- Settles O21: READ16 is the table's value; at an odd offset the table has none. -/
theorem halfwordReadReturnsTheTable : Obligations.HalfwordReadReturnsTheTable := by
  intro o s _
  rw [exec, execR16, State_read16_eq, State.answerRead]
  split
  case isTrue => rfl
  case isFalse hodd => rw [State_tableRead_odd s .low hodd]

/-- Settles O22: the byte is selected from READ16 at the even offset. -/
theorem byteReadReturnsTheAddressedByte : Obligations.ByteReadReturnsTheAddressedByte := by
  intro o s _
  rw [exec, execR8, Ppu.read8, State_read16_eq, State.answerRead, selectByte, evenOffset]
  split
  case isTrue heven => rw [heven, Nat.sub_zero]
  case isFalse hodd => rw [Nat.mod_two_ne_zero.mp hodd]

/-- A word made of two halfwords, as a number. -/
theorem append_halves_toNat (hi lo : Half) : (hi ++ lo : OpWord).toNat = lo.toNat + 65536 * hi.toNat := by
  rw [BitVec.toNat_append, ← Nat.shiftLeft_add_eq_or_of_lt lo.isLt, Nat.shiftLeft_eq]
  omega

/-- Settles O23: the word is READ16 at the offset and, above it, READ16 at the next even offset. -/
theorem wordReadReturnsBothHalves : Obligations.WordReadReturnsBothHalves := by
  intro o s hwf
  simp only [Instr.wellFormed, offsetWordAligned, Bool.and_eq_true, decide_eq_true_eq] at hwf
  obtain ⟨-, haligned⟩ := hwf
  refine ⟨s.tableRead .high (o.toNat + 2) ++ s.tableRead .low o.toNat, ?_, append_halves_toNat _ _⟩
  rw [exec, execR32, Ppu.read32, if_pos haligned, State_read16_eq, State_read16_eq, State.answerRead]

/-- Settles O24: the read value is its fields side by side, and bit `k` lies in one of them. -/
theorem dispstatReadsFlagsAndStoredBits : Obligations.DispstatReadsFlagsAndStoredBits := by
  intro p k hk
  simp only [Ppu.dispstatRead, BitVec.getLsbD_append, BitVec.getLsbD_extractLsb']
  interval_cases k <;> simp

end Sys2Proof.Machine
end

