-- ==== Sys2Proof/Proofs/BackgroundSampling.lean ====
section
/-! PROOFS. What a background layer samples (42_background_sampling.md): a text layer by its map entry, an affine layer by its
texel, a bitmap by its pixel. A coordinate enters a sample through its mosaic cell, and an affine or bitmap layer is a
rectangle that a source coordinate is inside or outside of. -/

namespace Sys2Proof.Machine

/-! ## Mosaic (42_background_sampling.md R203) -/

/-- The start of a mosaic cell is the cell's number times its size. -/
theorem snap_eq_mul_div (cell v : Nat) : snap cell v = cell * (v / cell) :=
  Nat.mul_div_self_eq_mod_sub_self.symm

/-- So it depends on the cell alone. -/
theorem snap_eq_of_div_eq {cell v v' : Nat} (h : v / cell = v' / cell) : snap cell v = snap cell v' := by
  rw [snap_eq_mul_div, snap_eq_mul_div, h]

/-! ## Text layers -/

/-- A text layer samples by its mosaic coordinates alone (42_background_sampling.md R205). -/
theorem sampleText_congr_mosaic {r : Regs} {i : BgId} {x x' y y' : Nat} (hx : r.mosaicX i x = r.mosaicX i x')
    (hy : r.mosaicY i y = r.mosaicY i y') (P : Params) (n : Nat) (m : Memory) :
    sampleText P n m r i x y = sampleText P n m r i x' y' := by
  rw [sampleText, sampleText, hx, hy]

/-- Settles O47: with the mosaic bit set, both mosaic coordinates are snapped, and a snapped coordinate names its cell. -/
theorem mosaicCellSamplesItsTopLeftPixel : Obligations.MosaicCellSamplesItsTopLeftPixel := by
  intro P n m r i x x' y y' hmosaic hx hy
  have hon : r.bgMosaic i = true := hmosaic
  refine sampleText_congr_mosaic ?_ ?_ P n m
  · rw [Regs.mosaicX, Regs.mosaicX, if_pos hon, if_pos hon]
    exact snap_eq_of_div_eq hx
  · rw [Regs.mosaicY, Regs.mosaicY, if_pos hon, if_pos hon]
    exact snap_eq_of_div_eq hy

/-- Settles O48: the statement writes out `sampleText`, with each field as its bits and each read with its draw. -/
theorem textSampleReadsTheAddressedTexel : Obligations.TextSampleReadsTheAddressedTexel :=
  fun _ _ _ _ _ _ _ => rfl

/-! ## Samples -/

/-- A byte used as its own palette index is transparent exactly at 0 (42_background_sampling.md R221). -/
theorem Memory.paletteSample_byte (m : Memory) (k : Byte) :
    m.paletteSample k.toNat k.toNat = if k = 0 then .transparent else .solid (m.bgColor k.toNat) := by
  have hzero : k.toNat = 0 ↔ k = 0 := BitVec.toNat_inj (y := 0)
  simp only [Memory.paletteSample, hzero]

/-- A sample that is opaque under a condition is transparent exactly without it. -/
theorem solidIf_eq_transparent {p : Prop} [Decidable p] {c : Color15} :
    (if p then Sample.solid c else .transparent) = .transparent ↔ ¬p := by
  simp only [ite_eq_right_iff, reduceCtorEq, imp_false]

/-- Where such a sample is opaque, it has the one colour given. -/
theorem eq_of_solidIf_eq_solid {p : Prop} [Decidable p] {c d : Color15}
    (h : (if p then Sample.solid c else .transparent) = .solid d) : d = c := by
  split at h
  · exact (Sample.solid.inj h).symm
  · cases h

/-! ## Inside and outside -/

/-- There is a pixel exactly inside the bitmap, and it is the source coordinate. -/
theorem bitmapPixel_eq (w h : Nat) (t : Int × Int) :
    bitmapPixel w h t =
      if 0 ≤ t.1 ∧ t.1 < w ∧ 0 ≤ t.2 ∧ t.2 < h then some (t.1.toNat, t.2.toNat) else none := by
  have hout : (t.1 < 0 ∨ w ≤ t.1 ∨ t.2 < 0 ∨ h ≤ t.2) ↔ ¬(0 ≤ t.1 ∧ t.1 < w ∧ 0 ≤ t.2 ∧ t.2 < h) := by omega
  simp only [bitmapPixel, hout, ite_not]

/-- Without WRAP an affine layer has a texel where a bitmap of its size has a pixel (42_background_sampling.md R212). -/
theorem affineTexel_false (S : Nat) (t : Int × Int) : affineTexel false S t = bitmapPixel S S t := rfl

/-- The texel of an affine layer is the coordinate modulo the side, but for overflow without WRAP: inside the layer the modulo
changes nothing (42_background_sampling.md R212). -/
theorem affineTexel_eq (wrap : Bool) (S : Nat) (t : Int × Int) :
    affineTexel wrap S t =
      if wrap = false ∧ ¬(0 ≤ t.1 ∧ t.1 < S ∧ 0 ≤ t.2 ∧ t.2 < S) then none
      else some ((t.1 % S).toNat, (t.2 % S).toNat) := by
  cases wrap with
  | true => rfl
  | false =>
    rw [affineTexel_false, bitmapPixel_eq]
    by_cases hin : 0 ≤ t.1 ∧ t.1 < S ∧ 0 ≤ t.2 ∧ t.2 < S
    · have ⟨hx0, hxS, hy0, hyS⟩ := hin
      rw [if_pos hin, if_neg (not_and_not_right.mpr fun _ => hin), Int.emod_eq_of_lt hx0 hxS, Int.emod_eq_of_lt hy0 hyS]
    · rw [if_neg hin, if_pos ⟨rfl, hin⟩]

/-! ## Bitmaps (42_background_sampling.md R211, R215-R217) -/

/-- Flooring finds the texel, 256 steps wide, that a source coordinate lies in (42_background_sampling.md R211). -/
theorem texel_floor (a : Int) : 256 * (a / 256) ≤ a ∧ a < 256 * (a / 256 + 1) := by
  omega

/-- A bitmap3 sample is the halfword of the pixel, which stands inside the bitmap alone. -/
theorem sampleBitmap3_eq (m : Memory) (l : LineLatch) (x : Nat) :
    sampleBitmap3 m l x =
      if 0 ≤ (l.coord x).1 ∧ (l.coord x).1 < 240 ∧ 0 ≤ (l.coord x).2 ∧ (l.coord x).2 < 160 then
        .solid ((m.readHalf .vram (2 * (240 * (l.coord x).2.toNat + (l.coord x).1.toNat))).extractLsb' 0 15)
      else .transparent := by
  rw [sampleBitmap3, bitmapPixel_eq, Nat.cast_ofNat, Nat.cast_ofNat, ← BitVec.setWidth_eq_extractLsb' (by decide)]
  split_ifs <;> rfl

/-- A bitmap5 sample is the halfword of the displayed frame's pixel, which stands inside the bitmap alone. -/
theorem sampleBitmap5_eq (m : Memory) (r : Regs) (l : LineLatch) (x : Nat) :
    sampleBitmap5 m r l x =
      if 0 ≤ (l.coord x).1 ∧ (l.coord x).1 < 160 ∧ 0 ≤ (l.coord x).2 ∧ (l.coord x).2 < 128 then
        .solid ((m.readHalf .vram
          (r.frameBase + 2 * (160 * (l.coord x).2.toNat + (l.coord x).1.toNat))).extractLsb' 0 15)
      else .transparent := by
  rw [sampleBitmap5, bitmapPixel_eq, Nat.cast_ofNat, Nat.cast_ofNat, ← BitVec.setWidth_eq_extractLsb' (by decide)]
  split_ifs <;> rfl

/-- A bitmap4 sample is the palette colour of the displayed frame's byte, inside the bitmap and at an index other than 0. -/
theorem sampleBitmap4_eq (m : Memory) (r : Regs) (l : LineLatch) (x : Nat) :
    sampleBitmap4 m r l x =
      if (0 ≤ (l.coord x).1 ∧ (l.coord x).1 < 240 ∧ 0 ≤ (l.coord x).2 ∧ (l.coord x).2 < 160) ∧
          m.readByte .vram (r.frameBase + 240 * (l.coord x).2.toNat + (l.coord x).1.toNat) ≠ 0 then
        .solid (m.bgColor (m.readByte .vram (r.frameBase + 240 * (l.coord x).2.toNat + (l.coord x).1.toNat)).toNat)
      else .transparent := by
  rw [ite_and, ite_not, ← Memory.paletteSample_byte, sampleBitmap4, bitmapPixel_eq, Nat.cast_ofNat, Nat.cast_ofNat]
  split_ifs <;> rfl

/-- Settles O49: each bitmap is opaque under one condition, which its transparency negates, and then has one colour. -/
theorem bitmapTransparency : Obligations.BitmapTransparency := by
  refine ⟨fun l x => ?_, fun m r l x => ?_⟩
  · rw [LineLatch.coord, snap_eq_mul_div]
    exact and_assoc.mp ⟨texel_floor _, texel_floor _⟩
  · rw [sampleBitmap3_eq, sampleBitmap4_eq, sampleBitmap5_eq]
    refine ⟨solidIf_eq_transparent, solidIf_eq_transparent, ?_,
      fun _ h => eq_of_solidIf_eq_solid h, fun _ h => eq_of_solidIf_eq_solid h, fun _ h => ?_⟩
    · rw [solidIf_eq_transparent, not_and_or, not_not]
      rfl
    · rw [eq_of_solidIf_eq_solid h, Memory.bgColor, BitVec.setWidth_eq_extractLsb' (by decide)]
      rfl

/-! ## Affine layers (42_background_sampling.md R212) -/

/-- A wrapped coordinate lies in the layer, and is the coordinate modulo the side. -/
theorem toNat_emod_side {S : Nat} (hS : 0 < S) (a : Int) : (a % S).toNat < S ∧ ((a % S).toNat : Int) = a % S := by
  have hnonneg : 0 ≤ a % S := Int.emod_nonneg a (by omega)
  have hlt : a % S < S := Int.emod_lt_of_pos a (by omega)
  omega

/-- An affine sample is transparent on overflow, and else the palette sample of its texel's character byte. -/
theorem sampleAffine_eq (P : Params) (n : Nat) (m : Memory) (r : Regs) (l : LineLatch) (i : BgId) (x : Nat) :
    sampleAffine P n m r l i x =
      if r.wrap i = false ∧ ¬(0 ≤ (l.coord x).1 ∧ (l.coord x).1 < r.affS i ∧
          0 ≤ (l.coord x).2 ∧ (l.coord x).2 < r.affS i) then .transparent
      else
        let tx := ((l.coord x).1 % r.affS i).toNat
        let ty := ((l.coord x).2 % r.affS i).toNat
        let t := (bgVramByte P n m i .mapRead (r.mapBase i + ty / 8 * (r.affS i / 8) + tx / 8)).toNat
        let k := (bgVramByte P n m i .charRead (r.charBase i + 64 * t + 8 * (ty % 8) + tx % 8)).toNat
        m.paletteSample k k := by
  rw [sampleAffine, affineTexel_eq]
  split_ifs <;> rfl

/-- An affine layer samples by its own latch (42_background_sampling.md R220, 10_state.md R26). -/
theorem Ppu_sampleBg_affine {p : Ppu} {b : AffId} (hkind : p.kindOf b.toBg = .affine) (P : Params) (n : Nat) (m : Memory)
    (x y : Nat) : p.sampleBg P n m b.toBg x y = sampleAffine P n m p.regs (p.latch.get b) b.toBg x := by
  rw [Ppu.sampleBg, hkind]
  cases b <;> rfl

/-- Settles O50: the layer's texel is `affineTexel_eq`'s, and its character byte is its palette index. -/
theorem affineWrapAndOverflow : Obligations.AffineWrapAndOverflow := by
  refine ⟨fun S c hS => ⟨?_, ?_⟩, fun P n m p b x y hkind => ?_⟩
  · obtain ⟨hxlt, hx⟩ := toNat_emod_side hS c.1
    obtain ⟨hylt, hy⟩ := toNat_emod_side hS c.2
    exact ⟨_, _, rfl, hxlt, hylt, hx, hy⟩
  · rw [affineTexel_false, bitmapPixel_eq, ite_eq_right_iff]
    simp only [reduceCtorEq, imp_false]
  · intro bgcnt S c tx ty mapAt t charAt k
    rw [Ppu_sampleBg_affine hkind, sampleAffine_eq, ← Memory.paletteSample_byte]
    rfl

end Sys2Proof.Machine
end

