-- ==== Sys2Proof/Proofs/Windowing.lean ====
section
/-! PROOFS. The windows of a pixel (43_windowing.md): what each extent and each window covers, and the class and enable set that
follow. -/

namespace Sys2Proof.Machine

/-! ## Coverage (43_windowing.md R241-R243) -/

/-- An extent runs from its start to before its end; where the start is past the end it is the two outer parts. -/
theorem inExtent_iff (w : Half) (v : Nat) : inExtent w v = true ↔
    (if (w.extractLsb' 8 8).toNat ≤ (w.extractLsb' 0 8).toNat then
      (w.extractLsb' 8 8).toNat ≤ v ∧ v < (w.extractLsb' 0 8).toNat
    else (w.extractLsb' 8 8).toNat ≤ v ∨ v < (w.extractLsb' 0 8).toNat) := by
  have hstart : field w 15 8 = (w.extractLsb' 8 8).toNat := rfl
  have hend : field w 7 0 = (w.extractLsb' 0 8).toNat := rfl
  rw [inExtent, hstart, hend]
  split_ifs
  · rw [Bool.and_eq_true, decide_eq_true_iff, decide_eq_true_iff]
  · rw [Bool.or_eq_true, decide_eq_true_iff, decide_eq_true_iff]

theorem Regs.inWin0_iff (r : Regs) (x y : Nat) :
    r.inWin0 x y = true ↔ inExtent r.win0h x = true ∧ inExtent r.win0v y = true := by
  rw [Regs.inWin0, Bool.and_eq_true]

theorem Regs.inWin1_iff (r : Regs) (x y : Nat) :
    r.inWin1 x y = true ↔ inExtent r.win1h x = true ∧ inExtent r.win1v y = true := by
  rw [Regs.inWin1, Bool.and_eq_true]

/-- The object window is where the strip says so, and sprites as well as the object window must be enabled. -/
theorem Ppu.inObjWindow_iff (p : Ppu) (x : Nat) : p.inObjWindow x = true ↔
    p.regs.objWinEnable = true ∧ p.regs.objEnable = true ∧ (stripAt p.drawStrip x).objWin = true := by
  rw [Ppu.inObjWindow, Bool.and_eq_true, Bool.and_eq_true, and_assoc]

/-! ## The class of a pixel (43_windowing.md R244) -/

/-- No window is enabled, as the class tests it. -/
theorem Regs.noWindowEnabled_iff (r : Regs) : (!(r.win0Enable || r.win1Enable || r.objWinEnable)) = true ↔
    r.win0Enable = false ∧ r.win1Enable = false ∧ r.objWinEnable = false := by
  rw [Bool.not_eq_true', Bool.or_eq_false_iff, Bool.or_eq_false_iff, and_assoc]

/-- The class is that of the first enabled window that covers the pixel. -/
theorem Ppu.windowClass_eq (p : Ppu) (x y : Nat) : p.windowClass x y =
    if p.regs.win0Enable = false ∧ p.regs.win1Enable = false ∧ p.regs.objWinEnable = false then .none
    else if p.regs.win0Enable = true ∧ inExtent p.regs.win0h x = true ∧ inExtent p.regs.win0v y = true then .win0
    else if p.regs.win1Enable = true ∧ inExtent p.regs.win1h x = true ∧ inExtent p.regs.win1v y = true then .win1
    else if p.regs.objWinEnable = true ∧ p.regs.objEnable = true ∧ (stripAt p.drawStrip x).objWin = true then .objWin
    else .outside := by
  simp only [Ppu.windowClass, Regs.noWindowEnabled_iff, Bool.and_eq_true, Regs.inWin0_iff, Regs.inWin1_iff,
    Ppu.inObjWindow_iff]

/-! ## The enable set (43_windowing.md R245) -/

/-- The enable set of a pixel is that of its class. -/
theorem Ppu.enableSetAt_of_class {p : Ppu} {x y : Nat} {c : WindowClass} (h : p.windowClass x y = c) :
    p.enableSetAt x y = p.regs.enableSet c :=
  congrArg p.regs.enableSet h

/-- Settles O55: the extent rule, the class by the first covering window, and the enable set of each class. -/
theorem windowExtentAndPrecedence : Obligations.WindowExtentAndPrecedence :=
  ⟨inExtent_iff, Ppu.windowClass_eq, fun _ _ _ =>
    ⟨Ppu.enableSetAt_of_class, Ppu.enableSetAt_of_class, Ppu.enableSetAt_of_class, Ppu.enableSetAt_of_class,
      Ppu.enableSetAt_of_class⟩⟩

end Sys2Proof.Machine
end

