-- ==== Sys2Proof/Proofs/LayerPriority.lean ====
section
/-! PROOFS. First and second place at a pixel (44_compositing_blending.md section 1): among the backgrounds by the loop over
the layers, then with the sprite. -/

namespace Sys2Proof.Machine

/-! ## The loop over the backgrounds (44_compositing_blending.md R263) -/

/-- Layers in ascending index: one more turn of the loop adds one layer to those seen. -/
theorem BgId_toNat_lt_succ_iff (i j : BgId) : i.toNat < j.toNat + 1 ↔ i.toNat < j.toNat ∨ i = j := by
  cases i <;> cases j <;> decide

theorem BgId_toNat_lt_four (i : BgId) : i.toNat < 4 := by
  cases i <;> decide

/-- Layer `i` is selected and opaque in colour `c` at the pixel. -/
def Ppu.Shows (P : Params) (n : Nat) (m : Memory) (p : Ppu) (e : BitVec 6) (x y : Nat) (i : BgId) (c : Color15) : Prop :=
  p.bgSelected e i = true ∧ p.sampleBg P n m i x y = .solid c

/-- Layer `i` goes before layer `j`: at a lower priority value, or at an equal one by its index. -/
def Regs.Before (r : Regs) (i j : BgId) : Prop :=
  r.bgPrio i < r.bgPrio j ∨ r.bgPrio i = r.bgPrio j ∧ i.toNat ≤ j.toNat

theorem Regs.Before.refl (r : Regs) (i : BgId) : r.Before i i := .inr ⟨rfl, le_rfl⟩

theorem Regs.Before.trans {r : Regs} {i j k : BgId} (hij : r.Before i j) (hjk : r.Before j k) : r.Before i k := by
  unfold Regs.Before at *
  omega

/-- A layer of lower index goes before another that has no strictly lower priority value. -/
theorem Regs.before_of_toNat_lt {r : Regs} {i j : BgId} (hlt : i.toNat < j.toNat) (hprio : ¬r.bgPrio j < r.bgPrio i) :
    r.Before i j := by
  unfold Regs.Before
  omega

/-- Every background is in front of the backdrop (44_compositing_blending.md R261, R262). -/
theorem Regs.bgPrio_lt_backdrop (r : Regs) (i : BgId) (m : Memory) : r.bgPrio i < (backdrop m).prio :=
  ((r.bgcnt.get i).extractLsb 1 0).isLt

/-- The record of layer `i` in colour `c` (44_compositing_blending.md R263). -/
def Regs.bgLayer (r : Regs) (i : BgId) (c : Color15) : Layer := ⟨.bg i, r.bgPrio i, c, false⟩

theorem TopTwo.addBg_first {t : TopTwo} {l : Layer} (h : l.prio < t.first.prio) : t.addBg l = ⟨l, t.first⟩ := if_pos h

theorem TopTwo.addBg_second {t : TopTwo} {l : Layer} (h : ¬l.prio < t.first.prio) (h' : l.prio < t.second.prio) :
    t.addBg l = ⟨t.first, l⟩ := by
  rw [TopTwo.addBg, if_neg h, if_pos h']

theorem TopTwo.addBg_neither {t : TopTwo} {l : Layer} (h : ¬l.prio < t.first.prio) (h' : ¬l.prio < t.second.prio) :
    t.addBg l = t := by
  rw [TopTwo.addBg, if_neg h, if_neg h']

/-- The loop's invariant: `t` holds the first two of the layers below index `k` that `shows` says are opaque, as many as
there are, and the backdrop in the places left over. -/
inductive Places (r : Regs) (m : Memory) (shows : BgId → Color15 → Prop) (k : Nat) : TopTwo → Prop where
  | none (hnone : ∀ i c, i.toNat < k → ¬shows i c) : Places r m shows k ⟨backdrop m, backdrop m⟩
  | one {j : BgId} {c : Color15} (hj : shows j c) (hjk : j.toNat < k)
      (honly : ∀ i d, i.toNat < k → shows i d → i = j) : Places r m shows k ⟨r.bgLayer j c, backdrop m⟩
  | two {j l : BgId} {c d : Color15} (hj : shows j c) (hl : shows l d) (hjk : j.toNat < k) (hlk : l.toNat < k)
      (hne : j ≠ l) (hfirst : r.Before j l) (hsecond : ∀ i b, i.toNat < k → shows i b → i = j ∨ r.Before l i) :
      Places r m shows k ⟨r.bgLayer j c, r.bgLayer l d⟩

section Loop
variable {r : Regs} {m : Memory} {shows : BgId → Color15 → Prop} {t : TopTwo} {i : BgId}

/-- What holds of the opaque layers seen so far holds of those seen after layer `i`, but for that layer itself. -/
theorem opaque_seen_succ {Q : BgId → Prop} (h : ∀ j c, j.toNat < i.toNat → shows j c → Q j) (j : BgId) (c : Color15)
    (hlt : j.toNat < i.toNat + 1) (hj : shows j c) : Q j ∨ j = i :=
  ((BgId_toNat_lt_succ_iff j i).mp hlt).imp_left (h j c · hj)

/-- A layer that is not opaque takes no place. -/
theorem Places.succ_of_not_shows (h : Places r m shows i.toNat t) (hi : ∀ c, ¬shows i c) :
    Places r m shows (i.toNat + 1) t := by
  have hseen : ∀ j c, j.toNat < i.toNat + 1 → shows j c → j.toNat < i.toNat := fun j c hlt hj =>
    (BgId_toNat_lt_succ_iff j i).mp hlt |>.resolve_right fun heq => hi c (heq ▸ hj)
  cases h with
  | none hnone => exact .none fun j c hlt hj => hnone j c (hseen j c hlt hj) hj
  | one hj hjk honly => exact .one hj (by omega) fun l d hlt hl => honly l d (hseen l d hlt hl) hl
  | two hj hl hjk hlk hne hfirst hsecond =>
    exact .two hj hl (by omega) (by omega) hne hfirst fun a b hlt ha => hsecond a b (hseen a b hlt ha) ha

/-- An opaque layer takes the place it is strictly in front of; where it is not, the layer there has the lower index and goes
before it. -/
theorem Places.succ_of_shows {c : Color15} (h : Places r m shows i.toNat t) (hi : shows i c) :
    Places r m shows (i.toNat + 1) (t.addBg (r.bgLayer i c)) := by
  have hbd : (r.bgLayer i c).prio < (backdrop m).prio := r.bgPrio_lt_backdrop i m
  cases h with
  | none hnone =>
    rw [TopTwo.addBg_first hbd]
    exact .one hi i.toNat.lt_succ_self fun j d hlt hj => (opaque_seen_succ hnone j d hlt hj).resolve_left id
  | @one j d hj hji honly =>
    have hji' : j.toNat < i.toNat + 1 := Nat.lt_succ_of_lt hji
    have hne : i ≠ j := fun heq => hji.ne (heq ▸ rfl)
    by_cases hprio : r.bgPrio i < r.bgPrio j
    · rw [TopTwo.addBg_first hprio]
      refine .two hi hj i.toNat.lt_succ_self hji' hne (.inl hprio) fun a b hlt ha => ?_
      obtain rfl | rfl := opaque_seen_succ honly a b hlt ha
      · exact .inr (.refl r a)
      · exact .inl rfl
    · rw [TopTwo.addBg_second hprio hbd]
      refine .two hj hi hji' i.toNat.lt_succ_self hne.symm (Regs.before_of_toNat_lt hji hprio) fun a b hlt ha => ?_
      obtain rfl | rfl := opaque_seen_succ honly a b hlt ha
      · exact .inl rfl
      · exact .inr (.refl r a)
  | @two j l d b hj hl hji hli hjl hfirst hsecond =>
    have hji' : j.toNat < i.toNat + 1 := Nat.lt_succ_of_lt hji
    have hne : i ≠ j := fun heq => hji.ne (heq ▸ rfl)
    by_cases hprio : r.bgPrio i < r.bgPrio j
    · rw [TopTwo.addBg_first hprio]
      refine .two hi hj i.toNat.lt_succ_self hji' hne (.inl hprio) fun a b hlt ha => ?_
      obtain (rfl | hla) | rfl := opaque_seen_succ hsecond a b hlt ha
      · exact .inr (.refl r a)
      · exact .inr (hfirst.trans hla)
      · exact .inl rfl
    · by_cases hprio' : r.bgPrio i < r.bgPrio l
      · rw [TopTwo.addBg_second hprio hprio']
        refine .two hj hi hji' i.toNat.lt_succ_self hne.symm (Regs.before_of_toNat_lt hji hprio) fun a b hlt ha => ?_
        obtain (rfl | hla) | rfl := opaque_seen_succ hsecond a b hlt ha
        · exact .inl rfl
        · exact .inr (.trans (.inl hprio') hla)
        · exact .inr (.refl r a)
      · rw [TopTwo.addBg_neither hprio hprio']
        refine .two hj hl hji' (Nat.lt_succ_of_lt hli) hjl hfirst fun a b hlt ha => ?_
        obtain haj | rfl := opaque_seen_succ hsecond a b hlt ha
        · exact haj
        · exact .inr (Regs.before_of_toNat_lt hli hprio')

end Loop

/-- One turn of the loop keeps the invariant. -/
theorem Ppu.mergeBg_places {P : Params} {n : Nat} {m : Memory} {p : Ppu} {e : BitVec 6} {x y : Nat} {t : TopTwo}
    {i : BgId} (h : Places p.regs m (p.Shows P n m e x y) i.toNat t) :
    Places p.regs m (p.Shows P n m e x y) (i.toNat + 1) (p.mergeBg P n m e x y t i) := by
  rw [Ppu.mergeBg]
  split
  case isTrue hsel =>
    split
    case h_1 htransparent =>
      exact h.succ_of_not_shows fun c ⟨_, hsolid⟩ => Sample.noConfusion (htransparent.symm.trans hsolid)
    case h_2 c hsolid => exact h.succ_of_shows ⟨hsel, hsolid⟩
  case isFalse hsel => exact h.succ_of_not_shows fun c ⟨hsel', _⟩ => hsel hsel'

/-- After the loop the invariant holds of all four layers. -/
theorem Ppu.topBgs_places (P : Params) (n : Nat) (m : Memory) (p : Ppu) (e : BitVec 6) (x y : Nat) :
    Places p.regs m (p.Shows P n m e x y) 4 (p.topBgs P n m e x y) := by
  have hstart : Places p.regs m (p.Shows P n m e x y) BgId.bg0.toNat ⟨backdrop m, backdrop m⟩ :=
    .none fun i _ hlt => absurd hlt (Nat.not_lt_zero _)
  have h0 : Places p.regs m (p.Shows P n m e x y) BgId.bg1.toNat _ := mergeBg_places hstart
  have h1 : Places p.regs m (p.Shows P n m e x y) BgId.bg2.toNat _ := mergeBg_places h0
  have h2 : Places p.regs m (p.Shows P n m e x y) BgId.bg3.toNat _ := mergeBg_places h1
  exact mergeBg_places h2

section AllLayers
variable {r : Regs} {m : Memory} {shows : BgId → Color15 → Prop} {t : TopTwo} (h : Places r m shows 4 t)
include h

/-- With no layer opaque both places are the backdrop (44_compositing_blending.md R262). -/
theorem Places.eq_backdrop (hnone : ∀ i c, ¬shows i c) : t = ⟨backdrop m, backdrop m⟩ := by
  cases h with
  | none => rfl
  | one hj => exact absurd hj (hnone _ _)
  | two hj => exact absurd hj (hnone _ _)

/-- With at most one layer opaque second place is the backdrop (44_compositing_blending.md R262). -/
theorem Places.second_eq_backdrop {j : BgId} (honly : ∀ i c, shows i c → i = j) : t.second = backdrop m := by
  cases h with
  | none => rfl
  | one => rfl
  | two hj hl _ _ hne => exact absurd ((honly _ _ hj).trans (honly _ _ hl).symm) hne

/-- First place goes before every opaque layer, and second place before every other one. -/
theorem Places.exists_before {i : BgId} {c : Color15} (hi : shows i c) :
    ∃ j, shows j t.first.col ∧ t.first = r.bgLayer j t.first.col ∧ r.Before j i ∧
      (j ≠ i → ∃ k, k ≠ j ∧ shows k t.second.col ∧ t.second = r.bgLayer k t.second.col ∧ r.Before k i) := by
  cases h with
  | none hnone => exact absurd hi (hnone i c (BgId_toNat_lt_four i))
  | @one j _ hj _ honly =>
    obtain rfl := honly i c (BgId_toNat_lt_four i) hi
    exact ⟨i, hj, rfl, .refl r i, absurd rfl⟩
  | @two j l _ _ hj hl _ _ hne hfirst hsecond =>
    obtain rfl | hli := hsecond i c (BgId_toNat_lt_four i) hi
    · exact ⟨i, hj, rfl, .refl r i, absurd rfl⟩
    · exact ⟨j, hj, rfl, hfirst.trans hli, fun _ => ⟨l, hne.symm, hl, rfl, hli⟩⟩

end AllLayers

/-! ## Selection and sampling (42_background_sampling.md R200, R202, R220) -/

theorem Ppu.bgSelected_iff (p : Ppu) (e : BitVec 6) (i : BgId) :
    p.bgSelected e i = true ↔ p.kindOf i ≠ .absent ∧ p.bgActive.get i = true ∧ e.getLsbD i.toNat = true := by
  rw [Ppu.bgSelected, Bool.and_eq_true, Bool.and_eq_true, decide_eq_true_iff, and_assoc, bit]

/-- In mode 0 every layer is a text layer (42_background_sampling.md R200). -/
theorem layerKind_zero (i : BgId) : layerKind 0 i = .text := by
  cases i <;> rfl

theorem Ppu_latchOf_bg2 (p : Ppu) : p.latchOf .bg2 = p.latch.bg2 := rfl

/-- Settles O52: the loop's invariant after the last layer gives both places. -/
theorem frontBackgroundHasLowestPriorityValue : Obligations.FrontBackgroundHasLowestPriorityValue := by
  refine ⟨fun P n m p e x y => ?_, Ppu.bgSelected_iff, ⟨layerKind_zero, rfl, rfl, rfl, rfl, rfl⟩,
    fun P n m p x y => ?_⟩
  · have hplaces := p.topBgs_places P n m e x y
    exact ⟨fun i c hi => hplaces.exists_before hi, fun j honly => hplaces.second_eq_backdrop honly,
      fun hnone => hplaces.eq_backdrop hnone⟩
  · exact ⟨fun i h => by rw [Ppu.sampleBg, h], fun h => by rw [Ppu.sampleBg, h, Ppu_latchOf_bg2],
      fun h => by rw [Ppu.sampleBg, h, Ppu_latchOf_bg2], fun h => by rw [Ppu.sampleBg, h, Ppu_latchOf_bg2], fun _ => rfl⟩

/-! ## The sprite (44_compositing_blending.md R264) -/

/-- The condition of the sprite merge. -/
theorem Ppu.spriteMerges_iff (p : Ppu) (e : BitVec 6) (o : SpriteEntry) :
    (p.regs.objEnable && bit e 4 && o.isOpaque) = true ↔
      p.regs.dispcnt.getLsbD 12 = true ∧ e.getLsbD 4 = true ∧ o.isOpaque = true := by
  rw [Bool.and_eq_true, Bool.and_eq_true, and_assoc, Regs.objEnable, bit, bit]

/-- Settles O53: a sprite that merges is `spriteLayer`, and `addSprite` lets it win at an equal priority value. -/
theorem spriteWinsAtEqualPriority : Obligations.SpriteWinsAtEqualPriority := fun _ p e _ _ =>
  if_congr (p.spriteMerges_iff e _) rfl rfl

end Sys2Proof.Machine
end

