-- ==== Sys2Proof/Proofs/PixelColor.lean ====
section
/-! PROOFS. The colour of a pixel (44_compositing_blending.md sections 2 and 3): the arithmetic of the effects channel by
channel, which effect a pixel takes, and the composed pixel. -/

namespace Sys2Proof.Machine

/-! ## Channels (00_scope.md R13) -/

theorem red_le (c : Color15) : red c ≤ 31 := Nat.le_of_lt_succ (c.extractLsb 4 0).isLt
theorem green_le (c : Color15) : green c ≤ 31 := Nat.le_of_lt_succ (c.extractLsb 9 5).isLt
theorem blue_le (c : Color15) : blue c ≤ 31 := Nat.le_of_lt_succ (c.extractLsb 14 10).isLt

/-- A colour as a number: its channels are its digits to base 32. -/
theorem rgb_toNat {r g b : Nat} (hr : r ≤ 31) (hg : g ≤ 31) (hb : b ≤ 31) :
    (rgb r g b).toNat = r + 32 * g + 1024 * b := by
  have hdigits : (rgb r g b).toNat = (b % 32 * 32 + g % 32) * 32 + r % 32 := by
    rw [rgb, BitVec.toNat_append, BitVec.toNat_append, ← Nat.shiftLeft_add_eq_or_of_lt (BitVec.isLt _),
      ← Nat.shiftLeft_add_eq_or_of_lt (BitVec.isLt _), Nat.shiftLeft_eq, Nat.shiftLeft_eq, BitVec.toNat_ofNat,
      BitVec.toNat_ofNat, BitVec.toNat_ofNat]
  omega

/-- A channel of a colour put together from channels is that channel. -/
theorem red_rgb {r g b : Nat} (hr : r ≤ 31) (hg : g ≤ 31) (hb : b ≤ 31) : red (rgb r g b) = r := by
  rw [red, field, BitVec.extractLsb_toNat, rgb_toNat hr hg hb, Nat.shiftRight_eq_div_pow]
  omega
theorem green_rgb {r g b : Nat} (hr : r ≤ 31) (hg : g ≤ 31) (hb : b ≤ 31) : green (rgb r g b) = g := by
  rw [green, field, BitVec.extractLsb_toNat, rgb_toNat hr hg hb, Nat.shiftRight_eq_div_pow]
  omega
theorem blue_rgb {r g b : Nat} (hr : r ≤ 31) (hg : g ≤ 31) (hb : b ≤ 31) : blue (rgb r g b) = b := by
  rw [blue, field, BitVec.extractLsb_toNat, rgb_toNat hr hg hb, Nat.shiftRight_eq_div_pow]
  omega

section Channel
variable {ch : Color15 → Nat} (hch : ch = red ∨ ch = green ∨ ch = blue)
include hch

/-- An operation that stays within a channel acts on each channel alone. -/
theorem channel_zipChannels {f : Nat → Nat → Nat} (hf : ∀ a b, a ≤ 31 → b ≤ 31 → f a b ≤ 31) (c1 c2 : Color15) :
    ch (zipChannels f c1 c2) = f (ch c1) (ch c2) := by
  have hr := hf _ _ (red_le c1) (red_le c2)
  have hg := hf _ _ (green_le c1) (green_le c2)
  have hb := hf _ _ (blue_le c1) (blue_le c2)
  obtain rfl | rfl | rfl := hch
  · exact red_rgb hr hg hb
  · exact green_rgb hr hg hb
  · exact blue_rgb hr hg hb

theorem channel_mapChannels {f : Nat → Nat} (hf : ∀ a, a ≤ 31 → f a ≤ 31) (c : Color15) :
    ch (mapChannels f c) = f (ch c) :=
  channel_zipChannels hch (f := fun a _ => f a) (fun a _ ha _ => hf a ha) c c

/-- Alpha saturates at 31 (44_compositing_blending.md R272). -/
theorem channel_alpha (r : BlendRounding) (a b : Nat) (c1 c2 : Color15) :
    ch (alpha r a b c1 c2) = alphaChannel r a b (ch c1) (ch c2) := by
  refine channel_zipChannels hch (fun u v _ _ => ?_) c1 c2
  cases r
  · exact min_le_left ..
  · exact min_le_left ..

end Channel

/-- Brightening by at most 16 sixteenths adds at most what is missing to 31 (44_compositing_blending.md R273). -/
theorem brightenChannel_le {y c : Nat} (hy : y ≤ 16) (hc : c ≤ 31) : brightenChannel y c ≤ 31 := by
  have hadd : (31 - c) * y / 16 ≤ 31 - c := Nat.div_le_of_le_mul (Nat.mul_comm 16 _ ▸ Nat.mul_le_mul_left _ hy)
  rw [brightenChannel]
  omega

/-- Darkening only takes away (44_compositing_blending.md R274). -/
theorem darkenChannel_le {y c : Nat} (hc : c ≤ 31) : darkenChannel y c ≤ 31 :=
  (Nat.sub_le _ _).trans hc

/-- Settles O51: each effect's channel operation stays within 31, so it acts on each channel alone. -/
theorem effectsWorkChannelByChannel : Obligations.EffectsWorkChannelByChannel := fun c1 c2 a b _ hy _ hch =>
  ⟨channel_alpha hch .perTermFloor a b c1 c2, channel_alpha hch .sumThenFloor a b c1 c2,
    channel_mapChannels hch (fun _ => brightenChannel_le hy) c1, channel_mapChannels hch (fun _ => darkenChannel_le) c1⟩

/-! ## Which effect (44_compositing_blending.md R270, R271) -/

/-! ### The fields of BLDCNT, BLDALPHA and BLDY, as bits -/

theorem Regs.eva_eq (r : Regs) : r.eva = min (r.bldalpha.extractLsb' 0 5).toNat 16 := rfl

theorem Regs.evb_eq (r : Regs) : r.evb = min (r.bldalpha.extractLsb' 8 5).toNat 16 := rfl

/-- EVY is the whole of BLDY, clamped. -/
theorem Regs.evy_eq (r : Regs) : r.evy = min r.bldy.toNat 16 := by
  rw [Regs.evy, field, BitVec.extractLsb, BitVec.extractLsb'_eq_self]

theorem Regs.effect_eq (r : Regs) : r.effect = (r.bldcnt.extractLsb' 6 2).toNat := rfl

theorem effect_cases (v : BitVec 2) : v = 0 ∨ v = 1 ∨ v = 2 ∨ v = 3 := by
  revert v
  decide

theorem LayerId.targetBit_lt (id : LayerId) : id.targetBit < 6 := by
  cases id with
  | bg i => exact (BgId_toNat_lt_four i).trans (by decide)
  | obj => decide
  | bd => decide

/-- The first-target bit of a layer is its bit of BLDCNT. -/
theorem Regs.target1_targetBit (r : Regs) (id : LayerId) : r.target1 id.targetBit = r.bldcnt.getLsbD id.targetBit := by
  have hlt := id.targetBit_lt
  rw [Regs.target1, bit, BitVec.getLsbD_extractLsb, Nat.zero_add, decide_eq_true (by omega), Bool.true_and]

/-- The second-target bit of a layer is its bit of BLDCNT's upper byte. -/
theorem Regs.target2_targetBit (r : Regs) (id : LayerId) : r.target2 id.targetBit = r.bldcnt.getLsbD (8 + id.targetBit) := by
  have hlt := id.targetBit_lt
  rw [Regs.target2, bit, BitVec.getLsbD_extractLsb, decide_eq_true (by omega), Bool.true_and]

theorem forcedBlend_iff (P : Params) (r : Regs) (t : TopTwo) (e : Bool) : forcedBlend P r t e = true ↔
    t.first.id = .obj ∧ t.first.semi = true ∧ (e = true ∨ P.semiIgnoresWindowEffect = true) ∧
      (r.bldcnt.getLsbD (8 + t.second.id.targetBit) = true ∨ P.semiRequiresSecondTarget = false) := by
  simp only [forcedBlend, Regs.target2_targetBit, Bool.and_eq_true, Bool.or_eq_true, decide_eq_true_iff,
    Bool.not_eq_true', and_assoc]

/-- Settles O54: past the forced blend and the window's effect bit, one case for each value of BLDCNT.EFFECT. -/
theorem effectSelection : Obligations.EffectSelection := by
  intro P r t e
  refine if_congr (forcedBlend_iff P r t e) rfl (if_congr (Bool.not_eq_true' e).to_iff rfl ?_)
  rw [Regs.effect_eq, Regs.eva_eq, Regs.evb_eq, Regs.evy_eq, Regs.target1_targetBit, Regs.target2_targetBit]
  obtain hv | hv | hv | hv := effect_cases (r.bldcnt.extractLsb' 6 2)
  · simp [hv] -- none
  · simp [hv] -- alpha
  · simp [hv] -- brighten
  · simp [hv] -- darken

/-! ## The composed pixel (44_compositing_blending.md R280-R282) -/

/-- The reserved modes are those from 6 on. -/
theorem Regs.six_le_mode_iff (r : Regs) :
    6 ≤ r.mode ↔ r.dispcnt.extractLsb' 0 3 = 6 ∨ r.dispcnt.extractLsb' 0 3 = 7 := by
  have hvalues : ∀ v : BitVec 3, 6 ≤ v.toNat ↔ v = 6 ∨ v = 7 := by decide
  exact hvalues _

/-- Without forced blank the pixel is a draw or composed, by the mode. -/
theorem Ppu.pixelColor_of_shown {p : Ppu} (hblank : p.regs.dispcnt.getLsbD 7 = false) (P : Params) (n : Nat) (m : Memory)
    (x y : Nat) : p.pixelColor P n m x y =
      if 6 ≤ p.regs.mode then P.reservedModePixel n
      else effectColor P p.regs (p.topTwo P n m (p.enableSetAt x y) x y) ((p.enableSetAt x y).getLsbD 5) :=
  if_neg (Bool.eq_false_iff.mp hblank)

/-- After reset no layer is active and no sprite merges, so both places are the backdrop. -/
theorem Ppu_topTwo_reset (P : Params) (n : Nat) (m : Memory) (e : BitVec 6) (x y : Nat) :
    Ppu.reset.topTwo P n m e x y = ⟨backdrop m, backdrop m⟩ := by
  have hnone : ∀ i c, ¬Ppu.reset.Shows P n m e x y i c := by
    rintro i c ⟨hsel, -⟩
    obtain ⟨-, hactive, -⟩ := (Ppu.bgSelected_iff _ e i).mp hsel
    cases i <;> cases hactive
  exact (Ppu.topBgs_places P n m Ppu.reset e x y).eq_backdrop hnone

/-- The effect after reset is none, and the backdrop in front is no sprite. -/
theorem effectColor_reset_backdrop (P : Params) (m : Memory) (e : Bool) :
    effectColor P Regs.reset ⟨backdrop m, backdrop m⟩ e = m.bgColor 0 := by
  cases e <;> rfl

/-- Settles O56: past forced blank the mode decides; `topTwo` is the sprite merge into the backgrounds' two. -/
theorem forcedBlankIsWhiteAndResetShowsTheBackdrop : Obligations.ForcedBlankIsWhiteAndResetShowsTheBackdrop := by
  intro P n m p x y
  refine ⟨fun hblank => if_pos hblank, fun hblank hmode => ?_, fun hblank h6 h7 => ?_, ?_⟩
  · rw [Ppu.pixelColor_of_shown hblank, if_pos (p.regs.six_le_mode_iff.mpr hmode)]
  · rw [Ppu.pixelColor_of_shown hblank, if_neg (mt p.regs.six_le_mode_iff.mp (not_or.mpr ⟨h6, h7⟩)), Ppu.topTwo]
  · exact (congrArg (effectColor P Regs.reset · _) (Ppu_topTwo_reset P n m _ x y)).trans
      (effectColor_reset_backdrop P m _)

end Sys2Proof.Machine
end

