-- ==== Sys2Proof/Proofs/Exceptions.lean ====
section
/-! PROOFS. What stands in the place of exceptions (60_exceptions.md): every operation completes, a strip write sets one column
of the evaluation buffer, and a scheduled commit counts down to its delivery. -/

namespace Sys2Proof.Machine

/-! ## Completion -/

/-- Settles O38, by the kinds of operation: each of them answers a next state. -/
theorem everyOperationCompletes : Obligations.EveryOperationCompletes := by
  intro i s
  rcases exec_cases i s with ⟨ws, hi⟩ | ⟨v, hi⟩ | rfl | ⟨l, rfl⟩ | ⟨l, rfl⟩ | ⟨x, e, rfl⟩ | rfl
  · exact ⟨_, hi⟩
  · exact ⟨_, hi⟩
  · exact ⟨_, exec_tick_eq s⟩
  · exact ⟨_, rfl⟩
  · exact ⟨_, rfl⟩
  · exact ⟨_, rfl⟩
  · exact ⟨_, rfl⟩

/-! ## Strip writes -/

/-- A strip write at a column of the screen writes the evaluation buffer there (60_exceptions.md R320). -/
theorem exec_stripWrite_eq {x : BitVec 10} (hx : x.toNat < 240) (e : SpriteEntry) (s : State) :
    exec (.stripWrite x e) s =
      .next (s.onPpu fun p => p.setEvalStrip (Sparse.write SpriteEntry.empty p.evalStrip x.toNat e)) := by
  have hwrite : Ppu.stripWrite x.toNat e =
      fun p => p.setEvalStrip (Sparse.write SpriteEntry.empty p.evalStrip x.toNat e) := funext fun _ => if_pos hx
  exact congrArg (fun f => Host.Outcome.next (s.onPpu f)) hwrite

/-- Settles O35: the operation replaces the evaluation buffer alone, by the table in which one key is written. -/
theorem stripWriteSetsOneEvaluationColumn : Obligations.StripWriteSetsOneEvaluationColumn := by
  intro x e s hwf hcanonical
  refine ⟨_, exec_stripWrite_eq (of_decide_eq_true hwf) e s, rfl, ?_, fun y hy => ?_, ?_⟩
  · rw [State_onPpu_ppu, Ppu_setEvalStrip_evalStrip]
    exact Sparse.read_write_self hcanonical ..
  · rw [State_onPpu_ppu, Ppu_setEvalStrip_evalStrip]
    exact Sparse.read_write_ne e hy
  · rw [State_onPpu_ppu, Ppu_setEvalStrip_drawStrip]

/-! ## Scheduled commits -/

/-- Where no reset is due, the start of a tick keeps what is scheduled. -/
theorem State_beginTick_pending {s : State} (hdue : s.resetDue = false) : s.beginTick.pending = s.pending := by
  rw [State_beginTick_eq hdue, State_openCycle_pending]

/-- A cycle in which no reset is due brings a commit that is not due one cycle nearer (60_exceptions.md R302). -/
theorem State_schedulerCycle_mem_pending {s : State} {kind : CommitKind} {line k : Nat}
    (hpend : ⟨kind, line, k + 2⟩ ∈ s.pending) (hdue : s.resetDue = false) (P : Params) :
    ⟨kind, line, k + 1⟩ ∈ (s.schedulerCycle P).pending := by
  rw [State_schedulerCycle_pending, State_beginTick_pending hdue]
  have hstays : ⟨kind, line, k + 2⟩ ∈ s.pending.filter fun c => 1 < c.left :=
    List.mem_filter.mpr ⟨hpend, decide_eq_true (Nat.one_lt_succ_succ k)⟩
  exact List.mem_append_left _ (List.mem_map_of_mem (f := PendingCommit.countDown) hstays)

/-- A commit with `k + 1` cycles left is, after `k` cycles in none of which a reset is due, due in the next. -/
theorem State_cycles_mem_pending {s : State} {kind : CommitKind} {line k : Nat} (hpend : ⟨kind, line, k + 1⟩ ∈ s.pending)
    (hdue : ∀ j, j < k → (State.cycles j s).resetDue = false) : ⟨kind, line, 1⟩ ∈ (State.cycles k s).pending := by
  induction k generalizing s with
  | zero => exact hpend
  | succ k ih =>
    have hnow : s.resetDue = false := hdue 0 k.succ_pos
    exact ih (State_schedulerCycle_mem_pending hpend hnow Config.params) fun j hj => hdue (j + 1) (Nat.succ_lt_succ hj)

/-- Settles O57: the commit counts down cycle by cycle, and the last cycle, whose start keeps what is scheduled, delivers what is
due and keeps the rest. -/
theorem scheduledCommitRunsToCompletion : Obligations.ScheduledCommitRunsToCompletion := by
  intro k s kind line hpend hdue u t
  have hbegin : u.beginTick.pending = u.pending := State_beginTick_pending (hdue k le_rfl)
  obtain ⟨-, -, -, hdraws⟩ := State_beginTick_around u
  refine ⟨State_cycles_mem_pending hpend fun j hj => hdue j hj.le, ?_, ?_⟩
  · rw [← hbegin, ← hdraws]
    exact State_schedulerCycle_ppu Config.params u
  · rw [← hbegin]
    exact State_schedulerCycle_pending Config.params u

end Sys2Proof.Machine
end

