-- ==== Sys2Proof/Proofs/Reset.lean ====
section
/-! PROOFS. The hard reset (70_reset_and_hazards.md section 1): the values it gives the block, the machine right after it, and
the tick at which a standing request is served. -/

namespace Sys2Proof.Machine

/-! ## The reset block -/

/-- HARD_RESET gives the reset block and an empty delay pipeline, and leaves the rest (70_reset_and_hazards.md R330, R331). -/
theorem exec_hardReset_eq (s : State) :
    exec .hardReset s = .next { s with ppu := Ppu.reset, pending := [], handed := [], splitWrites := [] } := rfl

/-- After a reset no background is enabled and no enable delay runs. -/
theorem Ppu_reset_enable (i : BgId) : Ppu.reset.bgActive.get i = false ∧ Ppu.reset.bgCountdown.get i = 0 :=
  ⟨PerBg_get_const i false, PerBg_get_const i 0⟩

/-- After a reset the affine state of a layer is 0, with a mosaic cell of one column and no reload waiting. -/
theorem Ppu_reset_affine (b : AffId) :
    Ppu.reset.ix.get b = 0 ∧ Ppu.reset.iy.get b = 0 ∧ Ppu.reset.mix.get b = 0 ∧ Ppu.reset.miy.get b = 0 ∧
      Ppu.reset.pendX.get b = false ∧ Ppu.reset.pendY.get b = false ∧ Ppu.reset.latch.get b = ⟨0, 0, 0, 0, 1⟩ :=
  ⟨PerAff_get_const b 0, PerAff_get_const b 0, PerAff_get_const b 0, PerAff_get_const b 0, PerAff_get_const b false,
    PerAff_get_const b false, PerAff_get_const b LineLatch.reset⟩

/-- After a reset both strips are empty in every column. -/
theorem Ppu_reset_strips (x : Nat) :
    stripAt Ppu.reset.drawStrip x = SpriteEntry.empty ∧ stripAt Ppu.reset.evalStrip x = SpriteEntry.empty := ⟨rfl, rfl⟩

/-- After a reset every pixel of the framebuffer is 0. -/
theorem Ppu_reset_fbAt (x y : Nat) : Ppu.reset.fbAt x y = 0 := rfl

/-- After a reset the control and scroll registers of a background are 0. -/
theorem Regs_reset_bg (i : BgId) :
    Regs.reset.bgcnt.get i = 0 ∧ Regs.reset.bghofs.get i = 0 ∧ Regs.reset.bgvofs.get i = 0 :=
  ⟨PerBg_get_const i 0, PerBg_get_const i 0, PerBg_get_const i 0⟩

/-- After a reset the parameter and reference registers of an affine layer are 0. -/
theorem Regs_reset_affine (b : AffId) :
    Regs.reset.bgpa.get b = 0 ∧ Regs.reset.bgpb.get b = 0 ∧ Regs.reset.bgpc.get b = 0 ∧ Regs.reset.bgpd.get b = 0 ∧
      Regs.reset.bgx.get b = 0 ∧ Regs.reset.bgy.get b = 0 :=
  ⟨PerAff_get_const b 0, PerAff_get_const b 0, PerAff_get_const b 0, PerAff_get_const b 0, PerAff_get_const b 0,
    PerAff_get_const b 0⟩

/-- Settles O36: the operation puts the reset block in place of the block, and each row is read off there. -/
theorem hardResetAssignsEveryRow : Obligations.HardResetAssignsEveryRow := fun s =>
  ⟨_, exec_hardReset_eq s, rfl, rfl, rfl, rfl, rfl, rfl, Ppu_reset_enable, Ppu_reset_affine, Ppu_reset_strips, rfl,
    Ppu_reset_fbAt, rfl, rfl, rfl⟩

/-- Settles O37: the registers one by one, those held per layer by their layers, and the operation's equation. -/
theorem resetStateHasTheResetValues : Obligations.ResetStateHasTheResetValues :=
  ⟨rfl, rfl, rfl, rfl, Regs_reset_bg, Regs_reset_affine, rfl, rfl, rfl, rfl, rfl, rfl, rfl, rfl, rfl, rfl, exec_hardReset_eq⟩

/-- Settles O43: the reset block meets its invariant, and memory, the schedule and the split writes are empty. -/
theorem resetMeetsTheInvariant : Obligations.ResetMeetsTheInvariant :=
  ⟨Ppu_reset_inv Config.params, rfl, fun _ hc => (nomatch hc), fun _ hw => (nomatch hw)⟩

/-! ## A requested reset -/

/-- Where a reset is due, a tick begins as in the reset machine, in which the request has been served. -/
theorem State_beginTick_served {s : State} (hdue : s.resetDue = true) :
    s.beginTick = State.beginTick { s with
      ppu := Ppu.reset, pending := [], handed := [], splitWrites := [], resetRequested := false } := by
  rw [State_beginTick_reset hdue, State_beginTick_eq rfl]
  rfl

/-- A TICK operation depends on the state only through what its tick begins with. -/
theorem exec_tick_begin {s t : State} (h : s.beginTick = t.beginTick) : exec .tick s = exec .tick t :=
  congrArg (fun b => Host.Outcome.next (State.runTick Config.params b)) h

/-- Delivering the due commits does not depend on a request, which it leaves as it is. -/
theorem State_deliverDue_setRequest (P : Params) (s : State) (b : Bool) :
    State.deliverDue P { s with resetRequested := b } = { s.deliverDue P with resetRequested := b } := rfl

/-- Whether a split half lands does not depend on a request, which the landing leaves as it is. -/
theorem State_landSplitWrite_setRequest (P : Params) (s : State) (b : Bool) :
    State.landSplitWrite P { s with resetRequested := b } = { s.landSplitWrite P with resetRequested := b } := by
  simp only [State.landSplitWrite]
  split
  · rfl
  · split <;> rfl

/-- The block's tick does not depend on a request, which it leaves as it is. -/
theorem State_runTick_setRequest (P : Params) (s : State) (b : Bool) :
    State.runTick P { s with resetRequested := b } = { s.runTick P with resetRequested := b } := rfl

/-- Taking the scheduled commits does not depend on a request, which it leaves as it is. -/
theorem State_takeSchedules_setRequest (P : Params) (s : State) (b : Bool) :
    State.takeSchedules P { s with resetRequested := b } = { s.takeSchedules P with resetRequested := b } := rfl

section AwayFromTheBoundary
variable {s : State} (hdue : s.resetDue = false)
include hdue

/-- Where no reset is due, a tick begins as without the request, which stays standing. -/
theorem State_beginTick_withoutRequest :
    s.beginTick = { State.beginTick { s with resetRequested := false } with resetRequested := s.resetRequested } := by
  rw [State_beginTick_eq hdue, State_beginTick_eq (s := { s with resetRequested := false }) rfl]
  rfl

/-- Where no reset is due, a TICK operation is as without the request, which stays standing. -/
theorem exec_tick_withoutRequest :
    ∃ t, exec .tick { s with resetRequested := false } = .next t ∧
      exec .tick s = .next { t with resetRequested := s.resetRequested } := by
  refine ⟨_, exec_tick_eq _, ?_⟩
  rw [exec_tick_eq, State_beginTick_withoutRequest hdue]

/-- Where no reset is due, a cycle of the scheduler is as without the request, which stays standing. -/
theorem State_schedulerCycle_withoutRequest (P : Params) :
    s.schedulerCycle P =
      { State.schedulerCycle P { s with resetRequested := false } with resetRequested := s.resetRequested } := by
  rw [State.schedulerCycle, State_beginTick_withoutRequest hdue, State_deliverDue_setRequest,
    State_landSplitWrite_setRequest, State_runTick_setRequest, State_takeSchedules_setRequest, State.schedulerCycle]

end AwayFromTheBoundary

/-- Settles O59: at the frame boundary the tick begins as in the reset machine, elsewhere as without the request, and a TICK
operation and a cycle of the scheduler depend on the state through what their tick begins with. -/
theorem requestedResetWaitsForTheFrameBoundary : Obligations.RequestedResetWaitsForTheFrameBoundary := by
  intro s hreq reset without
  refine ⟨fun hboundary => ?_, fun haway => ?_⟩
  · have hbegin : s.beginTick = reset.beginTick :=
      State_beginTick_served ((State_resetDue_iff s).mpr ⟨hreq, hboundary⟩)
    exact ⟨exec_tick_begin hbegin, State_schedulerCycle_begin Config.params hbegin⟩
  · have hdue : s.resetDue = false := Bool.eq_false_iff.mpr fun hd => haway ((State_resetDue_iff s).mp hd).2
    rw [← hreq]
    exact ⟨exec_tick_withoutRequest hdue, State_schedulerCycle_withoutRequest hdue Config.params⟩

end Sys2Proof.Machine
end
